-- ==== Sys2Proof/Word.lean ====
section
/-! DEFINITION. The two word types of the machine (spec/00_scope.md R8, R11): the signed 64-bit Word,
which is also the width of the three cursors, and the 8-bit opcode, which is also the byte of the
writer's byte view. -/

namespace Sys2Proof

/-- A Word (R11): 64 bits, read as a two's-complement signed integer. `+w` and `-w` are `BitVec`
addition and negation, `<s` and `>s` are `BitVec.slt`. The cursors have the same width (R9, D5). -/
abbrev Word := BitVec 64

/-- An 8-bit code-array element (R29, R80), and one byte of the byte view of the data (R53). -/
abbrev Byte := BitVec 8

/-- An agent's number (R15, D34): the machine is 0, writer `k` is `k`. -/
abbrev AgentId := Nat

/-- The number of a lock cell (R15, R31). -/
abbrev LockId := Nat

end Sys2Proof
end

