-- ==== Sys2Proof/Config.lean ====
section
/-! DEFINITION. The parameters of spec/00_scope.md R8: the ones a run fixes at launch (`Launch`,
`Params`, `WriterConfig`), the named reset values, the two distinguished numbers, and the one value
the spec leaves unspecified for good (`Config.idleHolder`). -/

namespace Sys2Proof

/-- `MACHINE` = 0 (R15, D34). -/
def machineId : AgentId := 0

/-- `OWN` = 0, the machine's own lock (R33, D34). -/
def ownLock : LockId := 0

/-- `REL_FREE_POLICY` (R8, R162, D15). -/
inductive RelFreePolicy where
  /-- Releasing a cell that is not exclusively held does nothing (the default). -/
  | noop
  /-- Releasing a cell that is not exclusively held faults the issuing agent. -/
  | fault
  deriving DecidableEq, Repr

/-- `BYTE_ORDER` (R8, R53, D20): only the writer's byte view sees it. -/
inductive ByteOrder where
  | le
  | be
  deriving DecidableEq, Repr

/-- The scalar launch parameters of R8, with the spec's defaults. -/
structure Params where
  /-- `BLOCK_WORDS` = 2 ^ `blockBits`, so that it is a power of two and at least 1 (R252 (b)); 4096 by default (D35). -/
  blockBits : Nat := 12
  /-- `MWAIT_RETRY` (D13): `true` repeats a MutexWait attempt until it obtains the claim. -/
  mwaitRetry : Bool := false
  /-- `REL_FREE_POLICY` (D15). -/
  relFree : RelFreePolicy := .noop
  /-- `BYTE_ORDER` (D20). -/
  byteOrder : ByteOrder := .le
  deriving DecidableEq, Repr

/-- `BLOCK_WORDS` (R8, R16). -/
def Params.blockWords (p : Params) : Nat := 2 ^ p.blockBits

/-- The configuration of one writer (R8, R191): its lock and its two regions, as data indices and lengths in Words. -/
structure WriterConfig where
  /-- `WL`, the writer's designated lock. -/
  lock : LockId
  /-- `CTRL_BASE`. -/
  ctrlBase : Nat
  /-- `CTRL_LEN`. -/
  ctrlLen : Nat
  /-- `PAY_BASE`. -/
  payBase : Nat
  /-- `PAY_LEN`. -/
  payLen : Nat
  deriving DecidableEq, Repr

/-- `LOCK_INIT[l]` (R8, D24). `shared` can be written down and is refused by the launch check (R252 (e)). -/
inductive LockInit where
  | free
  | excl (a : AgentId)
  | shared (n : Nat)
  deriving DecidableEq, Repr

/-- One `bind(lock, block_count)` call of the launch sequence (R170, R251 (4)), with the Words by which
the data array is extended for it (none, where the bound blocks lie inside the loaded data). DESIGN CHOICE (log entry
24): R69 and R251 (4) say only that the extension is a matching one, so it is any list of Words here, whatever the block
count is, also 0. -/
structure Bind where
  lock : LockId
  blockCount : Nat
  words : List Word
  deriving DecidableEq, Repr

/-- Everything the host supplies while reset is asserted (R70 (2), R251). -/
structure Launch where
  /-- The code array (R251 (1)). -/
  code : List Byte
  /-- The data array before any `bind` (R251 (2)). -/
  data : List Word
  /-- The `bind` calls, in order (R251 (4)). -/
  binds : List Bind
  /-- `LOCK_INIT`, one entry per lock cell, so its length is NLOCKS (R251 (5)). -/
  lockInit : List LockInit
  /-- The writers' configurations, writer `k` at position `k - 1` (R251 (6)). -/
  writers : List WriterConfig
  /-- The scalar parameters. -/
  params : Params
  deriving DecidableEq, Repr

/-- The launch that loads nothing: no code, no data, one FREE lock cell, no writer, every default of R8. -/
def Launch.empty : Launch :=
  { code := [], data := [], binds := [], lockInit := [.free], writers := [], params := {} }

/-- The data array at the release of reset: the loaded Words and every extension (R251 (2), (4)), each directly after
the Words before it, whatever its length (DESIGN CHOICE, log entry 24). -/
def Launch.words (L : Launch) : List Word := L.data ++ (L.binds.map Bind.words).flatten

/-- The lock table at the release of reset: ceil(DATA_LEN / BLOCK_WORDS) entries `OWN` for the data loaded at
step (2) of R251, then the entries the `bind` calls append (R37, R170, D18). -/
def Launch.table (L : Launch) : List (Option LockId) :=
  List.replicate ((L.data.length + L.params.blockWords - 1) / L.params.blockWords) (some ownLock)
    ++ (L.binds.map fun b => List.replicate b.blockCount (some b.lock)).flatten

/-- `IP_RESET` (R8, R37, D4). -/
def Config.ipReset : Word := 0

/-- `SP_RESET` = DATA_LEN - 1, which is -1 when DATA_LEN = 0 (R8, R37, D4). -/
def Config.spReset (dataLen : Nat) : Word := BitVec.ofNat 64 dataLen - 1

/-- `DP_RESET` = DATA_LEN - 1, which is -1 when DATA_LEN = 0 (R8, R37, D4). -/
def Config.dpReset (dataLen : Nat) : Word := BitVec.ofNat 64 dataLen - 1

/-- FREE VALUE (R37, spec/93_implementation_defined.md P2; log entry 4): what the holder field of lock cell `l`
shows after its `n`th release while the cell is not exclusively held. Nothing constrains it. -/
opaque Config.idleHolder (l : LockId) (n : Nat) : AgentId

end Sys2Proof
end

