-- ==== Sys2Proof/Syntax.lean ====
section
/-! DEFINITION. The instruction set (spec/30_encoding.md R80 to R87): four instructions, each with six
independent modifier flags and no other operand. -/

namespace Sys2Proof

/-- The operation selector (R83). -/
inductive Selector where
  | src
  | dst
  | code
  | value
  deriving DecidableEq, Repr

/-- The names of the six modifier flags (R81, R84). -/
inductive Flag where
  | invert
  | extend
  | mutexWait
  | lower
  | equal
  | greater
  deriving DecidableEq, Repr

/-- The six modifier flags of one instruction (R84). -/
structure Flags where
  /-- I: negate the magnitude of an eligible instruction (R111). -/
  invert : Bool
  /-- E: take the magnitude from `data[sp]` and lower `sp` (R105). -/
  extend : Bool
  /-- M: perform the handoff wait on the lock of `dp`'s block first (R104). -/
  mutexWait : Bool
  /-- L: eligible only if `src <s dst` (R108). -/
  lower : Bool
  /-- Q: eligible only if `src == dst` (R108). -/
  equal : Bool
  /-- G: eligible only if `src >s dst` (R108). -/
  greater : Bool
  deriving DecidableEq, Repr

/-- The instructions: one constructor for each row of spec/opcode_table.json (R86), with its flags. -/
inductive Instr where
  /-- SRC (R130). -/
  | src (f : Flags)
  /-- DST (R131). -/
  | dst (f : Flags)
  /-- CODE (R140). -/
  | code (f : Flags)
  /-- VALUE (R150). -/
  | value (f : Flags)
  deriving DecidableEq, Repr

/-- The instruction of a selector and its flags. -/
def Instr.ofSelector : Selector → Flags → Instr
  | .src, f => .src f
  | .dst, f => .dst f
  | .code, f => .code f
  | .value, f => .value f

/-- An instruction's selector. -/
def Instr.selector : Instr → Selector
  | .src _ => .src
  | .dst _ => .dst
  | .code _ => .code
  | .value _ => .value

/-- An instruction's flags. -/
def Instr.flags : Instr → Flags
  | .src f => f
  | .dst f => f
  | .code f => f
  | .value f => f

/-- One named flag of an instruction's flags (R84). -/
def Flags.get (f : Flags) : Flag → Bool
  | .invert => f.invert
  | .extend => f.extend
  | .mutexWait => f.mutexWait
  | .lower => f.lower
  | .equal => f.equal
  | .greater => f.greater

/-- No flag set. -/
def Flags.none : Flags := ⟨false, false, false, false, false, false⟩

end Sys2Proof
end

