-- ==== Sys2Proof/WellFormed.lean ====
section
/-! DEFINITION. Well-formedness. Every instruction is well-formed, because no encoding is illegal
(spec/30_encoding.md R87); what the spec does restrict is the launch (spec/70_reset_and_hazards.md R252). -/

namespace Sys2Proof

/-- R84, R87: every combination of flags is a valid instruction for every selector. -/
def Instr.wf : Instr → Bool
  | .src _ => true
  | .dst _ => true
  | .code _ => true
  | .value _ => true

/-- The conditions of R252 that a launch can break. Condition (b), that BLOCK_WORDS is a power of two, holds by
the form of `Params`. -/
inductive LaunchCheck where
  /-- (a): CODE_LEN < 2^63 and DATA_LEN < 2^63. -/
  | arraySizes
  /-- (c): NBLOCKS >= ceil(DATA_LEN / BLOCK_WORDS). -/
  | tableCoversData
  /-- (d): NLOCKS >= 1 and every lock-table entry is a lock id below NLOCKS. -/
  | tableEntries
  /-- (e): every `LOCK_INIT` is FREE or EXCL(a) with `a` a valid agent id. -/
  | lockInit
  /-- (f): each writer's lock exists, CTRL_LEN >= 1, and both regions lie inside the data array. -/
  | writerRegions
  /-- (g): the control regions of different writers do not overlap. -/
  | controlOverlap
  deriving DecidableEq, Repr

/-- (e) for one cell, with `nWriters` writers: the agent ids are 0 to NWRITERS. -/
def LockInit.ok (nWriters : Nat) : LockInit → Bool
  | .free => true
  | .excl a => a ≤ nWriters
  | .shared _ => false

/-- (f) for one writer. DESIGN CHOICE (log entry 22), safe: an empty payload region (PAY_LEN = 0), of which (f) does not
say where it lies, must have PAY_BASE <= DATA_LEN. -/
def WriterConfig.ok (nLocks dataLen : Nat) (w : WriterConfig) : Bool :=
  decide (w.lock < nLocks ∧ 1 ≤ w.ctrlLen ∧ w.ctrlBase + w.ctrlLen ≤ dataLen ∧ w.payBase + w.payLen ≤ dataLen)

/-- (g) for two writers. -/
def WriterConfig.apart (v w : WriterConfig) : Bool :=
  decide (v.ctrlBase + v.ctrlLen ≤ w.ctrlBase ∨ w.ctrlBase + w.ctrlLen ≤ v.ctrlBase)

/-- (g) for a list of writers. -/
def controlRegionsApart : List WriterConfig → Bool
  | [] => true
  | w :: ws => ws.all (w.apart ·) && controlRegionsApart ws

/-- Does the launch meet this condition of R252? DESIGN CHOICE (log entry 23), safe: condition (d) is tested on the table's
entries alone, so a `bind` of no block whose lock id names no cell, which R170 does not allow, is accepted, and its lock
id has no effect. DESIGN CHOICE (log entry 24): the number of Words a `bind` extends the data array by, also one of no
block, is held to conditions (a) and (c) alone. -/
def Launch.meets (L : Launch) : LaunchCheck → Bool
  | .arraySizes => decide (L.code.length < 2 ^ 63 ∧ L.words.length < 2 ^ 63)
  | .tableCoversData => decide (L.words.length ≤ L.table.length * L.params.blockWords)
  | .tableEntries =>
      decide (1 ≤ L.lockInit.length) && L.table.all (fun e => e.any (fun l => decide (l < L.lockInit.length)))
  | .lockInit => L.lockInit.all (LockInit.ok L.writers.length)
  | .writerRegions => L.writers.all (WriterConfig.ok L.lockInit.length L.words.length)
  | .controlOverlap => controlRegionsApart L.writers

/-- The checks in the order of R252. -/
def launchChecks : List LaunchCheck :=
  [.arraySizes, .tableCoversData, .tableEntries, .lockInit, .writerRegions, .controlOverlap]

/-- The launch is well-formed (R252). -/
def Launch.wf (L : Launch) : Bool := launchChecks.all L.meets

end Sys2Proof
end

