-- ==== Sys2Proof/Decode.lean ====
section
/-! DEFINITION. Decoding and encoding the opcode byte (spec/30_encoding.md R80 to R93). The numbers are kept in
two tables, `selectorCode` and `flagMask`, so that they can be replaced (spec/93_implementation_defined.md P8). -/

namespace Sys2Proof

/-- The mask of the selector field, bits 1:0 (R81). -/
def selectorMask : Byte := 0x03

/-- The selector codes (R83, D1). -/
def selectorCode : Selector → Byte
  | .src => 0x00
  | .dst => 0x01
  | .code => 0x02
  | .value => 0x03

/-- The flag masks (R81, R84, D2). -/
def flagMask : Flag → Byte
  | .invert => 0x04
  | .extend => 0x08
  | .mutexWait => 0x10
  | .lower => 0x20
  | .equal => 0x40
  | .greater => 0x80

/-- `op & mask = match` (R86). -/
def matchesSelector (op : Byte) (c : Selector) : Bool := op &&& selectorMask == selectorCode c

/-- The selector of an opcode byte (R83, R86). The mask leaves four values, so the last case needs no test. -/
def decodeSelector (op : Byte) : Selector :=
  if matchesSelector op .src then .src
  else if matchesSelector op .dst then .dst
  else if matchesSelector op .code then .code
  else .value

/-- One flag is tested by a bitwise AND with its mask (R84). -/
def flagSet (op : Byte) (g : Flag) : Bool := op &&& flagMask g != 0

/-- All six flags of an opcode byte (R84, R89). -/
def decodeFlags (op : Byte) : Flags :=
  { invert := flagSet op .invert
    extend := flagSet op .extend
    mutexWait := flagSet op .mutexWait
    lower := flagSet op .lower
    equal := flagSet op .equal
    greater := flagSet op .greater }

/-- R89: decoding one opcode byte is total and stateless. -/
def decodeByte (op : Byte) : Instr := Instr.ofSelector (decodeSelector op) (decodeFlags op)

/-- Why a decode answers no instruction. -/
inductive DecodeError where
  /-- There is no code element to decode. -/
  | noElement
  deriving DecidableEq, Repr

/-- R80: an instruction is exactly one code element; the rest of the elements follow it. -/
def decode : List Byte → Except DecodeError (Instr × List Byte)
  | [] => .error .noElement
  | op :: rest => .ok (decodeByte op, rest)

/-- R82: of a code element held in a wider container only bits 7:0 count. -/
def codeElement (element : Nat) : Byte := BitVec.ofNat 8 element

/-- The mask of a flag if it is set, else 0. -/
def flagBits (f : Flags) (g : Flag) : Byte := if f.get g then flagMask g else 0

/-- R91: the byte of an instruction is the selector code OR-ed with the masks of its flags. -/
def encodeByte (i : Instr) : Byte :=
  selectorCode i.selector ||| flagBits i.flags .invert ||| flagBits i.flags .extend
    ||| flagBits i.flags .mutexWait ||| flagBits i.flags .lower ||| flagBits i.flags .equal
    ||| flagBits i.flags .greater

/-- The code elements of an instruction: exactly one (R80). -/
def encode (i : Instr) : List Byte := [encodeByte i]

/-- The instruction of a table word: the lowest `nbits` bits of `w` are the one code element (R82, R89). -/
def decodeTableWord (nbits w : Nat) : Option Instr :=
  match decode [codeElement (w % 2 ^ nbits)] with
  | .ok (i, _) => some i
  | .error _ => none

end Sys2Proof
end

