-- ==== Sys2Proof/Machine/State.lean ====
section
/-! DEFINITION. The state of the block and of the agents at its ports, as plain data (spec/10_state.md R20 to
R38, spec/45_writer_agent.md R191), the reasons a step can stop, and the state after reset. -/

namespace Sys2Proof.Machine

/-- The run status (R25). -/
inductive Status where
  | running
  | halted
  | faulted
  deriving DecidableEq, Repr

/-- The fault cause register (R26, R221). -/
inductive Cause where
  /-- `BF_NONE`, code 0. -/
  | bfNone
  /-- `BF_CODE`, code 1. -/
  | bfCode
  /-- `BF_SP`, code 2. -/
  | bfSp
  /-- `BF_DP`, code 3. -/
  | bfDp
  /-- `BF_LOCK`, code 4. -/
  | bfLock
  /-- `LF_RELEASE`, code 5. -/
  | lfRelease
  deriving DecidableEq, Repr

/-- Which action of the step comes next (R27); between steps it is `fetch`. -/
inductive Phase where
  | fetch
  | mwait
  | eload
  | loadSrc
  | loadDst
  | exec
  | xhandoff
  deriving DecidableEq, Repr

/-- Why a phase of a step cannot do its access (R220, R221). A phase raises one of these; the step TAKES it as the
spec describes (R14, R228): a next state with `status` FAULTED and `cause` set. No step answers `Outcome.fault`, so
nothing here stops the model where the hardware would go on (safe). -/
inductive Fault where
  /-- Raised by FETCH when `ip` is outside [0, CODE_LEN] (R101, R223). Taken as `BF_CODE`. Safe. -/
  | codeRange
  /-- Raised by ELOAD and LOADSRC when `sp` is outside [0, DATA_LEN) (R105, R106). Taken as `BF_SP`. Safe. -/
  | spRange
  /-- Raised by LOADDST when `dp` is outside [0, DATA_LEN) (R107). Taken as `BF_DP`. Safe. -/
  | dpRange
  /-- Raised by MWAIT when `LockFor(dp)` gives no lock (R104, R224). Taken as `BF_LOCK`. Safe. -/
  | noLock
  /-- Raised by the release half of a handoff wait on a cell that is not exclusively held, under
  `REL_FREE_POLICY` = FAULT (R162). Taken as `LF_RELEASE` by the machine, as `W_FAULTED` by a writer. Safe. -/
  | releaseFree
  deriving DecidableEq, Repr

/-- Why the model gives no next state. -/
inductive Refusal where
  /-- An arm of `exec` without a meaning. No arm answers it in this model. Safe. -/
  | notModelled (mnemonic : String)
  /-- Answered by `launch`, never by a step: the launch breaks the named condition of R252, and such a launch is
  outside the spec. Safe. -/
  | launchIllFormed (check : LaunchCheck)
  deriving DecidableEq, Repr

/-- One lock cell (R32). `excl` = 1 with holder `a` is `claim = some a`; `excl` = 0 is `claim = none`, when the
holder is meaningless (R37). -/
structure LockCell where
  /-- `excl` and `holder` together. -/
  claim : Option AgentId
  /-- The count of shared holds. -/
  readers : Nat
  /-- The MODEL's own field: how many exclusive claims on the cell have been released. It selects the free value
  that the holder output shows while `excl` = 0 (log entry 4). -/
  releases : Nat
  deriving DecidableEq, Repr

/-- Data memory: (byte address, byte) pairs in canonical form. The Word at data index `a` is the eight bytes at
addresses 8a to 8a + 7 (log entry 5). -/
abbrev Memory := List Host.Cell

/-- The status of a writer (R191). -/
inductive WriterStatus where
  /-- `W_RUNNING`. -/
  | running
  /-- `W_SINK_FAILED`. -/
  | sinkFailed
  /-- `W_FAULTED`. -/
  | faulted
  deriving DecidableEq, Repr

/-- A writer's position in its protocol (R193, R196): the atomic action it takes next. -/
inductive WriterPos where
  /-- W1: the handoff wait on `WL`. -/
  | handoff
  /-- W2: the test-and-clear of the flag word. -/
  | testClear
  /-- W3: read `offset` of the current pair. -/
  | readOff
  /-- W3: read `length` of the current pair. -/
  | readLen
  /-- Copy: take block `b`'s lock in shared mode. -/
  | acquire (b : Nat)
  /-- Copy: read the Word at data index `a` of block `b`. -/
  | copy (b a : Nat)
  /-- Copy: release the shared hold on block `b`'s lock. -/
  | release (b : Nat)
  /-- The flush that ends W3. -/
  | flush
  /-- W4: zero Word `i` of the control region. -/
  | zero (i : Nat)
  deriving DecidableEq, Repr

/-- One writer: configuration, private state, and the bytes its sink has received (R191, R198). -/
structure Writer where
  cfg : WriterConfig
  pos : WriterPos
  /-- The index of the current pair. -/
  pair : Nat
  /-- The latched `offset`. -/
  off : Word
  /-- The latched `length`. -/
  len : Word
  /-- The output buffer. -/
  outbuf : List Byte
  /-- The bytes handed to the sink so far, in order. -/
  sink : List Byte
  status : WriterStatus
  deriving DecidableEq, Repr

/-- How the sink answers a flush, an input the block does not control (R198; P16 of
spec/93_implementation_defined.md). -/
inductive SinkReply where
  /-- Every buffered byte is accepted and flushed. -/
  | accepted
  /-- The sink takes the first `n` buffered bytes and then fails. -/
  | failedAfter (n : Nat)
  deriving DecidableEq, Repr

/-- An operation an external agent issues at the memory port (R71) or the lock port (R174). -/
inductive PortOp where
  | memRead (a : Int)
  | memWrite (a : Int) (v : Word)
  | memCas (a : Int) (expect new : Word)
  | lockFor (i : Word)
  | tryExcl (l : LockId)
  | relExcl (l : LockId)
  | acqShared (l : LockId)
  | relShared (l : LockId)
  | handoffWait (l : LockId)
  deriving DecidableEq, Repr

/-- One action of an agent other than the machine (R17, R203). -/
inductive EnvAction where
  /-- Writer `k` takes the next atomic action of its protocol; `reply` is the sink's answer if that is the flush. -/
  | writer (k : AgentId) (reply : SinkReply)
  /-- Writer `k`'s implementation hands its first `n` buffered bytes to the sink early (R198). -/
  | handOver (k : AgentId) (n : Nat)
  /-- External agent `a` issues a port operation. -/
  | port (a : AgentId) (op : PortOp)
  deriving DecidableEq, Repr

/-- The state of the whole system (R20, R191). -/
structure State where
  /-- Instruction pointer (R21). -/
  ip : Word
  /-- Source pointer (R22). -/
  sp : Word
  /-- Destination pointer (R23). -/
  dp : Word
  /-- Run status (R25). -/
  status : Status
  /-- Fault cause (R26). -/
  cause : Cause
  /-- Latch: the fetched opcode (R27). -/
  op : Byte
  /-- Latch: the magnitude (R27). -/
  mag : Word
  /-- Latch: the source operand (R27). -/
  src : Word
  /-- Latch: the destination operand (R27). -/
  dst : Word
  /-- The next action of the step (R27). -/
  phase : Phase
  /-- The code array; CODE_LEN is its length (R29). -/
  code : List Byte
  /-- DATA_LEN (R30). -/
  dataLen : Nat
  /-- The contents of the data array (R30). -/
  data : Memory
  /-- The lock table; NBLOCKS is its length, `none` is UNSET (R31). -/
  lt : List (Option LockId)
  /-- The lock cells; NLOCKS is their number (R32). -/
  cells : List LockCell
  /-- The writers; NWRITERS is their number, writer `k` at position `k - 1` (R36, R191). -/
  writers : List Writer
  /-- The scalar launch parameters (R8). -/
  params : Params
  /-- The MODEL's own field, an input (log entry 1): what the other agents do. Its first entry holds the actions that
  come after the machine's next action, its second those after the one after that, and so on; none when it ends. -/
  env : List (List EnvAction)
  deriving DecidableEq, Repr

/-- A lock cell at `LOCK_INIT` = FREE (R37). -/
def LockCell.free : LockCell := { claim := none, readers := 0, releases := 0 }

/-- The machine right after reset (R37, R250), for the launch that loads nothing (`Launch.empty`; log entries 2
and 3). Every other launch's reset state is `launch`. -/
def State.reset : State :=
  { ip := Config.ipReset
    sp := Config.spReset 0
    dp := Config.dpReset 0
    status := .running
    cause := .bfNone
    op := 0
    mag := 0
    src := 0
    dst := 0
    phase := .fetch
    code := []
    dataLen := 0
    data := []
    lt := []
    cells := [LockCell.free]
    writers := []
    params := {}
    env := [] }

end Sys2Proof.Machine
end

