-- ==== Sys2Proof/Machine/Ops.lean ====
section
/-! DEFINITION. The named operations over memory, the code array and the registers: bytes and Words of the data
array (spec/20_memory.md R50 to R58), the bounds test of every access (R52), fetching (spec/40_step_common.md
R101), taking a fault (spec/00_scope.md R14, spec/60_exceptions.md R220 to R228), the `ip` advance (R112), and
the status and dump port (R236). -/

namespace Sys2Proof.Machine

/-! ## Bytes and Words of the data array -/

/-- The byte at a byte address; an unlisted address reads as 0 (log entry 5). -/
def Memory.readByte : Memory → Nat → Byte
  | [], _ => 0#8
  | (k, b) :: m, a => if k = a then b else Memory.readByte m a

/-- Write one byte and keep the canonical form: addresses rising, no zero byte listed. -/
def Memory.writeByte : Memory → Nat → Byte → Memory
  | [], a, v => if v = 0#8 then [] else [(a, v)]
  | (k, b) :: m, a, v =>
    if a < k then (if v = 0#8 then (k, b) :: m else (a, v) :: (k, b) :: m)
    else if a = k then (if v = 0#8 then m else (a, v) :: m)
    else (k, b) :: Memory.writeByte m a v

/-- Every listed address is at least `n`, and they rise strictly, and no listed byte is 0. -/
def Memory.wfFrom : Nat → Memory → Bool
  | _, [] => true
  | n, (k, b) :: m => decide (n ≤ k) && decide (b ≠ 0#8) && Memory.wfFrom (k + 1) m

/-- The canonical form of memory: equal memories are equal lists. -/
def Memory.wf (m : Memory) : Bool := Memory.wfFrom 0 m

/-- Byte `j` of a Word: bits 8j + 7 down to 8j (R53, LE). -/
def wordByte (w : Word) (j : Nat) : Byte := w.extractLsb' (8 * j) 8

/-- The Word of eight bytes, byte 0 lowest (R53, LE). -/
def wordOfBytes (b0 b1 b2 b3 b4 b5 b6 b7 : Byte) : Word :=
  b7 ++ b6 ++ b5 ++ b4 ++ b3 ++ b2 ++ b1 ++ b0

/-- The Word at data index `i` (R30, R51). -/
def Memory.readWord (m : Memory) (i : Nat) : Word :=
  wordOfBytes (m.readByte (8 * i)) (m.readByte (8 * i + 1)) (m.readByte (8 * i + 2)) (m.readByte (8 * i + 3))
    (m.readByte (8 * i + 4)) (m.readByte (8 * i + 5)) (m.readByte (8 * i + 6)) (m.readByte (8 * i + 7))

/-- Store the bytes of a list at rising addresses. -/
def Memory.writeBytes : Memory → Nat → List Byte → Memory
  | m, _, [] => m
  | m, a, b :: bs => Memory.writeBytes (m.writeByte a b) (a + 1) bs

/-- The eight bytes of a Word, byte 0 first. -/
def wordBytes (w : Word) : List Byte :=
  [wordByte w 0, wordByte w 1, wordByte w 2, wordByte w 3, wordByte w 4, wordByte w 5, wordByte w 6, wordByte w 7]

/-- Store a whole Word at data index `i` (R51, R56). -/
def Memory.writeWord (m : Memory) (i : Nat) (v : Word) : Memory := m.writeBytes (8 * i) (wordBytes v)

/-- The bytes of a Word in the order the writer's byte view has them (R53, R197). -/
def viewBytes : ByteOrder → Word → List Byte
  | .le, w => wordBytes w
  | .be, w => (wordBytes w).reverse

/-! ## The bounds test -/

/-- R52: a cursor names an element of an array of `len` elements exactly if it lies in [0, len), as a signed number. -/
def index? (len : Nat) (c : Word) : Option Nat :=
  if 0 ≤ c.toInt ∧ c.toInt < len then some c.toNat else none

/-- `MemRead(a, 8)` by the machine (R13): the Word a cursor names, or the fault the calling rule gives. -/
def State.memRead (s : State) (c : Word) (f : Fault) : Except Fault Word :=
  match index? s.dataLen c with
  | some i => .ok (s.data.readWord i)
  | none => .error f

/-- `MemWrite(a, 8, v)` by the machine (R13). -/
def State.memWrite (s : State) (c v : Word) (f : Fault) : Except Fault State :=
  match index? s.dataLen c with
  | some i => .ok { s with data := s.data.writeWord i v }
  | none => .error f

/-! ## The code array -/

/-- What FETCH finds at `ip` (R101). -/
inductive FetchResult where
  /-- `ip` = CODE_LEN: the normal halt. -/
  | halt
  /-- `ip` outside [0, CODE_LEN]. -/
  | outOfRange
  /-- The opcode at `ip`. -/
  | opcode (op : Byte)
  deriving DecidableEq, Repr

/-- The test of FETCH (R101, R223). -/
def State.fetchAtIp (s : State) : FetchResult :=
  if s.ip.toInt = s.code.length then .halt
  else
    match index? s.code.length s.ip with
    | some i => (match s.code[i]? with | some b => .opcode b | none => .outOfRange)
    | none => .outOfRange

/-! ## Taking a fault -/

/-- The cause a fault is recorded as (R221). -/
def Fault.toCause : Fault → Cause
  | .codeRange => .bfCode
  | .spRange => .bfSp
  | .dpRange => .bfDp
  | .noLock => .bfLock
  | .releaseFree => .lfRelease

/-- The number of a cause (R221, D9). -/
def Cause.number : Cause → Nat
  | .bfNone => 0
  | .bfCode => 1
  | .bfSp => 2
  | .bfDp => 3
  | .bfLock => 4
  | .lfRelease => 5

/-- TAKING THE FAULT (R14, R228): `status` and `cause` are the only writes. There is no handler and no return
(R229). -/
def State.takeFault (s : State) (f : Fault) : State := { s with status := .faulted, cause := f.toCause }

/-- The effect of one phase: its new state, or the fault taken in the state the phase began in (R14). -/
def State.orFault (s : State) : Except Fault State → State
  | .ok t => t
  | .error f => s.takeFault f

/-! ## Advancing -/

/-- ADVANCE (R112): `ip` rises by 1 and the step is over. -/
def State.advance (s : State) : State := { s with ip := s.ip + 1, phase := .fetch }

/-! ## Blocks -/

/-- `blk(i)` for a data index (R16). -/
def State.blockOf (s : State) (i : Nat) : Nat := i / s.params.blockWords

/-- R152: the new `dp` is the first index of a block. -/
def State.atBlockStart (s : State) (c : Word) : Bool := c.toNat % s.params.blockWords == 0

/-! ## Data accesses by data index, for the agents at the memory port -/

/-- The Word at a data index, if there is one (R71). -/
def State.wordAt (s : State) (i : Nat) : Option Word :=
  if i < s.dataLen then some (s.data.readWord i) else none

/-- Store a Word at a data index; an index outside the array is not accepted and changes nothing (R71). -/
def State.setWordAt (s : State) (i : Nat) (v : Word) : State :=
  if i < s.dataLen then { s with data := s.data.writeWord i v } else s

end Sys2Proof.Machine
end

