-- ==== Sys2Proof/Machine/Boot.lean ====
section
/-! DEFINITION. Reset and launch (spec/70_reset_and_hazards.md R250 to R255, spec/44_lock_handoff.md R170), and the
placing of one instruction where the next FETCH finds it. -/

namespace Sys2Proof.Machine

/-- The listed bytes of one Word at data index `a`: its non-zero bytes at their addresses. -/
def Memory.wordCells (a : Nat) (w : Word) : Memory :=
  ((List.range 8).map fun j => (8 * a + j, wordByte w j)).filter fun c => c.2 != 0

/-- The memory that holds the Words of a list from data index `a` on (R251 (2)). -/
def Memory.load : Nat → List Word → Memory
  | _, [] => []
  | a, w :: ws => Memory.wordCells a w ++ Memory.load (a + 1) ws

/-- A lock cell as `LOCK_INIT` sets it (R37, R251 (5)). -/
def LockCell.ofInit : LockInit → LockCell
  | .free => { claim := none, readers := 0, releases := 0 }
  | .excl a => { claim := some a, readers := 0, releases := 0 }
  | .shared n => { claim := none, readers := n, releases := 0 }

/-- A writer at the release of reset: at W1, with an empty output buffer (R250). -/
def Writer.ofConfig (c : WriterConfig) : Writer :=
  { cfg := c, pos := .handoff, pair := 0, off := 0, len := 0, outbuf := [], sink := [], status := .running }

/-- The state at the release of reset (R37, R250, R251), with `env` the actions the other agents will take. Nothing of
an earlier run survives it. -/
def bootState (L : Launch) (env : List (List EnvAction)) : State :=
  { ip := Config.ipReset
    sp := Config.spReset L.words.length
    dp := Config.dpReset L.words.length
    status := .running
    cause := .bfNone
    op := 0
    mag := 0
    src := 0
    dst := 0
    phase := .fetch
    code := L.code
    dataLen := L.words.length
    data := Memory.load 0 L.words
    lt := L.table
    cells := L.lockInit.map LockCell.ofInit
    writers := L.writers.map Writer.ofConfig
    params := L.params
    env := env }

/-- The first condition of R252 the launch breaks, if any. -/
def brokenCheck (L : Launch) : Option LaunchCheck := launchChecks.find? fun c => !L.meets c

/-- Reset with a launch (R250, R251); a launch that breaks a condition of R252 is outside the spec and is refused. -/
def launch (L : Launch) (env : List (List EnvAction)) : Except Refusal State :=
  match brokenCheck L with
  | none => .ok (bootState L env)
  | some c => .error (.launchIllFormed c)

/-- Put an opcode where the next FETCH reads it: at `ip`, if the machine is between steps and `ip` names a code
element; otherwise as the whole program of a new run, at its entry point 0 (R250). -/
def State.placeOpcode (s : State) (b : Byte) : State :=
  match s.status, s.phase, index? s.code.length s.ip with
  | .running, .fetch, some i => { s with code := s.code.set i b }
  | _, _, _ => { s with code := [b], ip := Config.ipReset, status := .running, cause := .bfNone, phase := .fetch }

/-- Load a data array of two zero Words, with its lock table and reset cursors, if there is no data array: a program is
a code array AND a data array (R251, R253 (a); log entry 3). -/
def State.placeData (s : State) : State :=
  if s.dataLen = 0 then
    { s with
      dataLen := 2, data := [], sp := Config.spReset 2, dp := Config.dpReset 2,
      lt := if s.lt.isEmpty then [some ownLock] else s.lt }
  else s

end Sys2Proof.Machine
end

