-- ==== Sys2Proof/Machine/Locks.lean ====
section
/-! DEFINITION. Lock cells, the lock table and the handoff sequencer (spec/44_lock_handoff.md R160 to R170), and
the per-block ownership signals and the dump port that show them (spec/10_state.md R34, spec/60_exceptions.md
R236). -/

namespace Sys2Proof.Machine

/-! ## Operations on one lock cell -/

/-- The bit `excl` (R32). -/
def LockCell.excl (c : LockCell) : Bool := c.claim.isSome

/-- Neither an exclusive claim nor a shared hold (R32). -/
def LockCell.isFree (c : LockCell) : Bool := c.claim.isNone && c.readers == 0

/-- The cell after its exclusive claim is cleared (R162). -/
def LockCell.cleared (c : LockCell) : LockCell := { c with claim := none, releases := c.releases + 1 }

/-- `TryExcl(a, l)` (R161): the result and the cell after it. -/
def LockCell.tryExcl (c : LockCell) (a : AgentId) : Bool × LockCell :=
  if c.isFree then (true, { c with claim := some a }) else (false, c)

/-- `RelExcl(l)` (R162), whoever issues it. -/
def LockCell.relExcl (c : LockCell) (p : RelFreePolicy) : Except Fault LockCell :=
  if c.excl then .ok c.cleared
  else
    match p with
    | .noop => .ok c
    | .fault => .error .releaseFree

/-- `AcqShared(a, l)` (R163): `none` while it is not enabled. -/
def LockCell.acqShared (c : LockCell) : Option LockCell :=
  if c.excl then none else some { c with readers := c.readers + 1 }

/-- `RelShared(a, l)` (R164): `none` while it is not enabled. -/
def LockCell.relShared (c : LockCell) : Option LockCell :=
  if c.readers = 0 then none else some { c with readers := c.readers - 1 }

/-- `HandoffWait(a, l)` (R165): `TryExcl`, and `RelExcl` if that fails, as one action. -/
def LockCell.handoffWait (c : LockCell) (p : RelFreePolicy) (a : AgentId) : Except Fault (Bool × LockCell) :=
  let (got, c') := c.tryExcl a
  if got then .ok (true, c')
  else
    match c'.relExcl p with
    | .ok c'' => .ok (false, c'')
    | .error f => .error f

/-- `HeldByMachine(l)` (R167). -/
def LockCell.heldByMachine (c : LockCell) : Bool := c.claim == some machineId

/-! ## The lock table -/

/-- The lock that guards block `b`: the table's entry, if it has one that is set (R166). -/
def State.lockOfBlock (s : State) (b : Nat) : Option LockId :=
  match s.lt[b]? with
  | some (some l) => some l
  | _ => none

/-- `LockFor(i)` (R166): a negative index has no block and no lock (R16). -/
def State.lockFor (s : State) (i : Word) : Option LockId :=
  if i.toInt < 0 then none else s.lockOfBlock (s.blockOf i.toNat)

/-- Replace one lock cell. -/
def State.setCell (s : State) (l : LockId) (c : LockCell) : State := { s with cells := s.cells.set l c }

/-! ## The handoff sequencer -/

/-- `HandoffWait(MACHINE, LockFor(i))` (R104, R168): whether the claim was obtained, and the state after it. No lock,
or a lock id that names no cell, which no well-formed launch has (R252 (d); log entry 6), is the fault `noLock`. -/
def State.machineHandoff (s : State) (i : Word) : Except Fault (Bool × State) :=
  match s.lockFor i with
  | none => .error .noLock
  | some l =>
    match s.cells[l]? with
    | none => .error .noLock
    | some c =>
      match c.handoffWait s.params.relFree machineId with
      | .ok (got, c') => .ok (got, s.setCell l c')
      | .error f => .error f

/-- `CrossBlockHandoff()` (R169), with `dp` already incremented: another agent's exclusive claim on the lock of the
block `dp` is in is released, unless that lock is OWN. It never faults and never acquires. -/
def State.crossBlockHandoff (s : State) : State :=
  match s.lockFor s.dp with
  | none => s
  | some l =>
    if l = ownLock then s
    else
      match s.cells[l]? with
      | none => s
      | some c => if c.heldByMachine then s else if c.excl then s.setCell l c.cleared else s

/-! ## Ownership signals and the dump port -/

/-- The three ownership outputs of one block (R34). -/
structure OwnSignals where
  ownExcl : Bool
  ownHolder : AgentId
  ownReaders : Nat
  deriving DecidableEq, Repr

/-- The outputs of a cell. While `excl` = 0 the holder is unspecified (R37) and shows the free value. -/
def LockCell.signals (c : LockCell) (l : LockId) : OwnSignals :=
  { ownExcl := c.excl
    ownHolder := c.claim.getD (Config.idleHolder l c.releases)
    ownReaders := c.readers }

/-- The outputs of block `b` (R34); for an UNSET entry they are 0, MACHINE, 0. -/
def State.ownSignals (s : State) (b : Nat) : OwnSignals :=
  match s.lockOfBlock b with
  | none => { ownExcl := false, ownHolder := machineId, ownReaders := 0 }
  | some l =>
    match s.cells[l]? with
    | none => { ownExcl := false, ownHolder := machineId, ownReaders := 0 }
    | some c => c.signals l

/-- What the status and dump port presents (R236). -/
structure Dump where
  status : Status
  causeCode : Nat
  ip : Word
  sp : Word
  dp : Word
  words : List Word
  signals : List OwnSignals
  deriving DecidableEq, Repr

/-- Reading the port (R236): it changes nothing. -/
def State.dump (s : State) : Dump :=
  { status := s.status
    causeCode := s.cause.number
    ip := s.ip
    sp := s.sp
    dp := s.dp
    words := (List.range s.dataLen).map s.data.readWord
    signals := (List.range s.lt.length).map s.ownSignals }

end Sys2Proof.Machine
end

