-- ==== Sys2Proof/Machine/Ports.lean ====
section
/-! DEFINITION. The memory port and the lock port, by which agents other than the machine act on the block
(spec/20_memory.md R70, R71; spec/44_lock_handoff.md R174). Each operation is one atomic action. -/

namespace Sys2Proof.Machine

/-- What a port operation answers its issuer. -/
inductive PortReply where
  /-- Not accepted: an index or a lock id that names nothing, or an issuer that is no external agent (R71, R174). -/
  | notAccepted
  /-- Not enabled: the issuer waits (R163, R164). -/
  | notEnabled
  /-- Done, with no result. -/
  | done
  /-- The Word read; for `MemCAS` the old Word (R13). -/
  | word (w : Word)
  /-- Whether the claim was obtained (R161, R165). -/
  | obtained (got : Bool)
  /-- The answer of a `LockFor` query. -/
  | lock (l : Option LockId)
  /-- The issuing agent faults (R162, `REL_FREE_POLICY` = FAULT); nothing changes in the block. -/
  | issuerFaults
  deriving DecidableEq, Repr

/-- R71: the data index an external agent names, if it lies in [0, DATA_LEN). -/
def State.portIndex (s : State) (a : Int) : Option Nat :=
  if 0 ≤ a ∧ a < s.dataLen then some a.toNat else none

/-- `MemRead` at the memory port (R71). -/
def State.portRead (s : State) (a : Int) : PortReply × State :=
  match s.portIndex a with
  | none => (.notAccepted, s)
  | some i => (.word (s.data.readWord i), s)

/-- `MemWrite` at the memory port (R71). -/
def State.portWrite (s : State) (a : Int) (v : Word) : PortReply × State :=
  match s.portIndex a with
  | none => (.notAccepted, s)
  | some i => (.done, s.setWordAt i v)

/-- `MemCAS` at the memory port (R13, R71): the new Word is stored if and only if the old one is the expected one. -/
def State.portCas (s : State) (a : Int) (expect new : Word) : PortReply × State :=
  match s.portIndex a with
  | none => (.notAccepted, s)
  | some i =>
    let old := s.data.readWord i
    (.word old, if old = expect then s.setWordAt i new else s)

/-- One of the five cell operations by agent `a` (R174). -/
def LockCell.portOp (c : LockCell) (p : RelFreePolicy) (a : AgentId) : PortOp → PortReply × LockCell
  | .tryExcl _ => let (got, c') := c.tryExcl a; (.obtained got, c')
  | .relExcl _ => match c.relExcl p with | .ok c' => (.done, c') | .error _ => (.issuerFaults, c)
  | .acqShared _ => match c.acqShared with | some c' => (.done, c') | none => (.notEnabled, c)
  | .relShared _ => match c.relShared with | some c' => (.done, c') | none => (.notEnabled, c)
  | .handoffWait _ =>
      match c.handoffWait p a with | .ok (got, c') => (.obtained got, c') | .error _ => (.issuerFaults, c)
  | .memRead _ | .memWrite _ _ | .memCas _ _ _ | .lockFor _ => (.notAccepted, c)

/-- A cell operation at the lock port on lock `l` (R174). -/
def State.portLock (s : State) (a : AgentId) (l : LockId) (op : PortOp) : PortReply × State :=
  match s.cells[l]? with
  | none => (.notAccepted, s)
  | some c =>
    let (r, c') := c.portOp s.params.relFree a op
    (r, s.setCell l c')

/-- One port operation of external agent `a` (R71, R174). The agent id 0 is the machine's and is not accepted. -/
def State.portDo (s : State) (a : AgentId) (op : PortOp) : PortReply × State :=
  if a = machineId then (.notAccepted, s)
  else
    match op with
    | .memRead i => s.portRead i
    | .memWrite i v => s.portWrite i v
    | .memCas i e n => s.portCas i e n
    | .lockFor i => (.lock (s.lockFor i), s)
    | .tryExcl l => s.portLock a l op
    | .relExcl l => s.portLock a l op
    | .acqShared l => s.portLock a l op
    | .relShared l => s.portLock a l op
    | .handoffWait l => s.portLock a l op

end Sys2Proof.Machine
end

