-- ==== Sys2Proof/Machine/Drain.lean ====
section
/-! DEFINITION. The writer's protocol (spec/45_writer_agent.md R190 to R202), one atomic action at a time, and the
actions of the other agents between two actions of the machine (spec/20_memory.md R63). -/

namespace Sys2Proof.Machine

/-- The writer stops with `W_FAULTED` (R196, R237). -/
def Writer.fail (w : Writer) : Writer := { w with status := .faulted }

/-- The data index of the flag word (R192). -/
def flagIndex (c : WriterConfig) : Nat := c.ctrlBase + c.ctrlLen - 1

/-- Go to pair `j`: the scan goes on while 2j + 1 < CTRL_LEN - 1, else the writer flushes (R193, R195). -/
def Writer.toPair (w : Writer) (j : Nat) : Writer :=
  { w with pair := j, pos := if 2 * j + 2 < w.cfg.ctrlLen then .readOff else .flush }

/-- The first data index of the latched range (R196). -/
def Writer.first (w : Writer) : Nat := w.cfg.payBase + w.off.toNat

/-- The last data index of the latched range (R196), for a length that is not 0. -/
def Writer.last (w : Writer) : Nat := w.cfg.payBase + w.off.toNat + w.len.toNat - 1

/-- R196: the latched range lies inside the payload region. -/
def Writer.rangeOk (w : Writer) : Bool :=
  decide (0 ≤ w.off.toInt ∧ 0 ≤ w.len.toInt ∧ w.off.toInt + w.len.toInt ≤ w.cfg.payLen)

/-- Go on to block `b` of the copy: a block without a lock stops the writer (R196). -/
def Writer.toBlock (w : Writer) (s : State) (b : Nat) : Writer :=
  match s.lockOfBlock b with
  | none => w.fail
  | some _ => { w with pos := .acquire b }

/-- W1 (R193): the handoff wait on `WL`; its result is not used. -/
def Writer.doHandoff (k : AgentId) (w : Writer) (s : State) : Writer × State :=
  match s.cells[w.cfg.lock]? with
  | none => (w.fail, s)
  | some c =>
    match c.handoffWait s.params.relFree k with
    | .error _ => (w.fail, s)
    | .ok (_, c') => ({ w with pos := .testClear }, s.setCell w.cfg.lock c')

/-- W2 (R194): one compare-and-swap of the flag word from 1 to 0. -/
def Writer.doTestClear (w : Writer) (s : State) : Writer × State :=
  match s.wordAt (flagIndex w.cfg) with
  | none => (w.fail, s)
  | some old =>
    if old = 1 then (w.toPair 0, s.setWordAt (flagIndex w.cfg) 0) else ({ w with pos := .handoff }, s)

/-- W3 (R195): read `offset`. -/
def Writer.doReadOff (w : Writer) (s : State) : Writer × State :=
  match s.wordAt (w.cfg.ctrlBase + 2 * w.pair) with
  | none => (w.fail, s)
  | some v => ({ w with off := v, pos := .readLen }, s)

/-- W3 (R195, R196): read `length`; 0 ends the scan, any other begins the copy of the range. -/
def Writer.doReadLen (w : Writer) (s : State) : Writer × State :=
  match s.wordAt (w.cfg.ctrlBase + 2 * w.pair + 1) with
  | none => (w.fail, s)
  | some v =>
    let w' := { w with len := v }
    if v = 0 then ({ w' with pos := .flush }, s)
    else if w'.rangeOk then (w'.toBlock s (s.blockOf w'.first), s)
    else (w'.fail, s)

/-- Copy, first part (R196): `AcqShared` on block `b`'s lock; while it is not enabled the writer waits. -/
def Writer.doAcquire (w : Writer) (s : State) (b : Nat) : Writer × State :=
  match s.lockOfBlock b with
  | none => (w.fail, s)
  | some l =>
    match s.cells[l]? with
    | none => (w.fail, s)
    | some c =>
      match c.acqShared with
      | none => (w, s)
      | some c' => ({ w with pos := .copy b (max w.first (b * s.params.blockWords)) }, s.setCell l c')

/-- Copy, second part (R196, R197): read one Word and append its 8 bytes. -/
def Writer.doCopy (w : Writer) (s : State) (b a : Nat) : Writer × State :=
  match s.wordAt a with
  | none => (w.fail, s)
  | some v =>
    let w' := { w with outbuf := w.outbuf ++ viewBytes s.params.byteOrder v }
    if a < min w.last ((b + 1) * s.params.blockWords - 1) then ({ w' with pos := .copy b (a + 1) }, s)
    else ({ w' with pos := .release b }, s)

/-- Copy, last part (R196): `RelShared`, then the next block of the range or the next pair. -/
def Writer.doRelease (w : Writer) (s : State) (b : Nat) : Writer × State :=
  match s.lockOfBlock b with
  | none => (w.fail, s)
  | some l =>
    match s.cells[l]? with
    | none => (w.fail, s)
    | some c =>
      match c.relShared with
      | none => (w, s)
      | some c' =>
        (if b < s.blockOf w.last then w.toBlock s (b + 1) else w.toPair (w.pair + 1), s.setCell l c')

/-- The flush (R198): on success everything buffered is handed over and zeroing begins; a sink that fails stops the
writer with the control region as it is. -/
def Writer.doFlush (w : Writer) : SinkReply → Writer
  | .accepted => { w with sink := w.sink ++ w.outbuf, outbuf := [], pos := .zero 0 }
  | .failedAfter n =>
      { w with sink := w.sink ++ w.outbuf.take n, outbuf := w.outbuf.drop n, status := .sinkFailed }

/-- W4 (R199): zero one Word of the control region, in ascending order, the flag word last; then back to W1.
DESIGN CHOICE (log entry 21), safe: an index outside the array, which R71 leaves to the agent and R252 (f) excludes,
stores nothing, and the writer goes on. -/
def Writer.doZero (w : Writer) (s : State) (i : Nat) : Writer × State :=
  ({ w with pos := if i + 1 < w.cfg.ctrlLen then .zero (i + 1) else .handoff }, s.setWordAt (w.cfg.ctrlBase + i) 0)

/-- The next atomic action of writer `k` (R193). -/
def Writer.act (k : AgentId) (w : Writer) (reply : SinkReply) (s : State) : Writer × State :=
  match w.pos with
  | .handoff => w.doHandoff k s
  | .testClear => w.doTestClear s
  | .readOff => w.doReadOff s
  | .readLen => w.doReadLen s
  | .acquire b => w.doAcquire s b
  | .copy b a => w.doCopy s b a
  | .release b => w.doRelease s b
  | .flush => (w.doFlush reply, s)
  | .zero i => w.doZero s i

/-- Writer `k`, if there is one: writers are numbered from 1 (R15). -/
def State.writerAt (s : State) (k : AgentId) : Option Writer := if k = 0 then none else s.writers[k - 1]?

/-- Replace writer `k`. -/
def State.setWriter (s : State) (k : AgentId) (w : Writer) : State := { s with writers := s.writers.set (k - 1) w }

/-- Writer `k` takes one action; a writer that has stopped takes none (R237). -/
def State.writerAct (s : State) (k : AgentId) (reply : SinkReply) : State :=
  match s.writerAt k with
  | none => s
  | some w =>
    if w.status = .running then
      let (w', s') := w.act k reply s
      s'.setWriter k w'
    else s

/-- Writer `k` hands its first `n` buffered bytes over before the flush, their order unchanged (R198). -/
def State.writerHandOver (s : State) (k : AgentId) (n : Nat) : State :=
  match s.writerAt k with
  | none => s
  | some w =>
    if w.status = .running then
      s.setWriter k { w with sink := w.sink ++ w.outbuf.take n, outbuf := w.outbuf.drop n }
    else s

/-- One action of an agent other than the machine (R17). -/
def State.envAct (s : State) : EnvAction → State
  | .writer k reply => s.writerAct k reply
  | .handOver k n => s.writerHandOver k n
  | .port a op => (s.portDo a op).2

/-- Actions of other agents, in order. -/
def State.envActs (s : State) (acts : List EnvAction) : State := acts.foldl State.envAct s

/-- What the other agents do between this action of the machine and its next one (R63). -/
def State.interfere (s : State) : State :=
  match s.env with
  | [] => s
  | acts :: rest => State.envActs { s with env := rest } acts

end Sys2Proof.Machine
end

