-- ==== Sys2Proof/Machine/Flags.lean ====
section
/-! DEFINITION. What the instruction's flags compute (spec/40_step_common.md R108 to R111): eligibility and the
applied magnitude. The machine has no status flags (spec/10_state.md R28). -/

namespace Sys2Proof.Machine

/-- The eligibility predicate (R108): for every conditional flag that is set its signed comparison holds. -/
def eligible (f : Flags) (src dst : Word) : Bool :=
  (!f.lower || src.slt dst) && (!f.equal || src == dst) && (!f.greater || dst.slt src)

/-- Invert (R111): the magnitude the selector action applies. -/
def appliedMag (f : Flags) (mag : Word) : Word := if f.invert then -mag else mag

end Sys2Proof.Machine
end

