-- ==== Sys2Proof/Machine/Operands.lean ====
section
/-! DEFINITION. The operand phases of a step (spec/40_step_common.md R104 to R107): MWAIT, ELOAD, LOADSRC and
LOADDST, and which of them an instruction's flags ask for (R100). Each is one atomic action. -/

namespace Sys2Proof.Machine

/-- The phase after MWAIT, or after FETCH when M = 0 (R100): ELOAD only if E = 1. -/
def phaseAfterMwait (f : Flags) : Phase := if f.extend then .eload else .loadSrc

/-- The phase after FETCH (R100): MWAIT only if M = 1. -/
def phaseAfterFetch (f : Flags) : Phase := if f.mutexWait then .mwait else phaseAfterMwait f

/-- FETCH of an opcode (R101): `op` and `mag` are latched. -/
def State.latch (s : State) (op : Byte) (f : Flags) : State :=
  { s with op := op, mag := 1, phase := phaseAfterFetch f }

/-- MWAIT (R104, R168): one handoff wait on the lock of `dp`'s block. Under `MWAIT_RETRY` = 1 an attempt that does
not obtain the claim leaves the step at MWAIT. -/
def State.mwait (f : Flags) (s : State) : Except Fault State :=
  match s.machineHandoff s.dp with
  | .error e => .error e
  | .ok (got, t) =>
    if s.params.mwaitRetry && !got then .ok t else .ok { t with phase := phaseAfterMwait f }

/-- ELOAD (R105): the magnitude is the Word at `sp`, then `sp` falls by 1. -/
def State.eload (s : State) : Except Fault State :=
  match s.memRead s.sp .spRange with
  | .error e => .error e
  | .ok w => .ok { s with mag := w, sp := s.sp - 1, phase := .loadSrc }

/-- LOADSRC (R106). -/
def State.loadSrc (s : State) : Except Fault State :=
  match s.memRead s.sp .spRange with
  | .error e => .error e
  | .ok w => .ok { s with src := w, phase := .loadDst }

/-- LOADDST (R107). -/
def State.loadDst (s : State) : Except Fault State :=
  match s.memRead s.dp .dpRange with
  | .error e => .error e
  | .ok w => .ok { s with dst := w, phase := .exec }

end Sys2Proof.Machine
end

