-- ==== Sys2Proof/Machine/Phases.lean ====
section
/-! DEFINITION. The step shared by all four instructions (spec/40_step_common.md R100 to R113): its phases in order,
with the other agents' actions between them. An instruction is its opcode, its flags and its selector's action. -/

namespace Sys2Proof.Machine

/-- EXEC (R110, R113): an instruction that is not eligible only advances; an eligible one applies Invert and then its
selector's action. -/
def State.execute (f : Flags) (act : State → Except Fault State) (s : State) : Except Fault State :=
  if eligible f s.src s.dst then act { s with mag := appliedMag f s.mag } else .ok s.advance

/-- XHANDOFF (R152, R169), with the advance that belongs to it (R112). -/
def State.xhandoff (s : State) : Except Fault State := .ok s.crossBlockHandoff.advance

/-- If the machine is running and its next action is phase `p`, it takes that action, and then the other agents take
theirs (R63); otherwise nothing happens. -/
def State.atPhase (p : Phase) (g : State → Except Fault State) (s : State) : State :=
  if s.status = .running ∧ s.phase = p then (s.orFault (g s)).interfere else s

/-- The phases of one step in the order of R100, from whichever comes next in `s`. A phase that the flags do not ask
for is skipped; a fault (R14), and a MutexWait attempt to be repeated (R168), end the step where they happen. -/
def State.runPhases (op : Byte) (f : Flags) (act : State → Except Fault State) (s : State) : State :=
  ((((((s.atPhase .fetch (fun t => .ok (t.latch op f))).atPhase .mwait (State.mwait f)).atPhase .eload
    State.eload).atPhase .loadSrc State.loadSrc).atPhase .loadDst State.loadDst).atPhase .exec
    (State.execute f act)).atPhase .xhandoff State.xhandoff

end Sys2Proof.Machine
end

