-- ==== Sys2Proof/Machine/Code.lean ====
section
/-! DEFINITION. CODE, the control-transfer instruction (spec/42_code.md R140 to R143). -/

namespace Sys2Proof.Machine

/-- The selector action of CODE (R140): `ip` moves by the magnitude, and by the 1 of every step besides. The target
is checked by the next FETCH (R141). -/
def codeAction (s : State) : Except Fault State := .ok { s with ip := s.ip + s.mag }.advance

/-- CODE (R140, R142). -/
def execCode (f : Flags) (s : State) : Host.Outcome State Fault Refusal :=
  .next (s.runPhases (encodeByte (.code f)) f codeAction)

end Sys2Proof.Machine
end

