-- ==== Sys2Proof/Machine/SrcDst.lean ====
section
/-! DEFINITION. SRC and DST, the cursor-move instructions (spec/41_src_dst.md R130 to R132). -/

namespace Sys2Proof.Machine

/-- The selector action of SRC (R130): `sp` moves by the magnitude, unchecked. -/
def srcAction (s : State) : Except Fault State := .ok { s with sp := s.sp + s.mag }.advance

/-- The selector action of DST (R131): `dp` moves by the magnitude, unchecked. -/
def dstAction (s : State) : Except Fault State := .ok { s with dp := s.dp + s.mag }.advance

/-- SRC (R130, R132). -/
def execSrc (f : Flags) (s : State) : Host.Outcome State Fault Refusal :=
  .next (s.runPhases (encodeByte (.src f)) f srcAction)

/-- DST (R131, R132). -/
def execDst (f : Flags) (s : State) : Host.Outcome State Fault Refusal :=
  .next (s.runPhases (encodeByte (.dst f)) f dstAction)

end Sys2Proof.Machine
end

