-- ==== Sys2Proof/Machine/Value.lean ====
section
/-! DEFINITION. VALUE, the store instruction (spec/43_value.md R150 to R154). -/

namespace Sys2Proof.Machine

/-- The cursors after the store of VALUE (R150). -/
def State.moveBoth (s : State) : State := { s with sp := s.sp - 1, dp := s.dp + 1 }

/-- The end of VALUE's own action (R152): into XHANDOFF if the new `dp` is the first index of a block, else the
advance. -/
def State.afterStore (s : State) : State :=
  if s.atBlockStart s.dp then { s with phase := .xhandoff } else s.advance

/-- The selector action of VALUE (R150): store `src +w mag` at `dp`, then move both cursors. In a step that has passed
LOADDST the store does not fault (R151). -/
def valueAction (s : State) : Except Fault State :=
  match s.memWrite s.dp (s.src + s.mag) .dpRange with
  | .error e => .error e
  | .ok t => .ok t.moveBoth.afterStore

/-- VALUE (R150, R153). -/
def execValue (f : Flags) (s : State) : Host.Outcome State Fault Refusal :=
  .next (s.runPhases (encodeByte (.value f)) f valueAction)

end Sys2Proof.Machine
end

