-- ==== Sys2Proof/Machine/Dispatch.lean ====
section
/-! DEFINITION. The dispatch on the instruction (spec/40_step_common.md R113). -/

namespace Sys2Proof.Machine

def exec (i : Instr) (s : State) : Host.Outcome State Fault Refusal :=
  match i with
  | .src f => Sys2Proof.Machine.execSrc f s
  | .dst f => Sys2Proof.Machine.execDst f s
  | .code f => Sys2Proof.Machine.execCode f s
  | .value f => Sys2Proof.Machine.execValue f s

end Sys2Proof.Machine
end

