-- ==== Sys2Proof/Machine/Step.lean ====
section
/-! DEFINITION. One step of the machine (spec/40_step_common.md R100, R101, R114; spec/70_reset_and_hazards.md
R256), and the placing of an instruction word for the next step. -/

namespace Sys2Proof.Machine

/-- One step: the instruction at `ip` from FETCH to ADVANCE (R100), or the rest of an instruction that waits at
MutexWait (R168), or the halt or fault of a FETCH (R101). A machine that has left RUNNING takes no action, and the
other agents go on (R256). -/
def step (s : State) : Host.Outcome State Fault Refusal :=
  match s.status with
  | .running =>
    match s.phase with
    | .fetch =>
      match s.fetchAtIp with
      | .halt => .next { s with status := .halted }.interfere
      | .outOfRange => .next (s.takeFault .codeRange).interfere
      | .opcode b => exec (decodeByte b) s
    | _ => exec (decodeByte s.op) s
  | .halted => .next s.interfere
  | .faulted => .next s.interfere

/-- The state with the instruction whose bits are `w` stored where the next FETCH reads it. -/
def State.withFetchWord (s : State) (nbits w : Nat) : State :=
  (s.placeOpcode (codeElement (w % 2 ^ nbits))).placeData

end Sys2Proof.Machine
end

