-- ==== Sys2Proof/Machine/Actions.lean ====
section
/-! DEFINITION. The same machine one atomic action at a time (spec/00_scope.md R17, spec/20_memory.md R61 to R63):
the whole system moves by one action of one agent. `step` is made of the same phases; this file is the reading to
hold it against. -/

namespace Sys2Proof.Machine

/-- The selector action of each instruction (R113). -/
def selectorAction : Selector → State → Except Fault State
  | .src => srcAction
  | .dst => dstAction
  | .code => codeAction
  | .value => valueAction

/-- FETCH as one action (R101). -/
def State.fetchAct (s : State) : State :=
  match s.fetchAtIp with
  | .halt => { s with status := .halted }
  | .outOfRange => s.takeFault .codeRange
  | .opcode b => s.latch b (decodeByte b).flags

/-- The machine's next atomic action (R100); none unless it is running (R25). The flags and the selector are those of
the latched opcode (R102). -/
def State.machineAct (s : State) : State :=
  match s.status, s.phase with
  | .running, .fetch => s.fetchAct
  | .running, .mwait => s.orFault (s.mwait (decodeByte s.op).flags)
  | .running, .eload => s.orFault s.eload
  | .running, .loadSrc => s.orFault s.loadSrc
  | .running, .loadDst => s.orFault s.loadDst
  | .running, .exec => s.orFault (s.execute (decodeByte s.op).flags (selectorAction (decodeByte s.op).selector))
  | .running, .xhandoff => s.orFault s.xhandoff
  | .halted, _ => s
  | .faulted, _ => s

/-- One turn of the system (R17): the machine's, or one action of another agent. -/
inductive Turn where
  | machine
  | other (a : EnvAction)
  deriving DecidableEq, Repr

/-- The system's move for one turn. -/
def State.turn (s : State) : Turn → State
  | .machine => s.machineAct
  | .other a => s.envAct a

/-- A run of the system: any list of turns is an execution order (R61, R63). -/
def State.turns (s : State) (ts : List Turn) : State := ts.foldl State.turn s

/-- The turn list of `n` actions of the machine, each followed by its entry of `env`. -/
def turnsOf : Nat → List (List EnvAction) → List Turn
  | 0, _ => []
  | n + 1, env => .machine :: (env.headD []).map Turn.other ++ turnsOf n env.tail

end Sys2Proof.Machine
end

