-- ==== Sys2Proof/Safety.lean ====
section
/-! DEFINITION. The terms the statements use: a good state (the invariant every step keeps), what a run never
changes, what belongs to the machine alone, and what an instruction's operands are and need. -/

namespace Sys2Proof.Machine

/-! ## The invariant -/

/-- Memory is canonical and lists no byte outside the data array (R50, R52; log entry 5). -/
def State.memoryOk (s : State) : Bool := s.data.wf && s.data.all fun c => decide (c.1 < 8 * s.dataLen)

/-- R32: `excl` = 1 with `readers` > 0 never arises. -/
def State.cellsOk (s : State) : Bool := s.cells.all fun c => c.claim.isNone || c.readers == 0

/-- R26: `cause` is `BF_NONE` exactly when `status` is not FAULTED. -/
def State.causeOk (s : State) : Bool := (s.cause == .bfNone) == (s.status != .faulted)

/-- R25: a HALTED machine has `ip` = CODE_LEN and stopped at FETCH. -/
def State.haltOk (s : State) : Bool :=
  s.status != .halted || (s.phase == .fetch && decide (s.ip.toInt = s.code.length))

/-- R252 (a), (c), (d): the sizes and the lock table a launch may have. -/
def State.tableOk (s : State) : Bool :=
  decide (s.code.length < 2 ^ 63) && decide (s.dataLen < 2 ^ 63)
    && decide (s.dataLen ≤ s.lt.length * s.params.blockWords) && decide (1 ≤ s.cells.length)
    && s.lt.all fun e => e.any fun l => decide (l < s.cells.length)

/-- R252 (f), (g): the writers' configurations a launch may have. -/
def State.writersOk (s : State) : Bool :=
  (s.writers.map Writer.cfg).all (WriterConfig.ok s.cells.length s.dataLen)
    && controlRegionsApart (s.writers.map Writer.cfg)

/-- Where a writer can be in its protocol (R192 to R199): the pair it scans is a whole pair, the block and the Word it
copies belong to the latched range, and the Word it zeroes belongs to its control region. -/
def Writer.posOk (w : Writer) (blockWords : Nat) : Bool :=
  match w.pos with
  | .handoff => true
  | .testClear => true
  | .readOff => decide (2 * w.pair + 2 < w.cfg.ctrlLen)
  | .readLen => decide (2 * w.pair + 2 < w.cfg.ctrlLen)
  | .acquire b => w.rangeOk && w.len != 0 && decide (w.first / blockWords ≤ b ∧ b ≤ w.last / blockWords)
  | .copy b a =>
      w.rangeOk && w.len != 0 && decide (w.first / blockWords ≤ b ∧ b ≤ w.last / blockWords)
        && decide (max w.first (b * blockWords) ≤ a ∧ a ≤ min w.last ((b + 1) * blockWords - 1))
  | .release b => w.rangeOk && w.len != 0 && decide (w.first / blockWords ≤ b ∧ b ≤ w.last / blockWords)
  | .flush => true
  | .zero i => decide (i < w.cfg.ctrlLen)

/-- Every writer is where its protocol can put it. -/
def State.positionsOk (s : State) : Bool := s.writers.all fun w => w.posOk s.params.blockWords

/-- R21, R102: inside a step `ip` still names the latched opcode, and the phase is one its flags and selector ask for;
past LOADDST `dp` names a Word (R151). -/
def State.stepOk (s : State) : Bool :=
  match s.phase with
  | .fetch => true
  | .mwait => s.fetchAtIp == .opcode s.op && (decodeByte s.op).flags.mutexWait
  | .eload => s.fetchAtIp == .opcode s.op && (decodeByte s.op).flags.extend
  | .loadSrc => s.fetchAtIp == .opcode s.op
  | .loadDst => s.fetchAtIp == .opcode s.op
  | .exec => s.fetchAtIp == .opcode s.op && (index? s.dataLen s.dp).isSome
  | .xhandoff => s.fetchAtIp == .opcode s.op && (decodeByte s.op).selector == .value && s.atBlockStart s.dp

/-- A good state: what every well-formed launch gives and every step keeps. -/
def State.good (s : State) : Bool :=
  s.memoryOk && s.cellsOk && s.causeOk && s.haltOk && s.tableOk && s.writersOk && s.positionsOk
    && s.stepOk

/-! ## What a run never changes, and what only the machine changes -/

/-- What is fixed from reset to the end of the run (R29, R31, R69, R191). -/
def State.sameLaunch (s t : State) : Prop :=
  t.code = s.code ∧ t.dataLen = s.dataLen ∧ t.lt = s.lt ∧ t.params = s.params ∧ t.cells.length = s.cells.length
    ∧ t.writers.map Writer.cfg = s.writers.map Writer.cfg

/-- What is private to the machine (R234). -/
def State.samePrivate (s t : State) : Prop :=
  t.ip = s.ip ∧ t.sp = s.sp ∧ t.dp = s.dp ∧ t.status = s.status ∧ t.cause = s.cause ∧ t.op = s.op
    ∧ t.mag = s.mag ∧ t.src = s.src ∧ t.dst = s.dst ∧ t.phase = s.phase

/-! ## The operands of an instruction -/

/-- The machine is running and about to fetch. -/
def State.ready (s : State) : Prop := s.status = .running ∧ s.phase = .fetch

/-- No other agent acts before this machine's next FETCH (a choice of interleaving that R63 allows). -/
def State.alone (s : State) : Prop := s.env = []

/-- A cursor names a data Word (R52). -/
abbrev State.inData (s : State) (c : Word) : Prop := 0 ≤ c.toInt ∧ c.toInt < s.dataLen

/-- The data Word a cursor names. -/
def State.wordOf (s : State) (c : Word) : Word := s.data.readWord c.toNat

/-- `sp` at the operand load: one lower with Extend (R105, R106). -/
def State.operandSp (s : State) (f : Flags) : Word := if f.extend then s.sp - 1 else s.sp

/-- The magnitude before Invert (R105). -/
def State.loadedMag (s : State) (f : Flags) : Word := if f.extend then s.wordOf s.sp else 1

/-- Every load of the instruction is in range (R105 to R107). -/
def State.loadsOk (s : State) (f : Flags) : Prop :=
  (f.extend = true → s.inData s.sp) ∧ s.inData (s.operandSp f) ∧ s.inData s.dp

/-- The comparison of the instruction's operands holds (R108). -/
def State.operandsEligible (s : State) (f : Flags) : Bool :=
  eligible f (s.wordOf (s.operandSp f)) (s.wordOf s.dp)

/-- The lock cells after a MWAIT that lets the step go on (R104): unchanged when M = 0, and `none` when there is no
lock, when the release faults, or when the attempt must be repeated. -/
def State.cellsPastMwait (s : State) (f : Flags) : Option (List LockCell) :=
  if f.mutexWait then
    match s.machineHandoff s.dp with
    | .ok (got, t) => if s.params.mwaitRetry && !got then none else some t.cells
    | .error _ => none
  else some s.cells

/-- MWAIT lets the step go on whatever the other agents have done (R104, R162): M = 0, or there is a lock and both
parameters have their defaults. -/
def State.mwaitSure (s : State) (f : Flags) : Prop :=
  f.mutexWait = true →
    s.params.mwaitRetry = false ∧ s.params.relFree = .noop ∧
      ∃ l, s.lockFor s.dp = some l ∧ l < s.cells.length

/-- The latches and the magnitude at the end of an undisturbed step, with the lock cells past MWAIT. -/
def State.latched (s : State) (i : Instr) (cells : List LockCell) : State :=
  { s with
    op := encodeByte i
    mag := if s.operandsEligible i.flags then appliedMag i.flags (s.loadedMag i.flags) else s.loadedMag i.flags
    src := s.wordOf (s.operandSp i.flags)
    dst := s.wordOf s.dp
    sp := s.operandSp i.flags
    cells := cells }

/-- What the selector action applies: the magnitude after Invert, or nothing when the comparison fails (R110, R111). -/
def State.appliedDelta (s : State) (f : Flags) : Word :=
  if s.operandsEligible f then appliedMag f (s.loadedMag f) else 0

/-- The same delta read off the latches at the end of a step, whatever the other agents did meanwhile (R27). -/
def State.latchedDelta (s : State) (f : Flags) : Word := if eligible f s.src s.dst then s.mag else 0

/-- The state of an eligible undisturbed VALUE after its store and its cursor moves (R150). -/
def State.stored (s : State) (f : Flags) (cells : List LockCell) : State :=
  { s.latched (.value f) cells with
    data := s.data.writeWord s.dp.toNat (s.wordOf (s.operandSp f) + s.appliedDelta f)
    sp := s.operandSp f - 1
    dp := s.dp + 1 }

/-- The state of an undisturbed step that faults at ELOAD or LOADSRC or LOADDST, before the fault is taken (R228): the
lock cells past MWAIT, the latches and the Extend decrement of the phases before it. -/
def State.beforeLoad (s : State) (i : Instr) (cells : List LockCell) : Phase → State
  | .eload => { s with op := encodeByte i, mag := 1, cells := cells, phase := .eload }
  | .loadSrc =>
    { s with
      op := encodeByte i, mag := s.loadedMag i.flags, sp := s.operandSp i.flags, cells := cells, phase := .loadSrc }
  | .loadDst =>
    { s with
      op := encodeByte i, mag := s.loadedMag i.flags, sp := s.operandSp i.flags
      src := s.wordOf (s.operandSp i.flags), cells := cells, phase := .loadDst }
  | _ => s

/-- The cause R227 gives a step by the order of its phases, where no lock operation faults or waits. -/
def State.firstCause (s : State) (f : Flags) : Cause :=
  if f.mutexWait = true ∧ s.lockFor s.dp = none then .bfLock
  else if (f.extend = true ∧ ¬s.inData s.sp) ∨ ¬s.inData (s.operandSp f) then .bfSp
  else if ¬s.inData s.dp then .bfDp
  else .bfNone

/-- The state without its interleaving input. -/
def State.noEnv (s : State) : State := { s with env := [] }

/-- Writer `k` takes `n` actions in a row, its sink accepting every flush. -/
def State.writerRuns (s : State) (k : AgentId) : Nat → State
  | 0 => s
  | n + 1 => (s.writerAct k .accepted).writerRuns k n

/-- The bytes the sink receives for `n` Words from data index `a` on (R197). -/
def State.viewFrom (s : State) (a n : Nat) : List Byte :=
  (((List.range n).map fun d => viewBytes s.params.byteOrder (s.data.readWord (a + d)))).flatten

/-- Every block of the data indices `first` to `last` has a lock whose cell is not exclusively held (R163). -/
def State.blocksOpen (s : State) (first last : Nat) : Prop :=
  ∀ b, s.blockOf first ≤ b → b ≤ s.blockOf last →
    ∃ l c, s.lockOfBlock b = some l ∧ s.cells[l]? = some c ∧ c.claim = none

/-- One instruction executed `n` times in a row (R154). -/
def execTimes (i : Instr) : Nat → State → Host.Outcome State Fault Refusal
  | 0, s => .next s
  | n + 1, s =>
    match exec i s with
    | .next t => execTimes i n t
    | .fault e => .fault e
    | .refused r => .refused r

/-- The data array after `n` times `VALUE|Extend` from source index `a` and destination index `d`: each pops two Words
and stores their sum, and sees the stores before it (R154). -/
def Memory.popAdd : Memory → Nat → Nat → Nat → Memory
  | m, _, _, 0 => m
  | m, a, d, n + 1 => Memory.popAdd (m.writeWord d (m.readWord (a - 1) + m.readWord a)) (a - 2) (d + 1) n

end Sys2Proof.Machine
end

