-- ==== Sys2Proof/Certificates/Slice0/Obligations.lean ====
section
/-! DEFINITION. The statements for the provers. -/

open Sys2Proof Sys2Proof.Machine

/-! ## Encoding and decoding -/

/-- Decoding an encoded instruction gives it back and leaves the rest, and every byte is the encoding of the
instruction it decodes to (spec/30_encoding.md sections 2 to 5). -/
def Obligations.DecodeEncodeRoundTrip : Prop :=
  (∀ (i : Instr) (rest : List Byte), decode (encode i ++ rest) = .ok (i, rest)) ∧
  ∀ (b : Byte) (rest : List Byte), ∃ i, decode (b :: rest) = .ok (i, rest) ∧ encode i = [b]

/-- R83, R89: the selector is bits 1:0 in the order SRC, DST, CODE, VALUE, and each flag is its own bit, of the code
element that FETCH reads at `ip`. -/
def Obligations.DecodeReadsBitFields : Prop :=
  (∀ b : Byte,
    (decodeByte b).selector =
        (match (b.extractLsb' 0 2).toNat with | 0 => .src | 1 => .dst | 2 => .code | _ => .value) ∧
    (decodeByte b).flags = ⟨b.getLsbD 2, b.getLsbD 3, b.getLsbD 4, b.getLsbD 5, b.getLsbD 6, b.getLsbD 7⟩) ∧
  ∀ (s : State) (n : Nat), s.ready → s.ip.toInt = n → n < s.code.length →
    ∃ b, s.code[n]? = some b ∧ s.fetchAtIp = .opcode b ∧ step s = exec (decodeByte b) s

/-- R86: the four rows of the opcode table, each with its mask 0x03 and its match, and exactly one row for a byte. -/
def Obligations.OpcodeRowsPartition : Prop :=
  ∀ b : Byte,
    ((decodeByte b).selector = .src ↔ b &&& 0x03 = 0x00) ∧ ((decodeByte b).selector = .dst ↔ b &&& 0x03 = 0x01) ∧
    ((decodeByte b).selector = .code ↔ b &&& 0x03 = 0x02) ∧ ((decodeByte b).selector = .value ↔ b &&& 0x03 = 0x03) ∧
    ∃ c, matchesSelector b c = true ∧ ∀ d, matchesSelector b d = true → d = c

/-- R93 and the examples of R88, R91 and R132: bytes written out from the encoding tables. -/
def Obligations.SpecWordsDecode : Prop :=
  decodeByte 0x0B = .value { Flags.none with extend := true } ∧
  decodeByte 0x0F = .value { Flags.none with extend := true, invert := true } ∧
  decodeByte 0x05 = .dst { Flags.none with invert := true } ∧
  decodeByte 0x03 = .value Flags.none ∧
  decodeByte 0x07 = .value { Flags.none with invert := true } ∧
  decodeByte 0x8A = .code { Flags.none with extend := true, greater := true } ∧
  decodeByte 0xA0 = .src { Flags.none with lower := true, greater := true } ∧
  decodeByte 0x25 = .dst { Flags.none with invert := true, lower := true } ∧
  decodeByte 0x52 = .code { Flags.none with mutexWait := true, equal := true }

/-! ## The step -/

/-- A running machine about to fetch runs the well-formed instruction that the code elements from `ip` on decode to,
and one in the middle of a step goes on with the latched one (spec/40_step_common.md sections 1 and 2). `step` adds
nothing to `exec`: the advance of `ip` is part of the instruction's own phases. That an instruction retrying its MWAIT takes
several `step`s is the model's choice (log entry 7). -/
def Obligations.StepRunsDecodedInstruction : Prop :=
  (∀ (s : State) (i : Instr) (rest : List Byte), s.ready → 0 ≤ s.ip.toInt →
    decode (s.code.drop s.ip.toNat) = .ok (i, rest) → i.wf = true → step s = exec i s) ∧
  ∀ s : State, s.status = .running → s.phase ≠ .fetch → step s = exec (decodeByte s.op) s

/-- R101: FETCH halts at `ip` = CODE_LEN, faults with `BF_CODE` at an `ip` outside [0, CODE_LEN], and otherwise latches
the opcode and the magnitude 1; `ip` stays. A machine that is not RUNNING takes no action. -/
def Obligations.FetchHaltsFaultsOrLatches : Prop :=
  (∀ s : State, s.status ≠ .running → s.machineAct = s) ∧
  ∀ s : State, s.ready →
    (s.ip.toInt = s.code.length → s.machineAct = { s with status := .halted }) ∧
    (s.ip.toInt < 0 ∨ (s.code.length : Int) < s.ip.toInt →
      s.machineAct = { s with status := .faulted, cause := .bfCode }) ∧
    ∀ n : Nat, s.ip.toInt = n → n < s.code.length →
      ∃ b, s.code[n]? = some b ∧
        s.machineAct = { s with op := b, mag := 1, phase := phaseAfterFetch (decodeByte b).flags }

/-- MWAIT as one action, for every lock, cell and parameter value, and when it occurs (spec/40_step_common.md section
2). -/
def Obligations.MutexWaitPhaseAction : Prop :=
  (∀ f, phaseAfterFetch f = .mwait ↔ f.mutexWait = true) ∧
  ∀ s : State, s.status = .running → s.phase = .mwait →
    (s.lockFor s.dp = none → s.machineAct = { s with status := .faulted, cause := .bfLock }) ∧
    ∀ l c, s.lockFor s.dp = some l → s.cells[l]? = some c →
      (∀ got c', c.handoffWait s.params.relFree machineId = .ok (got, c') →
        s.machineAct =
          if s.params.mwaitRetry = true ∧ got = false then { s with cells := s.cells.set l c' }
          else { s with cells := s.cells.set l c', phase := phaseAfterMwait (decodeByte s.op).flags }) ∧
      (∀ e, c.handoffWait s.params.relFree machineId = .error e →
        s.machineAct = { s with status := .faulted, cause := .lfRelease })

/-- R105, R106, R107: the three loads as actions, each with its bounds fault, and when MWAIT and ELOAD occur. -/
def Obligations.OperandLoadPhaseActions : Prop :=
  (∀ f, phaseAfterFetch f = if f.mutexWait then .mwait else if f.extend then .eload else .loadSrc) ∧
  (∀ f, phaseAfterMwait f = if f.extend then .eload else .loadSrc) ∧
  ∀ s : State, s.status = .running →
    (s.phase = .eload →
      (s.inData s.sp → s.machineAct = { s with mag := s.wordOf s.sp, sp := s.sp - 1, phase := .loadSrc }) ∧
      (¬s.inData s.sp → s.machineAct = { s with status := .faulted, cause := .bfSp })) ∧
    (s.phase = .loadSrc →
      (s.inData s.sp → s.machineAct = { s with src := s.wordOf s.sp, phase := .loadDst }) ∧
      (¬s.inData s.sp → s.machineAct = { s with status := .faulted, cause := .bfSp })) ∧
    (s.phase = .loadDst →
      (s.inData s.dp → s.machineAct = { s with dst := s.wordOf s.dp, phase := .exec }) ∧
      (¬s.inData s.dp → s.machineAct = { s with status := .faulted, cause := .bfDp }))

/-- R110, R111, R113: EXEC as one action. An ineligible instruction only advances; an eligible one negates the
magnitude if Invert is set, takes its selector's action and advances, or goes to XHANDOFF when VALUE entered a new block. -/
def Obligations.ExecPhaseActions : Prop :=
  ∀ s : State, s.status = .running → s.phase = .exec →
    let i := decodeByte s.op
    let m := if i.flags.invert then -s.mag else s.mag
    (eligible i.flags s.src s.dst = false → s.machineAct = { s with ip := s.ip + 1, phase := .fetch }) ∧
    (eligible i.flags s.src s.dst = true →
      (i.selector = .src → s.machineAct = { s with mag := m, sp := s.sp + m, ip := s.ip + 1, phase := .fetch }) ∧
      (i.selector = .dst → s.machineAct = { s with mag := m, dp := s.dp + m, ip := s.ip + 1, phase := .fetch }) ∧
      (i.selector = .code → s.machineAct = { s with mag := m, ip := s.ip + m + 1, phase := .fetch }) ∧
      (i.selector = .value → s.inData s.dp →
        let t := { s with
          mag := m
          data := s.data.writeWord s.dp.toNat (s.src + m)
          sp := s.sp - 1
          dp := s.dp + 1 }
        s.machineAct =
          if (s.dp + 1).toNat % s.params.blockWords = 0 then { t with phase := .xhandoff }
          else { t with ip := s.ip + 1, phase := .fetch }))

/-- The model's choice, no rule of the spec: `step` and `exec` answer a next state in every state. That a bounds fault is
a next state and that no outcome is ever a fault or a refusal is log entry 8 (DEDUCED from spec/60_exceptions.md
sections 1 and 4); that a HALTED or FAULTED machine, which takes no step in the spec, is answered with a next state, the
other agents' turn, is log entry 7 (DESIGN CHOICE). -/
def Obligations.StepAlwaysAnswersNext : Prop :=
  (∀ s, ∃ t, step s = .next t) ∧ ∀ i s, ∃ t, exec i s = .next t

/-- R25: only a running machine leaves RUNNING; it halts exactly when a step begins with `ip` = CODE_LEN, and a step
that ends FAULTED has recorded a cause; HALTED and FAULTED are never left. -/
def Obligations.StatusTransitions : Prop :=
  ∀ s t : State, step s = .next t →
    (s.status ≠ .running → t.status = s.status ∧ t.cause = s.cause) ∧
    (s.status = .running →
      (t.status = .halted ↔ s.phase = .fetch ∧ s.ip.toInt = s.code.length) ∧
      (t.status = .faulted → t.cause ≠ .bfNone) ∧
      (t.status ≠ .faulted → t.cause = s.cause))

/-- A machine that has left RUNNING keeps all its private state for any number of steps, whatever the other agents do,
and its steps are the other agents' actions alone (spec/70_reset_and_hazards.md section 2). That a stopped machine has
steps at all, each the other agents' turn, is the model's choice (log entry 7). -/
def Obligations.StoppedMachineIsFrozen : Prop :=
  ∀ (n : Nat) (s : State), s.status ≠ .running →
    ∃ t, core.run n s = .next t ∧ s.samePrivate t ∧ t.env = s.env.drop n ∧
      t.noEnv = s.noEnv.envActs (s.env.take n).flatten

/-! ## The four instructions -/

/-- SRC, for every combination of flags (spec/41_src_dst.md): where its loads are in range and MWAIT lets it go on, its
whole next state. `sp` moves by the signed magnitude if the comparison holds; `dp`, memory and the rest stay. -/
def Obligations.SrcCompletes : Prop :=
  ∀ (f : Flags) (s : State) (cs : List LockCell), s.ready → s.alone → s.cellsPastMwait f = some cs → s.loadsOk f →
    exec (.src f) s =
      .next { s.latched (.src f) cs with sp := s.operandSp f + s.appliedDelta f, ip := s.ip + 1 }

/-- DST, for every combination of flags (spec/41_src_dst.md): its whole next state. -/
def Obligations.DstCompletes : Prop :=
  ∀ (f : Flags) (s : State) (cs : List LockCell), s.ready → s.alone → s.cellsPastMwait f = some cs → s.loadsOk f →
    exec (.dst f) s = .next { s.latched (.dst f) cs with dp := s.dp + s.appliedDelta f, ip := s.ip + 1 }

/-- CODE, for every combination of flags (spec/42_code.md): its whole next state; an eligible one moves `ip` by the
magnitude and by 1 besides, and checks no target. -/
def Obligations.CodeCompletes : Prop :=
  ∀ (f : Flags) (s : State) (cs : List LockCell), s.ready → s.alone → s.cellsPastMwait f = some cs → s.loadsOk f →
    exec (.code f) s = .next { s.latched (.code f) cs with ip := s.ip + s.appliedDelta f + 1 }

/-- VALUE, for every combination of flags (spec/43_value.md): its whole next state. An eligible one stores, moves both
cursors, and performs the cross-block handoff exactly when the new `dp` begins a block. -/
def Obligations.ValueCompletes : Prop :=
  ∀ (f : Flags) (s : State) (cs : List LockCell), s.ready → s.alone → s.cellsPastMwait f = some cs → s.loadsOk f →
    exec (.value f) s =
      .next
        (if s.operandsEligible f = false then (s.latched (.value f) cs).advance
        else if s.atBlockStart (s.dp + 1) then (s.stored f cs).crossBlockHandoff.advance
        else (s.stored f cs).advance)

/-- Whatever the other agents do between its phases, an instruction whose loads are in range and whose MWAIT cannot
stop it completes, and its cursors are those the latched Words give (spec/20_memory.md section 7, spec/10_state.md
section 4). -/
def Obligations.InstructionCompletesUnderInterference : Prop :=
  ∀ (i : Instr) (s : State), s.ready → s.loadsOk i.flags → s.mwaitSure i.flags →
    ∃ t, exec i s = .next t ∧ t.status = .running ∧ t.phase = .fetch ∧ t.cause = s.cause ∧ t.op = encodeByte i ∧
      t.ip = s.ip + (if i.selector = .code then t.latchedDelta i.flags else 0) + 1 ∧
      t.sp = s.operandSp i.flags +
        (match i.selector with
          | .src => t.latchedDelta i.flags
          | .value => if eligible i.flags t.src t.dst then -1 else 0
          | _ => 0) ∧
      t.dp = s.dp +
        (match i.selector with
          | .dst => t.latchedDelta i.flags
          | .value => if eligible i.flags t.src t.dst then 1 else 0
          | _ => 0)

/-! ## MutexWait -/

/-- The lock operation of MWAIT is kept whatever happens later in the step, be it a fault or a guard that fails; only
the cross-block handoff of an eligible VALUE may change a cell after it (spec/40_step_common.md section 2). With
`MWAIT_RETRY` = 1 an attempt that does not obtain the claim ends `exec` at MWAIT, with the cells as that attempt left them;
that each attempt ends a step is the model's choice (log entry 7). -/
def Obligations.MutexWaitKeepsToggle : Prop :=
  ∀ (i : Instr) (s : State) (l : LockId) (c c' : LockCell) (got : Bool), s.ready → s.alone →
    i.flags.mutexWait = true → s.lockFor s.dp = some l → s.cells[l]? = some c →
    c.handoffWait s.params.relFree machineId = .ok (got, c') →
    ∃ t, exec i s = .next t ∧
      (t.cells = s.cells.set l c' ∨
        (i.selector = .value ∧ s.loadsOk i.flags ∧ s.operandsEligible i.flags = true ∧
          s.atBlockStart (s.dp + 1) = true ∧
          t.cells = ({ s.setCell l c' with dp := s.dp + 1 }).crossBlockHandoff.cells)) ∧
      (¬(s.params.mwaitRetry = true ∧ got = false) → t.phase ≠ .mwait) ∧
      (s.params.mwaitRetry = true → got = false →
        t.status = .running ∧ t.phase = .mwait ∧ t.ip = s.ip ∧ t.cells = s.cells.set l c')

/-- Where MWAIT traps: `BF_LOCK` before any lock cell or data Word is touched when `dp`'s block has no lock, and
`LF_RELEASE` on a shared cell under `REL_FREE_POLICY` = FAULT (spec/60_exceptions.md section 1). -/
def Obligations.MutexWaitFaultsAreTaken : Prop :=
  ∀ (i : Instr) (s : State), s.ready → s.alone → i.flags.mutexWait = true →
    (s.lockFor s.dp = none →
      exec i s = .next { s with
        op := encodeByte i
        mag := 1
        phase := .mwait
        status := .faulted
        cause := .bfLock }) ∧
    ∀ l c, s.lockFor s.dp = some l → s.cells[l]? = some c → c.claim = none → c.readers ≠ 0 →
      s.params.relFree = .fault →
      exec i s = .next { s with
        op := encodeByte i
        mag := 1
        phase := .mwait
        status := .faulted
        cause := .lfRelease }

/-- With `MWAIT_RETRY` = 1 (spec/44_lock_handoff.md section 4): on a claimed cell the first attempt waits and the second
obtains the claim; on a shared cell the machine waits as long as nobody acts. That each attempt ends a `step` is the model's choice (log
entry 7). -/
def Obligations.RetriedMutexWaitWaits : Prop :=
  ∀ (i : Instr) (s : State) (l : LockId) (c : LockCell), s.ready → s.alone → i.flags.mutexWait = true →
    s.params.mwaitRetry = true → s.lockFor s.dp = some l → s.cells[l]? = some c →
    (∀ b, c.claim = some b → c.readers = 0 →
      ∃ t u, exec i s = .next t ∧ t.status = .running ∧ t.phase = .mwait ∧ t.ip = s.ip ∧
        t.cells = s.cells.set l c.cleared ∧ step t = .next u ∧ u.phase ≠ .mwait ∧
        ∃ d, u.cells[l]? = some d ∧ d.claim = some machineId) ∧
    (c.claim = none → c.readers ≠ 0 → s.params.relFree = .noop →
      ∃ t, exec i s = .next t ∧ t.status = .running ∧ t.phase = .mwait ∧ t.ip = s.ip ∧ t.cells = s.cells ∧
        step t = .next t)

/-! ## Faults -/

/-- Where a load traps: the whole state after a fault at ELOAD, LOADSRC or LOADDST (spec/60_exceptions.md sections 1 and
4): the phases before it keep their effects and nothing else changes. -/
def Obligations.LoadFaultsFreezeStep : Prop :=
  ∀ (i : Instr) (s : State) (cs : List LockCell), s.ready → s.alone → s.cellsPastMwait i.flags = some cs →
    (i.flags.extend = true → ¬s.inData s.sp → exec i s = .next ((s.beforeLoad i cs .eload).takeFault .spRange)) ∧
    ((i.flags.extend = true → s.inData s.sp) → ¬s.inData (s.operandSp i.flags) →
      exec i s = .next ((s.beforeLoad i cs .loadSrc).takeFault .spRange)) ∧
    ((i.flags.extend = true → s.inData s.sp) → s.inData (s.operandSp i.flags) → ¬s.inData s.dp →
      exec i s = .next ((s.beforeLoad i cs .loadDst).takeFault .dpRange))

/-- The fault a step reports is the first in the order of its phases, whatever the other agents do
(spec/60_exceptions.md section 3), with the default parameters. -/
def Obligations.FaultPriorityIsPhaseOrder : Prop :=
  ∀ (s : State) (b : Byte), s.good = true → s.ready → s.params.mwaitRetry = false → s.params.relFree = .noop →
    (s.fetchAtIp = .outOfRange → ∃ t, step s = .next t ∧ t.status = .faulted ∧ t.cause = .bfCode) ∧
    (s.fetchAtIp = .opcode b →
      ∃ t, step s = .next t ∧ t.cause = s.firstCause (decodeByte b).flags ∧
        t.status = if s.firstCause (decodeByte b).flags = .bfNone then .running else .faulted)

/-- A faulting instruction keeps `ip` at its own index and `dp` as it was, lowers `sp` only by an Extend load that came
before the fault, and stores nothing; it changes a lock cell only by an MWAIT that came before the fault
(spec/60_exceptions.md section 4). -/
def Obligations.FaultingStepIsPrecise : Prop :=
  ∀ (i : Instr) (s t : State), s.ready → exec i s = .next t → t.status = .faulted →
    t.ip = s.ip ∧ t.dp = s.dp ∧ t.op = encodeByte i ∧
    t.sp = (if t.phase = .loadSrc ∨ t.phase = .loadDst then s.operandSp i.flags else s.sp) ∧
    (s.alone →
      t.data = s.data ∧ t.lt = s.lt ∧ t.writers = s.writers ∧
        (i.flags.mutexWait = false ∨ t.phase = .mwait → t.cells = s.cells))

/-! ## Flags and eligibility -/

/-- R108: the conjunction of the signed comparisons of the conditional flags that are set. -/
def Obligations.EligibleIsSignedConjunction : Prop :=
  ∀ (f : Flags) (a b : Word),
    eligible f a b = true ↔
      (f.lower = false ∨ a.toInt < b.toInt) ∧ (f.equal = false ∨ a = b) ∧ (f.greater = false ∨ b.toInt < a.toInt)

/-- The eight combinations of the conditional flags (the spec's own inference, spec/40_step_common.md section 5), and no
test for less or equal, greater or equal, or not equal in one instruction. -/
def Obligations.ConditionalFlagCombinations : Prop :=
  ∀ f : Flags,
    (f.lower = false → f.equal = false → f.greater = false → ∀ a b, eligible f a b = true) ∧
    (f.lower = true → f.equal = false → f.greater = false → ∀ a b, eligible f a b = true ↔ a.toInt < b.toInt) ∧
    (f.lower = false → f.equal = true → f.greater = false → ∀ a b, eligible f a b = true ↔ a = b) ∧
    (f.lower = false → f.equal = false → f.greater = true → ∀ a b, eligible f a b = true ↔ b.toInt < a.toInt) ∧
    ((f.lower = true ∧ f.equal = true) ∨ (f.lower = true ∧ f.greater = true) ∨ (f.equal = true ∧ f.greater = true) →
      ∀ a b, eligible f a b = false) ∧
    ¬(∀ a b : Word, eligible f a b = true ↔ a.toInt ≤ b.toInt) ∧
    ¬(∀ a b : Word, eligible f a b = true ↔ b.toInt ≤ a.toInt) ∧ ¬(∀ a b : Word, eligible f a b = true ↔ a ≠ b)

/-- R115: an instruction whose loads succeed and whose guard fails on the Words it loaded leaves `sp` and `dp` as they
were, but for Extend's decrement, whatever the other agents do. -/
def Obligations.IneligibleKeepsOnlyExtendDecrement : Prop :=
  ∀ (i : Instr) (s : State), s.ready →
    (s.loadsOk i.flags → s.mwaitSure i.flags →
      ∃ t, exec i s = .next t ∧ t.status = .running ∧ t.phase = .fetch) ∧
    ∀ t, exec i s = .next t → t.status = .running → t.phase = .fetch → eligible i.flags t.src t.dst = false →
      t.ip = s.ip + 1 ∧ t.sp = (if i.flags.extend then s.sp - 1 else s.sp) ∧ t.dp = s.dp ∧
        (s.alone → ∀ a, t.data.readByte a = s.data.readByte a)

/-- The inversion law as the spec corrects it (spec/40_step_common.md section 9): flipping Invert alone negates the
magnitude that an eligible instruction applies and the delta of SRC, DST and CODE, and no fixed delta. -/
def Obligations.InvertNegatesCursorDelta : Prop :=
  ∀ (i j : Instr) (s : State) (cs : List LockCell), i.selector = j.selector →
    j.flags = { i.flags with invert := !i.flags.invert } → s.ready → s.alone →
    s.cellsPastMwait i.flags = some cs → s.loadsOk i.flags →
    ∃ t u, exec i s = .next t ∧ exec j s = .next u ∧
      u.mag = (if s.operandsEligible i.flags then -t.mag else t.mag) ∧
      (i.selector = .src → u.sp - s.operandSp i.flags = -(t.sp - s.operandSp i.flags) ∧ u.dp = t.dp ∧ u.ip = t.ip) ∧
      (i.selector = .dst → u.dp - s.dp = -(t.dp - s.dp) ∧ u.sp = t.sp ∧ u.ip = t.ip) ∧
      (i.selector = .code → u.ip - (s.ip + 1) = -(t.ip - (s.ip + 1)) ∧ u.sp = t.sp ∧ u.dp = t.dp) ∧
      (i.selector = .value → u.sp = t.sp ∧ u.dp = t.dp ∧ u.ip = t.ip)

/-! ## Frames -/

/-- What SRC, DST and CODE leave alone in every case, faults included (spec/41_src_dst.md, spec/42_code.md,
spec/20_memory.md section 4): memory byte for byte, the cursor that is not theirs, every cell but that of a MutexWait's
lock, the lock table and the writers. -/
def Obligations.CursorInstructionsFrame : Prop :=
  ∀ (i : Instr) (s t : State), i.selector ≠ .value → s.ready → s.alone → exec i s = .next t →
    (∀ a, t.data.readByte a = s.data.readByte a) ∧ s.sameLaunch t ∧ t.writers = s.writers ∧ t.env = s.env ∧
    (i.selector ≠ .dst → t.dp = s.dp) ∧
    (i.selector ≠ .src → t.sp = s.sp ∨ t.sp = s.operandSp i.flags) ∧
    (i.selector ≠ .code → t.ip = s.ip ∨ t.ip = s.ip + 1) ∧
    (t.status = .faulted ∨ (t.status = s.status ∧ t.cause = s.cause)) ∧
    (∀ l, i.flags.mutexWait = true ∧ s.lockFor s.dp = some l ∨ t.cells[l]? = s.cells[l]?)

/-- VALUE's stores (spec/43_value.md, spec/20_memory.md section 4): the address is the value of `dp`, the bytes stored to
are the eight of that Word, every other byte reads as before, and the Word is the loaded one plus the magnitude; a VALUE
that faults or whose guard fails stores nothing, nor does one that ends its `step` waiting at MWAIT (the model's choice,
log entry 7). Registers and cells that are not its own stay. -/
def Obligations.ValueStoresOneWord : Prop :=
  ∀ (f : Flags) (s t : State), s.data.wf = true → s.ready → s.alone → exec (.value f) s = .next t →
    (∀ a, a < 8 * s.dp.toNat ∨ 8 * s.dp.toNat + 8 ≤ a → t.data.readByte a = s.data.readByte a) ∧
    (∀ cs, s.cellsPastMwait f = some cs → s.loadsOk f → s.operandsEligible f = true →
      t.wordOf s.dp = s.wordOf (s.operandSp f) + s.appliedDelta f) ∧
    (t.status = .faulted ∨ t.phase = .mwait ∨ s.operandsEligible f = false →
      ∀ a, t.data.readByte a = s.data.readByte a) ∧
    s.sameLaunch t ∧ t.writers = s.writers ∧ t.env = s.env ∧
    (t.status = .faulted ∨ (t.status = s.status ∧ t.cause = s.cause)) ∧
    (∀ l, (f.mutexWait = true ∧ s.lockFor s.dp = some l) ∨ s.lockFor (s.dp + 1) = some l ∨ t.cells[l]? = s.cells[l]?)

/-! ## Locks and ownership -/

/-- What the cross-block handoff does in a whole undisturbed VALUE (spec/44_lock_handoff.md section 5): another agent's
claim on the lock of the block entered is released, and in every other case no cell changes after MWAIT (which may itself
have released a claim). Here and below nothing is said of `releases`, the model's own counter (log entry 4). -/
def Obligations.ValueReleasesEnteredLock : Prop :=
  ∀ (f : Flags) (s : State) (cs : List LockCell), s.ready → s.alone → s.cellsPastMwait f = some cs → s.loadsOk f →
    (∀ l c a, s.operandsEligible f = true → (s.dp + 1).toNat % s.params.blockWords = 0 →
      s.lockFor (s.dp + 1) = some l → l ≠ ownLock → cs[l]? = some c → c.claim = some a → a ≠ machineId →
      ∃ t n, exec (.value f) s = .next t ∧ t.cells = cs.set l { c with claim := none, releases := n }) ∧
    (s.operandsEligible f = false ∨ (s.dp + 1).toNat % s.params.blockWords ≠ 0 ∨ s.lockFor (s.dp + 1) = none ∨
        s.lockFor (s.dp + 1) = some ownLock ∨
        (∃ l c, s.lockFor (s.dp + 1) = some l ∧ cs[l]? = some c ∧ (c.claim = none ∨ c.claim = some machineId)) →
      ∃ t, exec (.value f) s = .next t ∧ t.cells = cs)

/-- R169: the branches of the cross-block handoff, the same under either `REL_FREE_POLICY`, and the phase that performs
it. -/
def Obligations.CrossBlockHandoffBranches : Prop :=
  ∀ s : State,
    (s.status = .running → s.phase = .xhandoff → s.machineAct = s.crossBlockHandoff.advance) ∧
    (s.lockFor s.dp = none → s.crossBlockHandoff = s) ∧
    (s.lockFor s.dp = some ownLock → s.crossBlockHandoff = s) ∧
    ∀ l c, s.lockFor s.dp = some l → l ≠ ownLock → s.cells[l]? = some c →
      (c.claim = some machineId → s.crossBlockHandoff = s) ∧
      (c.claim = none → s.crossBlockHandoff = s) ∧
      ∀ a, c.claim = some a → a ≠ machineId →
        ∃ n, s.crossBlockHandoff = { s with cells := s.cells.set l { c with claim := none, releases := n } }

/-- R161: non-blocking exclusive acquisition. -/
def Obligations.TryExclOutcomes : Prop :=
  ∀ (c : LockCell) (a : AgentId),
    (c.claim = none ∧ c.readers = 0 → c.tryExcl a = (true, { c with claim := some a })) ∧
    (¬(c.claim = none ∧ c.readers = 0) → c.tryExcl a = (false, c))

/-- R162: the release of an exclusive claim, whoever holds it; on a cell that is not exclusively held it is a
no-operation or the issuer's fault. -/
def Obligations.RelExclOutcomes : Prop :=
  (∀ (c : LockCell) (p : RelFreePolicy),
    (∀ a, c.claim = some a → ∃ n, c.relExcl p = .ok { c with claim := none, releases := n }) ∧
    (c.claim = none → p = .noop → c.relExcl p = .ok c) ∧
    (c.claim = none → p = .fault → c.relExcl p = .error .releaseFree)) ∧
  (∀ (s : State) (a : AgentId) (l : LockId) (c : LockCell), a ≠ machineId → s.cells[l]? = some c → c.claim = none →
    s.params.relFree = .fault → s.portDo a (.relExcl l) = (.issuerFaults, s)) ∧
  ∀ (s : State) (l : LockId) (c : LockCell), s.status = .running → s.phase = .mwait → s.lockFor s.dp = some l →
    s.cells[l]? = some c → c.claim = none → c.readers ≠ 0 → s.params.relFree = .fault →
    s.machineAct = { s with status := .faulted, cause := .lfRelease }

/-- R163, R164: shared acquisition and release, each enabled only in its own case; an agent whose operation is not
enabled changes nothing, and the machine issues neither. -/
def Obligations.SharedHoldOperations : Prop :=
  (∀ c : LockCell,
    (c.claim = none → c.acqShared = some { c with readers := c.readers + 1 }) ∧
    (∀ a, c.claim = some a → c.acqShared = none) ∧
    (0 < c.readers → c.relShared = some { c with readers := c.readers - 1 }) ∧
    (c.readers = 0 → c.relShared = none)) ∧
  (∀ (s : State) (a : AgentId) (l : LockId) (c : LockCell), a ≠ machineId → s.cells[l]? = some c →
    (∀ b, c.claim = some b → s.portDo a (.acqShared l) = (.notEnabled, s)) ∧
    (c.readers = 0 → s.portDo a (.relShared l) = (.notEnabled, s))) ∧
  ∀ (s : State) (l : LockId) (c c' : LockCell), s.cells[l]? = some c → s.machineAct.cells[l]? = some c' →
    c'.readers = c.readers

/-- R165: the handoff wait by cell state, and as `TryExcl` followed by `RelExcl` when that fails. -/
def Obligations.HandoffWaitOutcomes : Prop :=
  ∀ (c : LockCell) (p : RelFreePolicy) (a : AgentId),
    (c.claim = none → c.readers = 0 → c.handoffWait p a = .ok (true, { c with claim := some a })) ∧
    (∀ b, c.claim = some b → ∃ n, c.handoffWait p a = .ok (false, { c with claim := none, releases := n })) ∧
    (c.claim = none → c.readers ≠ 0 → p = .noop → c.handoffWait p a = .ok (false, c)) ∧
    (c.claim = none → c.readers ≠ 0 → p = .fault → c.handoffWait p a = .error .releaseFree) ∧
    (∀ c', c.tryExcl a = (true, c') → c.handoffWait p a = .ok (true, c')) ∧
    (∀ c' c'', c.tryExcl a = (false, c') → c'.relExcl p = .ok c'' → c.handoffWait p a = .ok (false, c''))

/-- The toggle property, the spec's own inference (spec/44_lock_handoff.md section 7): on a cell that nobody holds in
shared mode a handoff wait inverts `excl` and records the caller, and two restore it. -/
def Obligations.HandoffWaitToggles : Prop :=
  ∀ (c : LockCell) (p : RelFreePolicy) (a : AgentId), c.readers = 0 →
    ∃ c', c.handoffWait p a = .ok (!c.excl, c') ∧ c'.excl = !c.excl ∧ c'.readers = 0 ∧
      (c.excl = false → c'.claim = some a) ∧
      ∀ (q : RelFreePolicy) (b : AgentId), ∃ c'', c'.handoffWait q b = .ok (c.excl, c'') ∧ c''.excl = c.excl

/-- R166: a negative index, a block past the table and an UNSET entry give no lock; any other index gives its block's
entry. -/
def Obligations.LockForReadsTable : Prop :=
  ∀ (s : State) (i : Word),
    (i.toInt < 0 ∨ s.lt.length ≤ i.toNat / s.params.blockWords → s.lockFor i = none) ∧
    (0 ≤ i.toInt → s.lt[i.toNat / s.params.blockWords]? = some none → s.lockFor i = none) ∧
    ∀ l, 0 ≤ i.toInt → s.lt[i.toNat / s.params.blockWords]? = some (some l) → s.lockFor i = some l

/-- R167: the machine's hold is its recorded claim; it begins only by the machine's own successful attempt at MWAIT on a
free cell, and any release ends it. The same holds of every agent's claim and that agent's own attempts. -/
def Obligations.ClaimsBeginOnlyByTheirAgent : Prop :=
  (∀ c : LockCell, c.heldByMachine = true ↔ c.excl = true ∧ c.claim = some machineId) ∧
  (∀ (c c' : LockCell) (p : RelFreePolicy), c.heldByMachine = true → c.relExcl p = .ok c' →
    c'.heldByMachine = false) ∧
  ∀ (s : State) (m : Turn) (l : LockId) (c c' : LockCell) (a : AgentId), s.cells[l]? = some c →
    (s.turn m).cells[l]? = some c' → c'.claim = some a →
    c.claim = some a ∨
    (c.claim = none ∧ c.readers = 0 ∧ c' = { c with claim := some a } ∧
      ((a = machineId ∧ m = .machine ∧ s.status = .running ∧ s.phase = .mwait ∧ s.lockFor s.dp = some l) ∨
       (a ≠ machineId ∧ ∃ r w, m = .other (.writer a r) ∧ s.writerAt a = some w ∧ w.status = .running ∧
          w.pos = .handoff ∧ w.cfg.lock = l) ∨
       (a ≠ machineId ∧ (m = .other (.port a (.tryExcl l)) ∨ m = .other (.port a (.handoffWait l))))))

/-- R172: a claim stands until a release on its cell: a handoff wait of any agent, a release at the lock port, or the
machine's cross-block handoff. -/
def Obligations.ClaimsEndOnlyByRelease : Prop :=
  ∀ (s : State) (m : Turn) (l : LockId) (c c' : LockCell) (a : AgentId), s.cells[l]? = some c →
    (s.turn m).cells[l]? = some c' → c.claim = some a →
    c'.claim = some a ∨
    ((∃ n, c' = { c with claim := none, releases := n }) ∧
      ((m = .machine ∧ s.status = .running ∧ s.phase = .mwait ∧ s.lockFor s.dp = some l) ∨
       (m = .machine ∧ s.status = .running ∧ s.phase = .xhandoff ∧ s.lockFor s.dp = some l ∧ l ≠ ownLock ∧
          a ≠ machineId) ∨
       (∃ k r w, m = .other (.writer k r) ∧ s.writerAt k = some w ∧ w.status = .running ∧ w.pos = .handoff ∧
          w.cfg.lock = l) ∨
       ∃ b, b ≠ machineId ∧ (m = .other (.port b (.relExcl l)) ∨ m = .other (.port b (.handoffWait l)))))

/-- R34: the three outputs of a block show its lock's cell, blocks with the same entry show the same, and an UNSET entry
shows 0, MACHINE, 0. While no claim stands the holder output is the free value and nothing is said of it. -/
def Obligations.OwnershipSignalsShowCell : Prop :=
  ∀ (s : State) (b : Nat),
    (∀ l c, s.lt[b]? = some (some l) → s.cells[l]? = some c →
      (s.ownSignals b).ownExcl = c.excl ∧ (s.ownSignals b).ownReaders = c.readers ∧
        ∀ a, c.claim = some a → (s.ownSignals b).ownHolder = a) ∧
    (s.lt[b]? = some none → s.ownSignals b = { ownExcl := false, ownHolder := machineId, ownReaders := 0 }) ∧
    ∀ b', s.lt[b']? = s.lt[b]? → s.ownSignals b' = s.ownSignals b

/-! ## Invariants, reset and launch -/

/-- Every step keeps a good state good: memory canonical and inside the data array, no cell both claimed and shared,
`cause` set exactly when FAULTED, a halt only at CODE_LEN, the sizes, table and writers a launch may have, every writer
where its protocol can put it, and `ip` at the latched instruction. -/
def Obligations.GoodIsInvariant : Prop := ∀ s t : State, s.good = true → step s = .next t → t.good = true

/-- The state after reset is good (spec/10_state.md section 10). -/
def Obligations.ResetIsGood : Prop := State.reset.good = true

/-- Every state a launch gives is good (spec/70_reset_and_hazards.md section 1). -/
def Obligations.LaunchIsGood : Prop :=
  ∀ (L : Launch) (env : List (List EnvAction)) (t : State), launch L env = .ok t → t.good = true

/-- What the release of reset leaves (spec/70_reset_and_hazards.md section 1), for every well-formed launch: `ip` = 0, both cursors DATA_LEN - 1, RUNNING,
`BF_NONE`, FETCH, the loaded code and data, the table OWN for the loaded data, every cell as `LOCK_INIT` says, every
writer at W1 with an empty output buffer. Which launches are well-formed beside those of the spec, and that DATA_LEN
counts any list of Words a `bind` brings, are the model's choices (log entries 22, 23 and 24). -/
def Obligations.LaunchGivesResetTable : Prop :=
  ∀ (L : Launch) (env : List (List EnvAction)), L.wf = true →
    ∃ t : State, launch L env = .ok t ∧ t.ip = 0 ∧ t.dataLen = L.words.length ∧
      t.sp.toInt = (L.words.length : Int) - 1 ∧ t.dp.toInt = (L.words.length : Int) - 1 ∧
      t.status = .running ∧ t.cause = .bfNone ∧ t.phase = .fetch ∧ t.code = L.code ∧ t.params = L.params ∧
      (∀ (i : Nat) (w : Word), L.words[i]? = some w → t.data.readWord i = w) ∧
      (∀ b, b * L.params.blockWords < L.data.length → t.lt[b]? = some (some ownLock)) ∧
      t.cells.length = L.lockInit.length ∧
      (∀ l : LockId, L.lockInit[l]? = some .free → ∃ c, t.cells[l]? = some c ∧ c.claim = none ∧ c.readers = 0) ∧
      (∀ (l : LockId) (a : AgentId), L.lockInit[l]? = some (.excl a) →
        ∃ c, t.cells[l]? = some c ∧ c.claim = some a ∧ c.readers = 0) ∧
      t.writers.length = L.writers.length ∧
      ∀ (k : Nat) (g : WriterConfig), L.writers[k]? = some g →
        ∃ w, t.writerAt (k + 1) = some w ∧ w.cfg = g ∧ w.pos = .handoff ∧ w.outbuf = [] ∧ w.status = .running

/-- The bound entries of the lock table (spec/70_reset_and_hazards.md section 1, spec/44_lock_handoff.md section 6), as the
model reads the launch sequence (log entry 17): they follow directly after the entries of the Words loaded before the
binds, in the order of the binds, each as often as its block count. -/
def Obligations.LaunchAppendsBoundEntries : Prop :=
  ∀ (L : Launch) (env : List (List EnvAction)) (t : State), launch L env = .ok t →
    ∃ own, L.data.length ≤ own * L.params.blockWords ∧
      own * L.params.blockWords < L.data.length + L.params.blockWords ∧
      t.lt.take own = List.replicate own (some ownLock) ∧
      t.lt.drop own = (L.binds.map fun b => List.replicate b.blockCount (some b.lock)).flatten

/-- The model's choice of reset state (log entries 2 and 3): `State.reset` is the launch that loads nothing, so `ip` is 0
and both cursors are DATA_LEN - 1 = -1. -/
def Obligations.EmptyLaunchIsReset : Prop :=
  launch Launch.empty [] = .ok State.reset ∧ State.reset.ip = 0 ∧ State.reset.sp = -1 ∧ State.reset.dp = -1 ∧
    State.reset.status = .running ∧ State.reset.cause = .bfNone ∧ State.reset.phase = .fetch

/-- A launch is accepted exactly if it meets every condition (a) to (g) of spec/70_reset_and_hazards.md section 1, and is
otherwise refused by the name of a condition it breaks. That an empty payload region must have PAY_BASE <= DATA_LEN, and that
a `bind` of no block is accepted with any lock id, and that a `bind` may bring any number of Words, are the model's choices
(log entries 22, 23 and 24). -/
def Obligations.LaunchAcceptsExactlyWellFormed : Prop :=
  ∀ (L : Launch) (env : List (List EnvAction)),
    ((∃ t, launch L env = .ok t) ↔
      L.code.length < 2 ^ 63 ∧ L.words.length < 2 ^ 63 ∧ (∃ n, L.params.blockWords = 2 ^ n) ∧
      L.words.length ≤ L.table.length * L.params.blockWords ∧ 1 ≤ L.lockInit.length ∧
      (∀ e ∈ L.table, ∃ l, e = some l ∧ l < L.lockInit.length) ∧
      (∀ x ∈ L.lockInit, x = .free ∨ ∃ a, a ≤ L.writers.length ∧ x = .excl a) ∧
      (∀ w ∈ L.writers, w.lock < L.lockInit.length ∧ 1 ≤ w.ctrlLen ∧ w.ctrlBase + w.ctrlLen ≤ L.words.length ∧
        w.payBase + w.payLen ≤ L.words.length) ∧
      L.writers.Pairwise fun v w => v.ctrlBase + v.ctrlLen ≤ w.ctrlBase ∨ w.ctrlBase + w.ctrlLen ≤ v.ctrlBase) ∧
    ((¬∃ t, launch L env = .ok t) → ∃ c, launch L env = .error (.launchIllFormed c) ∧ L.meets c = false)

/-- Degenerate launches, the spec's own inference (spec/70_reset_and_hazards.md section 1): no code halts at once, no
data faults at once, and one data Word runs any instruction without Extend and faults every one with it. -/
def Obligations.DegenerateLaunches : Prop :=
  ∀ (L : Launch) (s : State), launch L [] = .ok s →
    (L.code = [] → step s = .next { s with status := .halted }) ∧
    ∀ b rest, L.code = b :: rest →
      (L.words = [] →
        ∃ t, step s = .next t ∧ t.status = .faulted ∧
          t.cause = if (decodeByte b).flags.mutexWait then .bfLock else .bfSp) ∧
      ∀ w, L.words = [w] → L.params.mwaitRetry = false →
        ∃ t, step s = .next t ∧
          ((decodeByte b).flags.extend = false → t.status = .running ∧ t.phase = .fetch) ∧
          ((decodeByte b).flags.extend = true →
            t.status = .faulted ∧ t.cause = .bfSp ∧ t.phase = .loadSrc ∧ t.mag = w ∧ t.sp = -1)

/-- R69, R67: the code array, DATA_LEN, NBLOCKS and the lock table are the same after every step and after every action
of any agent. -/
def Obligations.RunKeepsLaunchState : Prop :=
  (∀ s t : State, step s = .next t → s.sameLaunch t) ∧ ∀ (s : State) (m : Turn), s.sameLaunch (s.turn m)

/-! ## Ordering and separation -/

/-- One step is an execution order (R17 and spec/20_memory.md section 7): up to seven atomic actions of the machine, each
followed by the actions `env` lists, one action of one agent at a time. Where a `step` ends, for a retried MWAIT and for a
stopped machine, is the model's choice (log entry 7), and `env` is its input (log entry 1). -/
def Obligations.StepIsExecutionOrder : Prop :=
  ∀ s t : State, step s = .next t →
    ∃ n, 1 ≤ n ∧ n ≤ 7 ∧ t.env = s.env.drop n ∧ t.noEnv = s.noEnv.turns (turnsOf n s.env)

/-- Locks never reach data (spec/44_lock_handoff.md section 1, spec/70_reset_and_hazards.md section 3): two undisturbed
runs that differ only in the lock cells agree on everything but the lock cells, with the default parameters. -/
def Obligations.LockStateNeverReachesData : Prop :=
  ∀ (n : Nat) (s : State) (cs : List LockCell), s.alone → s.params.mwaitRetry = false → s.params.relFree = .noop →
    cs.length = s.cells.length →
    ∃ t ds, core.run n s = .next t ∧ core.run n { s with cells := cs } = .next { t with cells := ds }

/-- Private state (spec/60_exceptions.md section 8): no other agent changes the machine's, the machine changes no
writer's, and no agent changes another writer's. -/
def Obligations.AgentsKeepEachOthersPrivateState : Prop :=
  (∀ (s : State) (a : EnvAction), s.samePrivate (s.envAct a)) ∧ (∀ s : State, s.machineAct.writers = s.writers) ∧
  ∀ (s : State) (a : EnvAction) (k : AgentId), (∀ r, a ≠ .writer k r) → (∀ n, a ≠ .handOver k n) →
    (s.envAct a).writerAt k = s.writerAt k

/-! ## Runs of VALUE -/

/-- N times `VALUE|Extend` (R154 as corrected): `dp` rises by 1 and `sp` falls by 2 each time, and each stores the sum of
the two Words it pops, seeing the stores before it. -/
def Obligations.ValueExtendRunPopsAndAdds : Prop :=
  ∀ (n : Nat) (s : State), s.ready → s.alone → s.dataLen < 2 ^ 63 → s.inData s.sp → 2 * n ≤ s.sp.toNat + 1 →
    0 ≤ s.dp.toInt → s.dp.toInt + n ≤ s.dataLen →
    ∃ t, execTimes (.value { Flags.none with extend := true }) n s = .next t ∧ t.ready ∧
      t.sp = s.sp - 2 * BitVec.ofNat 64 n ∧ t.dp = s.dp + BitVec.ofNat 64 n ∧ t.ip = s.ip + BitVec.ofNat 64 n ∧
      t.data = s.data.popAdd s.sp.toNat s.dp.toNat n

/-! ## The ports and the writer -/

/-- R53: byte `j` of a Word in the writer's byte view is bits 8j + 7 to 8j under LE and bits 63 - 8j to 56 - 8j under
BE; a run of the machine alone does not see the order, and no step or agent switches it. -/
def Obligations.ByteOrderOnlyInWriterView : Prop :=
  (∀ w : Word, (viewBytes .le w).length = 8 ∧ (viewBytes .be w).length = 8 ∧
    ∀ j, j < 8 →
      (viewBytes .le w)[j]? = some (w.extractLsb' (8 * j) 8) ∧
      (viewBytes .be w)[j]? = some (w.extractLsb' (56 - 8 * j) 8)) ∧
  (∀ (n : Nat) (s : State) (o : ByteOrder), s.alone →
    ∃ t, core.run n s = .next t ∧
      core.run n { s with params := { s.params with byteOrder := o } }
        = .next { t with params := { t.params with byteOrder := o } }) ∧
  ∀ (s t : State), step s = .next t → t.params.byteOrder = s.params.byteOrder

/-- The memory port (spec/20_memory.md section 13): an index in the data array is read, written, or compared and swapped
without consulting any lock, and any other is not accepted and changes nothing. -/
def Obligations.MemoryPortActions : Prop :=
  ∀ (s : State) (a : AgentId), a ≠ machineId →
    (∀ i : Int, ¬(0 ≤ i ∧ i < s.dataLen) → ∀ v e,
      s.portDo a (.memRead i) = (.notAccepted, s) ∧ s.portDo a (.memWrite i v) = (.notAccepted, s) ∧
        s.portDo a (.memCas i e v) = (.notAccepted, s)) ∧
    ∀ n : Nat, n < s.dataLen → ∀ v e,
      s.portDo a (.memRead n) = (.word (s.data.readWord n), s) ∧
      s.portDo a (.memWrite n v) = (.done, { s with data := s.data.writeWord n v }) ∧
      s.portDo a (.memCas n e v) =
        (.word (s.data.readWord n), if s.data.readWord n = e then { s with data := s.data.writeWord n v } else s)

/-- R194: the test-and-clear clears a flag word of 1 and begins the scan; it leaves any other value and goes back to the
handoff wait. -/
def Obligations.WriterTestAndClear : Prop :=
  ∀ (s : State) (k : AgentId) (w : Writer) (r : SinkReply), s.writerAt k = some w → w.status = .running →
    w.pos = .testClear → flagIndex w.cfg < s.dataLen →
    (s.data.readWord (flagIndex w.cfg) = 1 →
      s.writerAct k r =
        { s with data := s.data.writeWord (flagIndex w.cfg) 0 }.setWriter k
          { w with pair := 0, pos := if 1 < w.cfg.ctrlLen - 1 then .readOff else .flush }) ∧
    (s.data.readWord (flagIndex w.cfg) ≠ 1 → s.writerAct k r = s.setWriter k { w with pos := .handoff })

/-- A writer waits: its shared acquisition of an exclusively claimed cell changes nothing (spec/44_lock_handoff.md
section 2, spec/45_writer_agent.md section 2). -/
def Obligations.WriterWaitsWhileClaimed : Prop :=
  ∀ (s : State) (k : AgentId) (w : Writer) (r : SinkReply) (b : Nat) (l : LockId) (c : LockCell) (a : AgentId),
    s.writerAt k = some w → w.pos = .acquire b → s.lockOfBlock b = some l → s.cells[l]? = some c →
    c.claim = some a → s.writerAct k r = s

/-- What stops a writer (spec/45_writer_agent.md section 2, spec/60_exceptions.md section 10): a range outside its payload
region, and a sink that fails. Neither changes a data Word, a lock cell or the machine, no buffered byte is dropped,
and a stopped writer takes no further action. -/
def Obligations.WriterStops : Prop :=
  (∀ (s : State) (k : AgentId) (w : Writer) (r : SinkReply) (v : Word), s.writerAt k = some w →
    w.status = .running → w.pos = .readLen → w.cfg.ctrlBase + 2 * w.pair + 1 < s.dataLen →
    s.data.readWord (w.cfg.ctrlBase + 2 * w.pair + 1) = v →
    v ≠ 0 → w.off.toInt < 0 ∨ v.toInt < 0 ∨ (w.cfg.payLen : Int) < w.off.toInt + v.toInt →
    s.writerAct k r = s.setWriter k { w with len := v, status := .faulted }) ∧
  (∀ (s : State) (k : AgentId) (w : Writer) (n : Nat), s.writerAt k = some w → w.status = .running →
    w.pos = .flush →
    ∃ x, s.writerAct k (.failedAfter n) = s.setWriter k x ∧ x.status = .sinkFailed ∧
      x.sink ++ x.outbuf = w.sink ++ w.outbuf) ∧
  ∀ (s : State) (k : AgentId) (w : Writer), s.writerAt k = some w → w.status ≠ .running →
    (∀ r, s.writerAct k r = s) ∧ ∀ n, s.writerHandOver k n = s

/-- A writer stores only in its own control region, and only zeros (spec/45_writer_agent.md section 2,
spec/70_reset_and_hazards.md section 3). -/
def Obligations.WriterStoresOnlyInControl : Prop :=
  ∀ (s : State) (k : AgentId) (w : Writer) (r : SinkReply), s.good = true → s.writerAt k = some w →
    ∀ i, (s.writerAct k r).data.readWord i = s.data.readWord i ∨
      ((s.writerAct k r).data.readWord i = 0 ∧ w.cfg.ctrlBase ≤ i ∧ i < w.cfg.ctrlBase + w.cfg.ctrlLen)

/-- One drain cycle (spec/45_writer_agent.md sections 2 and 3) of a writer whose control region describes one range of
offset `o` and length `l` > 0, apart from that region and with no exclusive claim on its blocks, with the flag word 1 and
nobody acting meanwhile: the sink receives exactly the 8l bytes of those Words, the control region reads back as zeros,
and every other Word, the lock cells and the machine are as before. -/
def Obligations.WriterDrainRoundTrip : Prop :=
  ∀ (s : State) (k : AgentId) (w : Writer) (o l : Nat), s.good = true → s.writerAt k = some w →
    w.status = .running → w.pos = .testClear → w.outbuf = [] → 3 ≤ w.cfg.ctrlLen →
    s.data.readWord (flagIndex w.cfg) = 1 → s.data.readWord w.cfg.ctrlBase = BitVec.ofNat 64 o →
    s.data.readWord (w.cfg.ctrlBase + 1) = BitVec.ofNat 64 l →
    (5 ≤ w.cfg.ctrlLen → s.data.readWord (w.cfg.ctrlBase + 3) = 0) →
    0 < l → o + l ≤ w.cfg.payLen →
    w.cfg.payBase + o + l ≤ w.cfg.ctrlBase ∨ w.cfg.ctrlBase + w.cfg.ctrlLen ≤ w.cfg.payBase + o →
    s.blocksOpen (w.cfg.payBase + o) (w.cfg.payBase + o + l - 1) →
    ∃ n w', let t := s.writerRuns k n
      t.writerAt k = some w' ∧ w'.pos = .handoff ∧ w'.status = .running ∧ w'.outbuf = [] ∧
      w'.sink = w.sink ++ s.viewFrom (w.cfg.payBase + o) l ∧
      (∀ i, w.cfg.ctrlBase ≤ i → i < w.cfg.ctrlBase + w.cfg.ctrlLen → t.data.readWord i = 0) ∧
      (∀ i, i < w.cfg.ctrlBase ∨ w.cfg.ctrlBase + w.cfg.ctrlLen ≤ i →
        t.data.readWord i = s.data.readWord i) ∧
      t.cells = s.cells ∧ s.samePrivate t
end

