-- ==== Sys2Proof/Laws/State.lean ====
section
/-! SUPPORT. One lemma per field for each named update of the state, so that no later proof unfolds an update. -/

namespace Sys2Proof.Machine

/-! ## `State.takeFault` -/

@[simp] theorem State.takeFault_ip (s : State) (f : Fault) : (s.takeFault f).ip = s.ip := rfl
@[simp] theorem State.takeFault_sp (s : State) (f : Fault) : (s.takeFault f).sp = s.sp := rfl
@[simp] theorem State.takeFault_dp (s : State) (f : Fault) : (s.takeFault f).dp = s.dp := rfl
@[simp] theorem State.takeFault_status (s : State) (f : Fault) : (s.takeFault f).status = .faulted := rfl
@[simp] theorem State.takeFault_cause (s : State) (f : Fault) : (s.takeFault f).cause = f.toCause := rfl
@[simp] theorem State.takeFault_op (s : State) (f : Fault) : (s.takeFault f).op = s.op := rfl
@[simp] theorem State.takeFault_mag (s : State) (f : Fault) : (s.takeFault f).mag = s.mag := rfl
@[simp] theorem State.takeFault_src (s : State) (f : Fault) : (s.takeFault f).src = s.src := rfl
@[simp] theorem State.takeFault_dst (s : State) (f : Fault) : (s.takeFault f).dst = s.dst := rfl
@[simp] theorem State.takeFault_phase (s : State) (f : Fault) : (s.takeFault f).phase = s.phase := rfl
@[simp] theorem State.takeFault_code (s : State) (f : Fault) : (s.takeFault f).code = s.code := rfl
@[simp] theorem State.takeFault_dataLen (s : State) (f : Fault) : (s.takeFault f).dataLen = s.dataLen := rfl
@[simp] theorem State.takeFault_data (s : State) (f : Fault) : (s.takeFault f).data = s.data := rfl
@[simp] theorem State.takeFault_lt (s : State) (f : Fault) : (s.takeFault f).lt = s.lt := rfl
@[simp] theorem State.takeFault_cells (s : State) (f : Fault) : (s.takeFault f).cells = s.cells := rfl
@[simp] theorem State.takeFault_writers (s : State) (f : Fault) : (s.takeFault f).writers = s.writers := rfl
@[simp] theorem State.takeFault_params (s : State) (f : Fault) : (s.takeFault f).params = s.params := rfl
@[simp] theorem State.takeFault_env (s : State) (f : Fault) : (s.takeFault f).env = s.env := rfl

/-! ## `State.advance` -/

@[simp] theorem State.advance_ip (s : State) : (s.advance).ip = s.ip + 1 := rfl
@[simp] theorem State.advance_sp (s : State) : (s.advance).sp = s.sp := rfl
@[simp] theorem State.advance_dp (s : State) : (s.advance).dp = s.dp := rfl
@[simp] theorem State.advance_status (s : State) : (s.advance).status = s.status := rfl
@[simp] theorem State.advance_cause (s : State) : (s.advance).cause = s.cause := rfl
@[simp] theorem State.advance_op (s : State) : (s.advance).op = s.op := rfl
@[simp] theorem State.advance_mag (s : State) : (s.advance).mag = s.mag := rfl
@[simp] theorem State.advance_src (s : State) : (s.advance).src = s.src := rfl
@[simp] theorem State.advance_dst (s : State) : (s.advance).dst = s.dst := rfl
@[simp] theorem State.advance_phase (s : State) : (s.advance).phase = .fetch := rfl
@[simp] theorem State.advance_code (s : State) : (s.advance).code = s.code := rfl
@[simp] theorem State.advance_dataLen (s : State) : (s.advance).dataLen = s.dataLen := rfl
@[simp] theorem State.advance_data (s : State) : (s.advance).data = s.data := rfl
@[simp] theorem State.advance_lt (s : State) : (s.advance).lt = s.lt := rfl
@[simp] theorem State.advance_cells (s : State) : (s.advance).cells = s.cells := rfl
@[simp] theorem State.advance_writers (s : State) : (s.advance).writers = s.writers := rfl
@[simp] theorem State.advance_params (s : State) : (s.advance).params = s.params := rfl
@[simp] theorem State.advance_env (s : State) : (s.advance).env = s.env := rfl

/-! ## `State.latch` -/

@[simp] theorem State.latch_ip (s : State) (op : Byte) (f : Flags) : (s.latch op f).ip = s.ip := rfl
@[simp] theorem State.latch_sp (s : State) (op : Byte) (f : Flags) : (s.latch op f).sp = s.sp := rfl
@[simp] theorem State.latch_dp (s : State) (op : Byte) (f : Flags) : (s.latch op f).dp = s.dp := rfl
@[simp] theorem State.latch_status (s : State) (op : Byte) (f : Flags) : (s.latch op f).status = s.status := rfl
@[simp] theorem State.latch_cause (s : State) (op : Byte) (f : Flags) : (s.latch op f).cause = s.cause := rfl
@[simp] theorem State.latch_op (s : State) (op : Byte) (f : Flags) : (s.latch op f).op = op := rfl
@[simp] theorem State.latch_mag (s : State) (op : Byte) (f : Flags) : (s.latch op f).mag = 1 := rfl
@[simp] theorem State.latch_src (s : State) (op : Byte) (f : Flags) : (s.latch op f).src = s.src := rfl
@[simp] theorem State.latch_dst (s : State) (op : Byte) (f : Flags) : (s.latch op f).dst = s.dst := rfl
@[simp] theorem State.latch_phase (s : State) (op : Byte) (f : Flags) : (s.latch op f).phase = phaseAfterFetch f := rfl
@[simp] theorem State.latch_code (s : State) (op : Byte) (f : Flags) : (s.latch op f).code = s.code := rfl
@[simp] theorem State.latch_dataLen (s : State) (op : Byte) (f : Flags) : (s.latch op f).dataLen = s.dataLen := rfl
@[simp] theorem State.latch_data (s : State) (op : Byte) (f : Flags) : (s.latch op f).data = s.data := rfl
@[simp] theorem State.latch_lt (s : State) (op : Byte) (f : Flags) : (s.latch op f).lt = s.lt := rfl
@[simp] theorem State.latch_cells (s : State) (op : Byte) (f : Flags) : (s.latch op f).cells = s.cells := rfl
@[simp] theorem State.latch_writers (s : State) (op : Byte) (f : Flags) : (s.latch op f).writers = s.writers := rfl
@[simp] theorem State.latch_params (s : State) (op : Byte) (f : Flags) : (s.latch op f).params = s.params := rfl
@[simp] theorem State.latch_env (s : State) (op : Byte) (f : Flags) : (s.latch op f).env = s.env := rfl

/-! ## `State.moveBoth` -/

@[simp] theorem State.moveBoth_ip (s : State) : (s.moveBoth).ip = s.ip := rfl
@[simp] theorem State.moveBoth_sp (s : State) : (s.moveBoth).sp = s.sp - 1 := rfl
@[simp] theorem State.moveBoth_dp (s : State) : (s.moveBoth).dp = s.dp + 1 := rfl
@[simp] theorem State.moveBoth_status (s : State) : (s.moveBoth).status = s.status := rfl
@[simp] theorem State.moveBoth_cause (s : State) : (s.moveBoth).cause = s.cause := rfl
@[simp] theorem State.moveBoth_op (s : State) : (s.moveBoth).op = s.op := rfl
@[simp] theorem State.moveBoth_mag (s : State) : (s.moveBoth).mag = s.mag := rfl
@[simp] theorem State.moveBoth_src (s : State) : (s.moveBoth).src = s.src := rfl
@[simp] theorem State.moveBoth_dst (s : State) : (s.moveBoth).dst = s.dst := rfl
@[simp] theorem State.moveBoth_phase (s : State) : (s.moveBoth).phase = s.phase := rfl
@[simp] theorem State.moveBoth_code (s : State) : (s.moveBoth).code = s.code := rfl
@[simp] theorem State.moveBoth_dataLen (s : State) : (s.moveBoth).dataLen = s.dataLen := rfl
@[simp] theorem State.moveBoth_data (s : State) : (s.moveBoth).data = s.data := rfl
@[simp] theorem State.moveBoth_lt (s : State) : (s.moveBoth).lt = s.lt := rfl
@[simp] theorem State.moveBoth_cells (s : State) : (s.moveBoth).cells = s.cells := rfl
@[simp] theorem State.moveBoth_writers (s : State) : (s.moveBoth).writers = s.writers := rfl
@[simp] theorem State.moveBoth_params (s : State) : (s.moveBoth).params = s.params := rfl
@[simp] theorem State.moveBoth_env (s : State) : (s.moveBoth).env = s.env := rfl

/-! ## `State.setCell` -/

@[simp] theorem State.setCell_ip (s : State) (l : LockId) (c : LockCell) : (s.setCell l c).ip = s.ip := rfl
@[simp] theorem State.setCell_sp (s : State) (l : LockId) (c : LockCell) : (s.setCell l c).sp = s.sp := rfl
@[simp] theorem State.setCell_dp (s : State) (l : LockId) (c : LockCell) : (s.setCell l c).dp = s.dp := rfl
@[simp] theorem State.setCell_status (s : State) (l : LockId) (c : LockCell) : (s.setCell l c).status = s.status := rfl
@[simp] theorem State.setCell_cause (s : State) (l : LockId) (c : LockCell) : (s.setCell l c).cause = s.cause := rfl
@[simp] theorem State.setCell_op (s : State) (l : LockId) (c : LockCell) : (s.setCell l c).op = s.op := rfl
@[simp] theorem State.setCell_mag (s : State) (l : LockId) (c : LockCell) : (s.setCell l c).mag = s.mag := rfl
@[simp] theorem State.setCell_src (s : State) (l : LockId) (c : LockCell) : (s.setCell l c).src = s.src := rfl
@[simp] theorem State.setCell_dst (s : State) (l : LockId) (c : LockCell) : (s.setCell l c).dst = s.dst := rfl
@[simp] theorem State.setCell_phase (s : State) (l : LockId) (c : LockCell) : (s.setCell l c).phase = s.phase := rfl
@[simp] theorem State.setCell_code (s : State) (l : LockId) (c : LockCell) : (s.setCell l c).code = s.code := rfl
@[simp] theorem State.setCell_dataLen (s : State) (l : LockId) (c : LockCell) : (s.setCell l c).dataLen = s.dataLen := rfl
@[simp] theorem State.setCell_data (s : State) (l : LockId) (c : LockCell) : (s.setCell l c).data = s.data := rfl
@[simp] theorem State.setCell_lt (s : State) (l : LockId) (c : LockCell) : (s.setCell l c).lt = s.lt := rfl
@[simp] theorem State.setCell_cells (s : State) (l : LockId) (c : LockCell) : (s.setCell l c).cells = s.cells.set l c := rfl
@[simp] theorem State.setCell_writers (s : State) (l : LockId) (c : LockCell) : (s.setCell l c).writers = s.writers := rfl
@[simp] theorem State.setCell_params (s : State) (l : LockId) (c : LockCell) : (s.setCell l c).params = s.params := rfl
@[simp] theorem State.setCell_env (s : State) (l : LockId) (c : LockCell) : (s.setCell l c).env = s.env := rfl

/-! ## `State.setWriter` -/

@[simp] theorem State.setWriter_ip (s : State) (k : AgentId) (w : Writer) : (s.setWriter k w).ip = s.ip := rfl
@[simp] theorem State.setWriter_sp (s : State) (k : AgentId) (w : Writer) : (s.setWriter k w).sp = s.sp := rfl
@[simp] theorem State.setWriter_dp (s : State) (k : AgentId) (w : Writer) : (s.setWriter k w).dp = s.dp := rfl
@[simp] theorem State.setWriter_status (s : State) (k : AgentId) (w : Writer) : (s.setWriter k w).status = s.status := rfl
@[simp] theorem State.setWriter_cause (s : State) (k : AgentId) (w : Writer) : (s.setWriter k w).cause = s.cause := rfl
@[simp] theorem State.setWriter_op (s : State) (k : AgentId) (w : Writer) : (s.setWriter k w).op = s.op := rfl
@[simp] theorem State.setWriter_mag (s : State) (k : AgentId) (w : Writer) : (s.setWriter k w).mag = s.mag := rfl
@[simp] theorem State.setWriter_src (s : State) (k : AgentId) (w : Writer) : (s.setWriter k w).src = s.src := rfl
@[simp] theorem State.setWriter_dst (s : State) (k : AgentId) (w : Writer) : (s.setWriter k w).dst = s.dst := rfl
@[simp] theorem State.setWriter_phase (s : State) (k : AgentId) (w : Writer) : (s.setWriter k w).phase = s.phase := rfl
@[simp] theorem State.setWriter_code (s : State) (k : AgentId) (w : Writer) : (s.setWriter k w).code = s.code := rfl
@[simp] theorem State.setWriter_dataLen (s : State) (k : AgentId) (w : Writer) : (s.setWriter k w).dataLen = s.dataLen := rfl
@[simp] theorem State.setWriter_data (s : State) (k : AgentId) (w : Writer) : (s.setWriter k w).data = s.data := rfl
@[simp] theorem State.setWriter_lt (s : State) (k : AgentId) (w : Writer) : (s.setWriter k w).lt = s.lt := rfl
@[simp] theorem State.setWriter_cells (s : State) (k : AgentId) (w : Writer) : (s.setWriter k w).cells = s.cells := rfl
@[simp] theorem State.setWriter_writers (s : State) (k : AgentId) (w : Writer) : (s.setWriter k w).writers = s.writers.set (k - 1) w := rfl
@[simp] theorem State.setWriter_params (s : State) (k : AgentId) (w : Writer) : (s.setWriter k w).params = s.params := rfl
@[simp] theorem State.setWriter_env (s : State) (k : AgentId) (w : Writer) : (s.setWriter k w).env = s.env := rfl

end Sys2Proof.Machine
end

