-- ==== Sys2Proof/Laws/Locks.lean ====
section
/-! SUPPORT. What each lock operation can do, said once (spec/44_lock_handoff.md). -/

namespace Sys2Proof.Machine

@[simp] theorem LockCell.cleared_claim (c : LockCell) : c.cleared.claim = none := rfl
@[simp] theorem LockCell.cleared_readers (c : LockCell) : c.cleared.readers = c.readers := rfl
@[simp] theorem LockCell.cleared_releases (c : LockCell) : c.cleared.releases = c.releases + 1 := rfl

theorem LockCell.isFree_iff (c : LockCell) : c.isFree = true ↔ c.claim = none ∧ c.readers = 0 := by
  simp [LockCell.isFree]

theorem LockCell.excl_iff (c : LockCell) : c.excl = true ↔ ∃ a, c.claim = some a := by
  simp [LockCell.excl, Option.isSome_iff_exists]

theorem LockCell.heldByMachine_iff (c : LockCell) : c.heldByMachine = true ↔ c.claim = some machineId := by
  simp [LockCell.heldByMachine]

/-- Everything a handoff wait that does not fault can do (R165). -/
theorem LockCell.handoffWait_ok {c c' : LockCell} {p : RelFreePolicy} {a : AgentId} {got : Bool}
    (h : c.handoffWait p a = .ok (got, c')) :
    (got = true ∧ c.claim = none ∧ c.readers = 0 ∧ c' = { c with claim := some a }) ∨
    (got = false ∧ c.excl = true ∧ c' = c.cleared) ∨
    (got = false ∧ c.claim = none ∧ c.readers ≠ 0 ∧ p = .noop ∧ c' = c) := by
  obtain ⟨cl, r, n⟩ := c
  cases cl <;> by_cases hr : r = 0 <;> cases p <;>
    simp [LockCell.handoffWait, LockCell.tryExcl, LockCell.isFree, LockCell.relExcl, LockCell.excl, hr] at h ⊢ <;>
    simp [← h.1, ← h.2]

/-- When and how a handoff wait faults (R162, R165). -/
theorem LockCell.handoffWait_error {c : LockCell} {p : RelFreePolicy} {a : AgentId} {f : Fault}
    (h : c.handoffWait p a = .error f) : f = .releaseFree ∧ p = .fault ∧ c.claim = none ∧ c.readers ≠ 0 := by
  obtain ⟨cl, r, n⟩ := c
  cases cl <;> by_cases hr : r = 0 <;> cases p <;>
    simp [LockCell.handoffWait, LockCell.tryExcl, LockCell.isFree, LockCell.relExcl, LockCell.excl, hr] at h ⊢
  exact h.symm

theorem LockCell.handoffWait_free {c : LockCell} (p : RelFreePolicy) (a : AgentId) (h1 : c.claim = none)
    (h2 : c.readers = 0) : c.handoffWait p a = .ok (true, { c with claim := some a }) := by
  simp [LockCell.handoffWait, LockCell.tryExcl, LockCell.isFree, h1, h2]

theorem LockCell.handoffWait_claimed {c : LockCell} (p : RelFreePolicy) (a b : AgentId) (h : c.claim = some b) :
    c.handoffWait p a = .ok (false, c.cleared) := by
  simp [LockCell.handoffWait, LockCell.tryExcl, LockCell.isFree, LockCell.relExcl, LockCell.excl, h]

theorem LockCell.handoffWait_shared_noop {c : LockCell} (a : AgentId) (h1 : c.claim = none) (h2 : c.readers ≠ 0) :
    c.handoffWait .noop a = .ok (false, c) := by
  simp [LockCell.handoffWait, LockCell.tryExcl, LockCell.isFree, LockCell.relExcl, LockCell.excl, h1, h2]

/-- Everything a release that does not fault can do (R162). -/
theorem LockCell.relExcl_ok {c c' : LockCell} {p : RelFreePolicy} (h : c.relExcl p = .ok c') :
    (c.excl = true ∧ c' = c.cleared) ∨ (c.excl = false ∧ p = .noop ∧ c' = c) := by
  unfold LockCell.relExcl at h
  split at h
  · rename_i hx; exact .inl ⟨hx, by simpa using h.symm⟩
  · rename_i hx
    cases p with
    | noop => exact .inr ⟨by simpa using hx, rfl, by simpa using h.symm⟩
    | fault => simp at h

theorem LockCell.acqShared_some {c c' : LockCell} (h : c.acqShared = some c') :
    c.claim = none ∧ c' = { c with readers := c.readers + 1 } := by
  unfold LockCell.acqShared at h
  split at h
  · simp at h
  · rename_i hx
    exact ⟨by simpa [LockCell.excl] using hx, by simpa using h.symm⟩

theorem LockCell.relShared_some {c c' : LockCell} (h : c.relShared = some c') :
    0 < c.readers ∧ c' = { c with readers := c.readers - 1 } := by
  unfold LockCell.relShared at h
  split at h
  · simp at h
  · rename_i hx
    exact ⟨by omega, by simpa using h.symm⟩

/-- R32, for one cell: no claim beside a shared hold. -/
abbrev cellOk (c : LockCell) : Prop := c.claim = none ∨ c.readers = 0

theorem cellsOk_iff (s : State) : s.cellsOk = true ↔ ∀ c ∈ s.cells, cellOk c := by
  simp [State.cellsOk, cellOk]

theorem cellOk_handoffWait {c c' : LockCell} {p : RelFreePolicy} {a : AgentId} {got : Bool} (hc : cellOk c)
    (h : c.handoffWait p a = .ok (got, c')) : cellOk c' := by
  rcases LockCell.handoffWait_ok h with ⟨_, _, h2, rfl⟩ | ⟨_, _, rfl⟩ | ⟨_, _, _, _, rfl⟩
  · exact .inr h2
  · exact .inl rfl
  · exact hc

/-- What an operation at the lock port does to its cell keeps R32. -/
theorem cellOk_portOp {c : LockCell} (hc : cellOk c) (p : RelFreePolicy) (a : AgentId) (op : PortOp) :
    cellOk (c.portOp p a op).2 := by
  unfold LockCell.portOp
  split
  · show cellOk (c.tryExcl a).2
    unfold LockCell.tryExcl
    by_cases h : c.isFree = true
    · rw [if_pos h]; exact .inr ((LockCell.isFree_iff c).1 h).2
    · rw [if_neg h]; exact hc
  · split
    · rename_i c' h
      rcases LockCell.relExcl_ok h with ⟨_, rfl⟩ | ⟨_, _, rfl⟩
      · exact .inl rfl
      · exact hc
    · exact hc
  · split
    · rename_i c' h; obtain ⟨h1, rfl⟩ := LockCell.acqShared_some h; exact .inl h1
    · exact hc
  · split
    · rename_i c' h
      obtain ⟨h1, rfl⟩ := LockCell.relShared_some h
      rcases hc with hc | hc
      · exact .inl hc
      · omega
    · exact hc
  · split
    · rename_i got c' h; exact cellOk_handoffWait hc h
    · exact hc
  all_goals exact hc

theorem cells_setCell_ok {s : State} (h : ∀ c ∈ s.cells, cellOk c) (l : LockId) {c : LockCell} (hc : cellOk c) :
    ∀ d ∈ (s.setCell l c).cells, cellOk d := by
  intro d hd
  rcases List.mem_or_eq_of_mem_set hd with hd | rfl
  · exact h d hd
  · exact hc

/-! ## The lock table and the sequencer -/

theorem State.lockOfBlock_eq {s : State} {b : Nat} {l : LockId} :
    s.lockOfBlock b = some l ↔ s.lt[b]? = some (some l) := by
  unfold State.lockOfBlock
  split <;> simp_all

/-- `LockFor` reads the table only (R166). -/
theorem State.lockFor_congr {s t : State} (h1 : t.lt = s.lt) (h2 : t.params = s.params) (i : Word) :
    t.lockFor i = s.lockFor i := by
  simp [State.lockFor, State.lockOfBlock, State.blockOf, h1, h2]

/-- Everything the machine's handoff wait can do when it does not fault (R104). -/
theorem State.machineHandoff_ok {s t : State} {i : Word} {got : Bool} (h : s.machineHandoff i = .ok (got, t)) :
    ∃ l c c', s.lockFor i = some l ∧ s.cells[l]? = some c ∧
      c.handoffWait s.params.relFree machineId = .ok (got, c') ∧ t = s.setCell l c' := by
  unfold State.machineHandoff at h
  split at h
  · simp at h
  · rename_i l hl
    split at h
    · simp at h
    · rename_i c hc
      split at h
      · rename_i g c' hw
        simp at h
        obtain ⟨rfl, rfl⟩ := h
        exact ⟨l, c, c', hl, hc, hw, rfl⟩
      · simp at h

/-- Why the machine's handoff wait faults: no lock (R224), or a release that finds nothing to release (R162). -/
theorem State.machineHandoff_error {s : State} {i : Word} {f : Fault} (h : s.machineHandoff i = .error f) :
    (f = .noLock ∧ ∀ l, s.lockFor i = some l → s.cells.length ≤ l) ∨
    (f = .releaseFree ∧ s.params.relFree = .fault) := by
  unfold State.machineHandoff at h
  split at h
  · rename_i hl
    simp at h
    exact .inl ⟨h.symm, by simp [hl]⟩
  · rename_i l hl
    split at h
    · rename_i hc
      simp at h
      refine .inl ⟨h.symm, fun l' hl' => ?_⟩
      rw [hl] at hl'
      simp at hl'
      subst hl'
      simpa using hc
    · rename_i c hc
      split at h
      · simp at h
      · rename_i e hw
        simp at h
        subst h
        obtain ⟨rfl, hp, _⟩ := LockCell.handoffWait_error hw
        exact .inr ⟨rfl, hp⟩

theorem State.machineHandoff_eq {s : State} {i : Word} {l : LockId} {c c' : LockCell} {got : Bool}
    (h1 : s.lockFor i = some l) (h2 : s.cells[l]? = some c)
    (h3 : c.handoffWait s.params.relFree machineId = .ok (got, c')) :
    s.machineHandoff i = .ok (got, s.setCell l c') := by
  simp [State.machineHandoff, h1, h2, h3]

/-- Everything the cross-block handoff can do (R169). -/
theorem State.crossBlockHandoff_cases (s : State) :
    s.crossBlockHandoff = s ∨
    ∃ l c a, s.lockFor s.dp = some l ∧ l ≠ ownLock ∧ s.cells[l]? = some c ∧ c.claim = some a ∧ a ≠ machineId ∧
      s.crossBlockHandoff = s.setCell l c.cleared := by
  unfold State.crossBlockHandoff
  split
  · exact .inl rfl
  · rename_i l hl
    split
    · exact .inl rfl
    · rename_i hne
      split
      · exact .inl rfl
      · rename_i c hc
        split
        · exact .inl rfl
        · rename_i hm
          split
          · rename_i hx
            obtain ⟨a, ha⟩ := (LockCell.excl_iff c).1 hx
            refine .inr ⟨l, c, a, hl, hne, hc, ha, ?_, rfl⟩
            intro h
            subst h
            exact hm ((LockCell.heldByMachine_iff c).2 ha)
          · exact .inl rfl

end Sys2Proof.Machine
end

