-- ==== Sys2Proof/Laws/Memory.lean ====
section
/-! SUPPORT. The laws of data memory: reading after writing, the canonical form, and equality of memories. -/

namespace Sys2Proof.Machine

@[simp] theorem Memory.readByte_nil (a : Nat) : Memory.readByte [] a = 0#8 := rfl

theorem Memory.readByte_cons (k : Nat) (b : Byte) (m : Memory) (a : Nat) :
    Memory.readByte ((k, b) :: m) a = if k = a then b else Memory.readByte m a := rfl

/-- Below the lowest possible address every byte reads as 0. -/
theorem Memory.readByte_of_wfFrom (m : Memory) :
    ∀ n a, Memory.wfFrom n m = true → a < n → Memory.readByte m a = 0#8 := by
  induction m with
  | nil => intros; rfl
  | cons c m ih =>
    obtain ⟨k, b⟩ := c
    intro n a h ha
    simp only [Memory.wfFrom, Bool.and_eq_true, decide_eq_true_eq] at h
    obtain ⟨⟨h1, h2⟩, h3⟩ := h
    rw [Memory.readByte_cons, if_neg (by omega), ih (k + 1) a h3 (by omega)]

theorem Memory.wfFrom_mono (m : Memory) : ∀ n n', n' ≤ n → Memory.wfFrom n m = true → Memory.wfFrom n' m = true := by
  cases m with
  | nil => intros; rfl
  | cons c m =>
    obtain ⟨k, b⟩ := c
    intro n n' hn h
    simp only [Memory.wfFrom, Bool.and_eq_true, decide_eq_true_eq] at h ⊢
    exact ⟨⟨by omega, h.1.2⟩, h.2⟩

/-- Writing a byte keeps the canonical form. -/
theorem Memory.writeByte_wfFrom (m : Memory) :
    ∀ n a v, Memory.wfFrom n m = true → n ≤ a → Memory.wfFrom n (Memory.writeByte m a v) = true := by
  induction m with
  | nil =>
    intro n a v _ ha
    by_cases hv : v = 0#8 <;> simp [Memory.writeByte, Memory.wfFrom, hv, ha]
  | cons c m ih =>
    obtain ⟨k, b⟩ := c
    intro n a v h ha
    have h0 := h
    simp only [Memory.wfFrom, Bool.and_eq_true, decide_eq_true_eq] at h
    obtain ⟨⟨h1, h2⟩, h3⟩ := h
    unfold Memory.writeByte
    by_cases hak : a < k
    · by_cases hv : v = 0#8
      · simpa [hak, hv] using h0
      · have : Memory.wfFrom (a + 1) ((k, b) :: m) = true := by
          simp only [Memory.wfFrom, Bool.and_eq_true, decide_eq_true_eq]
          exact ⟨⟨by omega, h2⟩, h3⟩
        rw [if_pos hak, if_neg hv]
        show (decide (n ≤ a) && decide (v ≠ 0#8) && Memory.wfFrom (a + 1) ((k, b) :: m)) = true
        simp [ha, hv, this]
    · by_cases hek : a = k
      · subst hek
        by_cases hv : v = 0#8
        · simpa [hv] using Memory.wfFrom_mono m (a + 1) n (by omega) h3
        · simp [hv, Memory.wfFrom, ha, h3]
      · simp only [hak, hek, if_false, Memory.wfFrom, Bool.and_eq_true, decide_eq_true_eq]
        exact ⟨⟨h1, h2⟩, ih (k + 1) a v h3 (by omega)⟩

theorem Memory.wf_writeByte {m : Memory} (h : m.wf = true) (a : Nat) (v : Byte) : (m.writeByte a v).wf = true :=
  Memory.writeByte_wfFrom m 0 a v h (Nat.zero_le a)

/-- Reading after writing one byte, in canonical memory. -/
theorem Memory.readByte_writeByte_from (m : Memory) :
    ∀ n a v b, Memory.wfFrom n m = true →
      Memory.readByte (Memory.writeByte m a v) b = if b = a then v else Memory.readByte m b := by
  induction m with
  | nil =>
    intro n a v b _
    by_cases hv : v = 0#8
    · by_cases hb : b = a <;> simp [Memory.writeByte, hv, hb]
    · by_cases hb : b = a
      · simp [Memory.writeByte, hv, hb, Memory.readByte_cons]
      · simp [Memory.writeByte, hv, hb, Memory.readByte_cons, Ne.symm hb]
  | cons c m ih =>
    obtain ⟨k, x⟩ := c
    intro n a v b h
    have h0 := h
    simp only [Memory.wfFrom, Bool.and_eq_true, decide_eq_true_eq] at h
    obtain ⟨⟨h1, h2⟩, h3⟩ := h
    unfold Memory.writeByte
    by_cases hak : a < k
    · have hz : Memory.readByte m a = 0#8 := Memory.readByte_of_wfFrom m (k + 1) a h3 (by omega)
      by_cases hv : v = 0#8
      · by_cases hb : b = a
        · subst hb
          have : k ≠ b := by omega
          simp [hak, hv, Memory.readByte_cons, this, hz]
        · simp [hak, hv, hb]
      · by_cases hb : b = a
        · subst hb; simp [hak, hv, Memory.readByte_cons]
        · simp [hak, hv, hb, Memory.readByte_cons, Ne.symm hb]
    · by_cases hek : a = k
      · subst hek
        have hz : Memory.readByte m a = 0#8 := Memory.readByte_of_wfFrom m (a + 1) a h3 (by omega)
        by_cases hv : v = 0#8
        · by_cases hb : b = a
          · subst hb; simp [hv, hz]
          · simp [hv, hb, Memory.readByte_cons, Ne.symm hb]
        · by_cases hb : b = a
          · subst hb; simp [hv, Memory.readByte_cons]
          · simp [hv, hb, Memory.readByte_cons, Ne.symm hb]
      · simp only [hak, hek, if_false, Memory.readByte_cons, ih (k + 1) a v b h3]
        by_cases hb : b = a
        · subst hb
          simp [Ne.symm hek]
        · simp [hb]

@[simp] theorem Memory.readByte_writeByte {m : Memory} (h : m.wf = true) (a : Nat) (v : Byte) (b : Nat) :
    (m.writeByte a v).readByte b = if b = a then v else m.readByte b :=
  Memory.readByte_writeByte_from m 0 a v b h

theorem Memory.wf_writeBytes (bs : List Byte) :
    ∀ {m : Memory}, m.wf = true → ∀ a, (m.writeBytes a bs).wf = true := by
  induction bs with
  | nil => intro m h a; exact h
  | cons b bs ih => intro m h a; exact ih (Memory.wf_writeByte h a b) (a + 1)

/-- Reading after writing a list of bytes: the written ones, and no other byte changes. -/
theorem Memory.readByte_writeBytes (bs : List Byte) :
    ∀ {m : Memory}, m.wf = true → ∀ a b, (m.writeBytes a bs).readByte b =
      if a ≤ b ∧ b < a + bs.length then bs.getD (b - a) 0 else m.readByte b := by
  induction bs with
  | nil =>
    intro m _ a b
    rw [if_neg (by simp only [List.length_nil]; omega)]
    rfl
  | cons x bs ih =>
    intro m h a b
    rw [Memory.writeBytes, ih (Memory.wf_writeByte h a x), Memory.readByte_writeByte h]
    by_cases hb : b = a
    · subst hb; simp
    · by_cases hin : a + 1 ≤ b ∧ b < a + 1 + bs.length
      · obtain ⟨d, rfl⟩ : ∃ d, b = a + 1 + d := ⟨b - (a + 1), by omega⟩
        have e1 : a + 1 + d - (a + 1) = d := by omega
        have e2 : a + 1 + d - a = d + 1 := by omega
        rw [if_pos hin, if_pos (by simp; omega), e1, e2]; rfl
      · rw [if_neg hin, if_neg hb, if_neg (by simp; omega)]

theorem Memory.wf_writeWord {m : Memory} (h : m.wf = true) (i : Nat) (v : Word) : (m.writeWord i v).wf = true :=
  Memory.wf_writeBytes _ h _

/-- A Word is its eight bytes. -/
@[simp] theorem wordOfBytes_wordByte (w : Word) :
    wordOfBytes (wordByte w 0) (wordByte w 1) (wordByte w 2) (wordByte w 3) (wordByte w 4) (wordByte w 5)
      (wordByte w 6) (wordByte w 7) = w := by
  apply BitVec.eq_of_getLsbD_eq
  intro i hi
  simp only [wordOfBytes, wordByte, BitVec.getLsbD_append, BitVec.getLsbD_extractLsb']
  interval_cases i <;> simp

/-- The byte frame of a Word store: no byte outside the eight of the Word changes. -/
theorem Memory.readByte_writeWord_outside {m : Memory} (h : m.wf = true) (i : Nat) (v : Word) (b : Nat)
    (hb : b < 8 * i ∨ 8 * i + 8 ≤ b) : (m.writeWord i v).readByte b = m.readByte b := by
  rw [Memory.writeWord, Memory.readByte_writeBytes _ h, if_neg (by simp [wordBytes]; omega)]

/-- The Word law: a store is read back at its index, and no other Word changes. -/
theorem Memory.readWord_writeWord {m : Memory} (h : m.wf = true) (i j : Nat) (v : Word) :
    (m.writeWord i v).readWord j = if j = i then v else m.readWord j := by
  by_cases hj : j = i
  · subst hj
    rw [if_pos rfl]
    have hb : ∀ d, d < 8 → (m.writeWord j v).readByte (8 * j + d) = (wordBytes v).getD d 0 := by
      intro d hd
      rw [Memory.writeWord, Memory.readByte_writeBytes _ h, if_pos (by simp [wordBytes]; omega)]
      congr 1
      omega
    have h0 := hb 0 (by omega)
    simp only [Nat.add_zero] at h0
    rw [Memory.readWord, h0, hb 1 (by omega), hb 2 (by omega), hb 3 (by omega), hb 4 (by omega), hb 5 (by omega),
      hb 6 (by omega), hb 7 (by omega)]
    exact wordOfBytes_wordByte v
  · rw [if_neg hj]
    have hb : ∀ d, d < 8 → (m.writeWord i v).readByte (8 * j + d) = m.readByte (8 * j + d) := by
      intro d hd
      exact Memory.readByte_writeWord_outside h i v _ (by omega)
    have h0 := hb 0 (by omega)
    simp only [Nat.add_zero] at h0
    simp only [Memory.readWord]
    rw [h0, hb 1 (by omega), hb 2 (by omega), hb 3 (by omega), hb 4 (by omega), hb 5 (by omega), hb 6 (by omega),
      hb 7 (by omega)]

/-- Canonical memories that read the same are equal. -/
theorem Memory.ext_from (m : Memory) : ∀ n m', Memory.wfFrom n m = true → Memory.wfFrom n m' = true →
    (∀ a, Memory.readByte m a = Memory.readByte m' a) → m = m' := by
  induction m with
  | nil =>
    intro n m' _ h' he
    cases m' with
    | nil => rfl
    | cons c m' =>
      obtain ⟨k, b⟩ := c
      simp only [Memory.wfFrom, Bool.and_eq_true, decide_eq_true_eq] at h'
      have := he k
      simp [Memory.readByte_cons] at this
      exact absurd this.symm h'.1.2
  | cons c m ih =>
    obtain ⟨k, b⟩ := c
    intro n m' h h' he
    simp only [Memory.wfFrom, Bool.and_eq_true, decide_eq_true_eq] at h
    cases m' with
    | nil =>
      have := he k
      simp [Memory.readByte_cons] at this
      exact absurd this h.1.2
    | cons c' m' =>
      obtain ⟨k', b'⟩ := c'
      simp only [Memory.wfFrom, Bool.and_eq_true, decide_eq_true_eq] at h'
      have z : ∀ a, a < k + 1 → Memory.readByte m a = 0#8 := fun a ha => Memory.readByte_of_wfFrom m _ a h.2 ha
      have z' : ∀ a, a < k' + 1 → Memory.readByte m' a = 0#8 := fun a ha => Memory.readByte_of_wfFrom m' _ a h'.2 ha
      have hk : k = k' := by
        rcases Nat.lt_trichotomy k k' with hlt | heq | hgt
        · have := he k
          rw [Memory.readByte_cons, Memory.readByte_cons, if_pos rfl, if_neg (by omega), z' k (by omega)] at this
          exact absurd this h.1.2
        · exact heq
        · have := he k'
          rw [Memory.readByte_cons, Memory.readByte_cons, if_pos rfl, if_neg (by omega), z k' (by omega)] at this
          exact absurd this.symm h'.1.2
      subst hk
      have hb : b = b' := by
        have := he k
        simpa [Memory.readByte_cons] using this
      subst hb
      rw [ih (k + 1) m' h.2 h'.2]
      intro a
      by_cases ha : a = k
      · subst ha; rw [z a (by omega), z' a (by omega)]
      · have := he a
        rwa [Memory.readByte_cons, Memory.readByte_cons, if_neg (Ne.symm ha), if_neg (Ne.symm ha)] at this

theorem Memory.ext_wf {m m' : Memory} (h : m.wf = true) (h' : m'.wf = true)
    (he : ∀ a, m.readByte a = m'.readByte a) : m = m' := Memory.ext_from m 0 m' h h' he

/-- Writing a byte lists no address but the one written. -/
theorem Memory.mem_writeByte (m : Memory) :
    ∀ a v c, c ∈ Memory.writeByte m a v → c ∈ m ∨ c = (a, v) := by
  induction m with
  | nil =>
    intro a v c hc
    by_cases hv : v = 0#8 <;> simp [Memory.writeByte, hv] at hc
    exact .inr hc
  | cons d m ih =>
    obtain ⟨k, b⟩ := d
    intro a v c hc
    unfold Memory.writeByte at hc
    split at hc
    · split at hc
      · exact .inl hc
      · rcases List.mem_cons.1 hc with h | h
        · exact .inr h
        · exact .inl h
    · split at hc
      · split at hc
        · exact .inl (List.mem_cons_of_mem _ hc)
        · rcases List.mem_cons.1 hc with h | h
          · exact .inr h
          · exact .inl (List.mem_cons_of_mem _ h)
      · rcases List.mem_cons.1 hc with h | h
        · exact .inl (h ▸ List.mem_cons_self)
        · rcases ih a v c h with h | h
          · exact .inl (List.mem_cons_of_mem _ h)
          · exact .inr h

theorem Memory.mem_writeBytes (bs : List Byte) :
    ∀ (m : Memory) a c, c ∈ Memory.writeBytes m a bs → c ∈ m ∨ (a ≤ c.1 ∧ c.1 < a + bs.length) := by
  induction bs with
  | nil => intro m a c hc; exact .inl hc
  | cons x bs ih =>
    intro m a c hc
    rcases ih _ _ c hc with h | h
    · rcases Memory.mem_writeByte m a x c h with h | h
      · exact .inl h
      · exact .inr (by subst h; simp)
    · exact .inr (by simp only [List.length_cons]; omega)

/-- A Word store inside the array lists no byte outside it. -/
theorem Memory.bounded_writeWord {m : Memory} {n i : Nat} (h : ∀ c ∈ m, c.1 < 8 * n) (hi : i < n) (v : Word) :
    ∀ c ∈ m.writeWord i v, c.1 < 8 * n := by
  intro c hc
  rcases Memory.mem_writeBytes _ m _ c hc with h' | h'
  · exact h c h'
  · simp [wordBytes] at h'; omega

end Sys2Proof.Machine
end

