-- ==== Sys2Proof/Laws/Env.lean ====
section
/-! SUPPORT. What an action of another agent can do (spec/20_memory.md R63, R71; spec/60_exceptions.md R234): it
leaves the machine's private state and the launch state alone, and touches only data Words, lock cells and writers. -/

namespace Sys2Proof.Machine

theorem State.samePrivate_refl (s : State) : s.samePrivate s := by simp [State.samePrivate]

theorem State.samePrivate_trans {s t u : State} (h : s.samePrivate t) (h' : t.samePrivate u) : s.samePrivate u := by
  unfold State.samePrivate at *
  obtain ⟨a1, a2, a3, a4, a5, a6, a7, a8, a9, a10⟩ := h
  obtain ⟨b1, b2, b3, b4, b5, b6, b7, b8, b9, b10⟩ := h'
  simp_all

theorem State.sameLaunch_refl (s : State) : s.sameLaunch s := by simp [State.sameLaunch]

theorem State.sameLaunch_trans {s t u : State} (h : s.sameLaunch t) (h' : t.sameLaunch u) : s.sameLaunch u := by
  unfold State.sameLaunch at *
  obtain ⟨a1, a2, a3, a4, a5, a6⟩ := h
  obtain ⟨b1, b2, b3, b4, b5, b6⟩ := h'
  simp_all

/-- What the rest of the package needs of a change another agent makes: the machine's private state, the launch state
and the interleaving input are as before. -/
structure EnvChange (s t : State) : Prop where
  priv : s.samePrivate t
  launch : s.sameLaunch t
  env : t.env = s.env

theorem EnvChange.refl (s : State) : EnvChange s s := ⟨s.samePrivate_refl, s.sameLaunch_refl, rfl⟩

theorem EnvChange.trans {s t u : State} (h : EnvChange s t) (h' : EnvChange t u) : EnvChange s u :=
  ⟨State.samePrivate_trans h.priv h'.priv, State.sameLaunch_trans h.launch h'.launch, h'.env.trans h.env⟩

theorem EnvChange.setWordAt (s : State) (i : Nat) (v : Word) : EnvChange s (s.setWordAt i v) := by
  unfold State.setWordAt
  split
  · exact ⟨by simp [State.samePrivate], by simp [State.sameLaunch], rfl⟩
  · exact .refl s

theorem EnvChange.setCell (s : State) (l : LockId) (c : LockCell) : EnvChange s (s.setCell l c) :=
  ⟨by simp [State.samePrivate], by simp [State.sameLaunch], rfl⟩

/-- Replacing a writer by one with the same configuration. -/
theorem EnvChange.setWriter {s : State} {k : AgentId} {w w' : Writer} (h : s.writerAt k = some w)
    (hc : w'.cfg = w.cfg) : EnvChange s (s.setWriter k w') := by
  refine ⟨by simp [State.samePrivate], ?_, rfl⟩
  have hw : s.writers[k - 1]? = some w := by
    unfold State.writerAt at h
    split at h
    · simp at h
    · exact h
  refine ⟨rfl, rfl, rfl, rfl, rfl, ?_⟩
  simp only [State.setWriter_writers, List.map_set, hc]
  apply List.ext_getElem?
  intro n
  by_cases hn : n = k - 1
  · subst hn
    have hlt : k - 1 < s.writers.length := by
      rw [List.getElem?_eq_some_iff] at hw
      exact hw.1
    obtain ⟨_, he⟩ := List.getElem?_eq_some_iff.1 hw
    simp [hlt, he]
  · simp [Ne.symm hn]

theorem State.portDo_change (s : State) (a : AgentId) (op : PortOp) : EnvChange s (s.portDo a op).2 := by
  have hl : ∀ l op, EnvChange s (s.portLock a l op).2 := by
    intro l op
    unfold State.portLock
    split
    · exact .refl s
    · exact .setCell s _ _
  unfold State.portDo
  split
  · exact .refl s
  · split <;> try exact hl _ _
    · unfold State.portRead; split <;> exact .refl s
    · unfold State.portWrite
      split
      · exact .refl s
      · exact .setWordAt s _ _
    · unfold State.portCas
      split
      · exact .refl s
      · dsimp only
        split
        · exact .setWordAt s _ _
        · exact .refl s
    · exact .refl s

@[simp] theorem Writer.fail_cfg (w : Writer) : w.fail.cfg = w.cfg := rfl
@[simp] theorem Writer.toPair_cfg (w : Writer) (j : Nat) : (w.toPair j).cfg = w.cfg := rfl
@[simp] theorem Writer.toBlock_cfg (w : Writer) (s : State) (b : Nat) : (w.toBlock s b).cfg = w.cfg := by
  unfold Writer.toBlock; split <;> rfl
@[simp] theorem Writer.doFlush_cfg (w : Writer) (r : SinkReply) : (w.doFlush r).cfg = w.cfg := by
  cases r <;> rfl

/-- One writer action: the writer keeps its configuration, and the state changes as a port may change it. -/
theorem Writer.act_change (k : AgentId) (w : Writer) (r : SinkReply) (s : State) :
    (w.act k r s).1.cfg = w.cfg ∧ EnvChange s (w.act k r s).2 ∧ (w.act k r s).2.writers = s.writers := by
  have hs : ∀ i v, (s.setWordAt i v).writers = s.writers := by
    intro i v; unfold State.setWordAt; split <;> rfl
  unfold Writer.act
  split
  · unfold Writer.doHandoff
    split
    · exact ⟨rfl, .refl s, rfl⟩
    · split
      · exact ⟨rfl, .refl s, rfl⟩
      · exact ⟨rfl, .setCell s _ _, rfl⟩
  · unfold Writer.doTestClear
    split
    · exact ⟨rfl, .refl s, rfl⟩
    · split
      · exact ⟨rfl, .setWordAt s _ _, hs _ _⟩
      · exact ⟨rfl, .refl s, rfl⟩
  · unfold Writer.doReadOff
    split <;> exact ⟨rfl, .refl s, rfl⟩
  · unfold Writer.doReadLen
    split
    · exact ⟨rfl, .refl s, rfl⟩
    · dsimp only
      split
      · exact ⟨rfl, .refl s, rfl⟩
      · split
        · exact ⟨by simp, .refl s, rfl⟩
        · exact ⟨rfl, .refl s, rfl⟩
  · unfold Writer.doAcquire
    split
    · exact ⟨rfl, .refl s, rfl⟩
    · split
      · exact ⟨rfl, .refl s, rfl⟩
      · split
        · exact ⟨rfl, .refl s, rfl⟩
        · exact ⟨rfl, .setCell s _ _, rfl⟩
  · unfold Writer.doCopy
    split
    · exact ⟨rfl, .refl s, rfl⟩
    · dsimp only
      split <;> exact ⟨rfl, .refl s, rfl⟩
  · unfold Writer.doRelease
    split
    · exact ⟨rfl, .refl s, rfl⟩
    · split
      · exact ⟨rfl, .refl s, rfl⟩
      · split
        · exact ⟨rfl, .refl s, rfl⟩
        · exact ⟨by dsimp only; split <;> simp, .setCell s _ _, rfl⟩
  · exact ⟨Writer.doFlush_cfg w r, .refl s, rfl⟩
  · exact ⟨rfl, .setWordAt s _ _, hs _ _⟩

theorem State.writerAt_congr {s t : State} (h : t.writers = s.writers) (k : AgentId) :
    t.writerAt k = s.writerAt k := by simp [State.writerAt, h]

/-- An action of another agent leaves the machine's private state and the launch state alone. -/
theorem State.envAct_change (s : State) (a : EnvAction) : EnvChange s (s.envAct a) := by
  cases a with
  | writer k r =>
    show EnvChange s (s.writerAct k r)
    unfold State.writerAct
    split
    · exact .refl s
    · rename_i w hw
      split
      · obtain ⟨h1, h2, h3⟩ := Writer.act_change k w r s
        exact h2.trans (EnvChange.setWriter (State.writerAt_congr h3 k ▸ hw) h1)
      · exact .refl s
  | handOver k n =>
    show EnvChange s (s.writerHandOver k n)
    unfold State.writerHandOver
    split
    · exact .refl s
    · rename_i w hw
      split
      · exact EnvChange.setWriter hw rfl
      · exact .refl s
  | port a op => exact s.portDo_change a op

theorem State.envActs_change (acts : List EnvAction) : ∀ s : State, EnvChange s (s.envActs acts) := by
  induction acts with
  | nil => intro s; exact .refl s
  | cons a acts ih => intro s; exact (s.envAct_change a).trans (ih _)

@[simp] theorem State.interfere_alone {s : State} (h : s.env = []) : s.interfere = s := by
  simp [State.interfere, h]

theorem State.interfere_env (s : State) : s.interfere.env = s.env.tail := by
  unfold State.interfere
  split
  · rename_i h; simp [h]
  · rename_i acts rest h
    rw [(State.envActs_change acts _).env, h]; rfl

theorem State.interfere_private (s : State) : s.samePrivate s.interfere := by
  unfold State.interfere
  split
  · exact s.samePrivate_refl
  · exact State.samePrivate_trans (by simp [State.samePrivate]) (State.envActs_change _ _).priv

theorem State.interfere_launch (s : State) : s.sameLaunch s.interfere := by
  unfold State.interfere
  split
  · exact s.sameLaunch_refl
  · exact State.sameLaunch_trans (by simp [State.sameLaunch]) (State.envActs_change _ _).launch

@[simp] theorem State.interfere_ip (s : State) : s.interfere.ip = s.ip := s.interfere_private.1
@[simp] theorem State.interfere_sp (s : State) : s.interfere.sp = s.sp := s.interfere_private.2.1
@[simp] theorem State.interfere_dp (s : State) : s.interfere.dp = s.dp := s.interfere_private.2.2.1
@[simp] theorem State.interfere_status (s : State) : s.interfere.status = s.status := s.interfere_private.2.2.2.1
@[simp] theorem State.interfere_cause (s : State) : s.interfere.cause = s.cause := s.interfere_private.2.2.2.2.1
@[simp] theorem State.interfere_op (s : State) : s.interfere.op = s.op := s.interfere_private.2.2.2.2.2.1
@[simp] theorem State.interfere_mag (s : State) : s.interfere.mag = s.mag := s.interfere_private.2.2.2.2.2.2.1
@[simp] theorem State.interfere_src (s : State) : s.interfere.src = s.src := s.interfere_private.2.2.2.2.2.2.2.1
@[simp] theorem State.interfere_dst (s : State) : s.interfere.dst = s.dst := s.interfere_private.2.2.2.2.2.2.2.2.1
@[simp] theorem State.interfere_phase (s : State) : s.interfere.phase = s.phase := s.interfere_private.2.2.2.2.2.2.2.2.2
@[simp] theorem State.interfere_code (s : State) : s.interfere.code = s.code := s.interfere_launch.1
@[simp] theorem State.interfere_dataLen (s : State) : s.interfere.dataLen = s.dataLen := s.interfere_launch.2.1
@[simp] theorem State.interfere_lt (s : State) : s.interfere.lt = s.lt := s.interfere_launch.2.2.1
@[simp] theorem State.interfere_params (s : State) : s.interfere.params = s.params := s.interfere_launch.2.2.2.1

end Sys2Proof.Machine
end

