-- ==== Sys2Proof/Laws/Phases.lean ====
section
/-! SUPPORT. What each phase of a step can do, and how the phases chain (spec/40_step_common.md R100 to R113). -/

namespace Sys2Proof.Machine

@[simp] theorem State.orFault_ok (s t : State) : s.orFault (.ok t) = t := rfl
@[simp] theorem State.orFault_error (s : State) (f : Fault) : s.orFault (.error f) = s.takeFault f := rfl

/-! ## The bounds test -/

theorem index?_some {len : Nat} {c : Word} (h : 0 ≤ c.toInt ∧ c.toInt < len) : index? len c = some c.toNat := by
  simp [index?, h.1, h.2]

theorem index?_none {len : Nat} {c : Word} (h : ¬(0 ≤ c.toInt ∧ c.toInt < len)) : index? len c = none := by
  unfold index?
  rw [if_neg h]

theorem index?_eq_some {len : Nat} {c : Word} {i : Nat} :
    index? len c = some i ↔ (0 ≤ c.toInt ∧ c.toInt < len) ∧ i = c.toNat := by
  unfold index?
  split
  · rename_i h
    simp only [Option.some.injEq]
    exact ⟨fun e => ⟨h, e.symm⟩, fun e => e.2.symm⟩
  · rename_i h
    simp only [reduceCtorEq, false_iff]
    exact fun e => h e.1

/-- An index the test gives lies below the length. -/
theorem index?_lt {len : Nat} {c : Word} {i : Nat} (h : index? len c = some i) : i < len := by
  obtain ⟨⟨h1, h2⟩, rfl⟩ := index?_eq_some.1 h
  have : c.toInt = c.toNat := by
    rw [BitVec.toInt_eq_toNat_cond] at h1 ⊢
    split
    · rfl
    · rename_i hx
      rw [if_neg hx] at h1
      have := c.isLt
      omega
  omega

theorem State.memRead_ok {s : State} {c : Word} (h : s.inData c) (f : Fault) :
    s.memRead c f = .ok (s.wordOf c) := by
  simp [State.memRead, index?_some h, State.wordOf]

theorem State.memRead_error {s : State} {c : Word} (h : ¬s.inData c) (f : Fault) : s.memRead c f = .error f := by
  simp [State.memRead, index?_none h]

theorem State.memWrite_ok {s : State} {c : Word} (h : s.inData c) (v : Word) (f : Fault) :
    s.memWrite c v f = .ok { s with data := s.data.writeWord c.toNat v } := by
  simp [State.memWrite, index?_some h]

theorem State.memWrite_error {s : State} {c : Word} (h : ¬s.inData c) (v : Word) (f : Fault) :
    s.memWrite c v f = .error f := by simp [State.memWrite, index?_none h]

/-- `inData` depends on DATA_LEN alone. -/
theorem State.inData_congr {s t : State} (h : t.dataLen = s.dataLen) (c : Word) : t.inData c ↔ s.inData c := by
  simp [State.inData, h]

/-! ## The phases one by one -/

theorem State.eload_ok {s : State} (h : s.inData s.sp) :
    s.eload = .ok { s with mag := s.wordOf s.sp, sp := s.sp - 1, phase := .loadSrc } := by
  simp [State.eload, State.memRead_ok h]

theorem State.eload_error {s : State} (h : ¬s.inData s.sp) : s.eload = .error .spRange := by
  simp [State.eload, State.memRead_error h]

theorem State.loadSrc_ok {s : State} (h : s.inData s.sp) :
    s.loadSrc = .ok { s with src := s.wordOf s.sp, phase := .loadDst } := by
  simp [State.loadSrc, State.memRead_ok h]

theorem State.loadSrc_error {s : State} (h : ¬s.inData s.sp) : s.loadSrc = .error .spRange := by
  simp [State.loadSrc, State.memRead_error h]

theorem State.loadDst_ok {s : State} (h : s.inData s.dp) :
    s.loadDst = .ok { s with dst := s.wordOf s.dp, phase := .exec } := by
  simp [State.loadDst, State.memRead_ok h]

theorem State.loadDst_error {s : State} (h : ¬s.inData s.dp) : s.loadDst = .error .dpRange := by
  simp [State.loadDst, State.memRead_error h]

/-- MWAIT when the handoff wait answers (R104). -/
theorem State.mwait_of_handoff {s t : State} {f : Flags} {got : Bool} (h : s.machineHandoff s.dp = .ok (got, t)) :
    s.mwait f = .ok (if s.params.mwaitRetry && !got then t else { t with phase := phaseAfterMwait f }) := by
  unfold State.mwait
  rw [h]
  dsimp only
  split <;> rfl

theorem State.mwait_of_fault {s : State} {f : Flags} {e : Fault} (h : s.machineHandoff s.dp = .error e) :
    s.mwait f = .error e := by simp [State.mwait, h]

theorem State.execute_eligible {s : State} {f : Flags} (act : State → Except Fault State)
    (h : eligible f s.src s.dst = true) : s.execute f act = act { s with mag := appliedMag f s.mag } := by
  simp [State.execute, h]

theorem State.execute_ineligible {s : State} {f : Flags} (act : State → Except Fault State)
    (h : eligible f s.src s.dst = false) : s.execute f act = .ok s.advance := by
  simp [State.execute, h]

/-! ## Chaining -/

theorem State.atPhase_skip {s : State} {p : Phase} (g : State → Except Fault State)
    (h : s.status ≠ .running ∨ s.phase ≠ p) : s.atPhase p g = s := by
  unfold State.atPhase
  rw [if_neg]
  rintro ⟨h1, h2⟩
  rcases h with h | h
  · exact h h1
  · exact h h2

theorem State.atPhase_run {s : State} {p : Phase} (g : State → Except Fault State) (h1 : s.status = .running)
    (h2 : s.phase = p) : s.atPhase p g = (s.orFault (g s)).interfere := by
  unfold State.atPhase
  rw [if_pos ⟨h1, h2⟩]

/-- A phase of a machine that no other agent disturbs. -/
theorem State.atPhase_ok {s t : State} {p : Phase} {g : State → Except Fault State} (h1 : s.status = .running)
    (h2 : s.phase = p) (h3 : g s = .ok t) (h4 : t.env = []) : s.atPhase p g = t := by
  rw [State.atPhase_run g h1 h2, h3, State.orFault_ok, State.interfere_alone h4]

/-- A faulting phase of a machine that no other agent disturbs. -/
theorem State.atPhase_fault {s : State} {p : Phase} {g : State → Except Fault State} {f : Fault}
    (h1 : s.status = .running) (h2 : s.phase = p) (h3 : g s = .error f) (h4 : s.env = []) :
    s.atPhase p g = s.takeFault f := by
  rw [State.atPhase_run g h1 h2, h3, State.orFault_error, State.interfere_alone (by simpa using h4)]

/-- ELOAD of an undisturbed step. -/
theorem State.atPhase_eload {s : State} (h1 : s.status = .running) (h2 : s.phase = .eload) (h3 : s.env = [])
    (h4 : s.inData s.sp) :
    s.atPhase .eload State.eload = { s with mag := s.wordOf s.sp, sp := s.sp - 1, phase := .loadSrc } :=
  State.atPhase_ok h1 h2 (State.eload_ok h4) h3

/-- LOADSRC of an undisturbed step. -/
theorem State.atPhase_loadSrc {s : State} (h1 : s.status = .running) (h2 : s.phase = .loadSrc) (h3 : s.env = [])
    (h4 : s.inData s.sp) :
    s.atPhase .loadSrc State.loadSrc = { s with src := s.wordOf s.sp, phase := .loadDst } :=
  State.atPhase_ok h1 h2 (State.loadSrc_ok h4) h3

/-- LOADDST of an undisturbed step. -/
theorem State.atPhase_loadDst {s : State} (h1 : s.status = .running) (h2 : s.phase = .loadDst) (h3 : s.env = [])
    (h4 : s.inData s.dp) :
    s.atPhase .loadDst State.loadDst = { s with dst := s.wordOf s.dp, phase := .exec } :=
  State.atPhase_ok h1 h2 (State.loadDst_ok h4) h3

/-- A machine that has stopped takes no phase. -/
theorem State.runPhases_stopped {s : State} (op : Byte) (f : Flags) (act : State → Except Fault State)
    (h : s.status ≠ .running) : s.runPhases op f act = s := by
  unfold State.runPhases
  rw [State.atPhase_skip _ (.inl h), State.atPhase_skip _ (.inl h), State.atPhase_skip _ (.inl h),
    State.atPhase_skip _ (.inl h), State.atPhase_skip _ (.inl h), State.atPhase_skip _ (.inl h),
    State.atPhase_skip _ (.inl h)]

/-- `exec` always answers a next state. -/
theorem exec_next (i : Instr) (s : State) : ∃ t, exec i s = .next t := by
  cases i <;> exact ⟨_, rfl⟩

/-- `exec` of each instruction is its phases with its selector's action. -/
theorem exec_eq (i : Instr) (s : State) :
    exec i s = .next (s.runPhases (encodeByte i) i.flags (selectorAction i.selector)) := by
  cases i <;> rfl

end Sys2Proof.Machine
end

