-- ==== Sys2Proof/Laws/Agents.lean ====
section
/-! SUPPORT. What one atomic action of each agent can do to the lock cells and to the data array (spec/20_memory.md R61,
R63): the machine's, a writer's, and a port agent's. -/

namespace Sys2Proof.Machine

@[simp] theorem State.setWordAt_cells (s : State) (i : Nat) (v : Word) : (s.setWordAt i v).cells = s.cells := by
  unfold State.setWordAt; split <;> rfl

/-- A store at a data index: inside the array it is one Word, outside it is nothing. -/
theorem State.setWordAt_data (s : State) (i : Nat) (v : Word) :
    (s.setWordAt i v).data = if i < s.dataLen then s.data.writeWord i v else s.data := by
  unfold State.setWordAt; split <;> rfl

/-! ## The writer -/

/-- Everything one writer action can do to the lock cells (R193, R196). -/
theorem Writer.act_cells (k : AgentId) (w : Writer) (r : SinkReply) (s : State) :
    (w.act k r s).2.cells = s.cells ∨
    ∃ l c c', s.cells[l]? = some c ∧ (w.act k r s).2.cells = s.cells.set l c' ∧
      ((w.pos = .handoff ∧ w.cfg.lock = l ∧ ∃ got, c.handoffWait s.params.relFree k = .ok (got, c')) ∨
       (∃ b, w.pos = .acquire b ∧ s.lockOfBlock b = some l ∧ c.acqShared = some c') ∨
       (∃ b, w.pos = .release b ∧ s.lockOfBlock b = some l ∧ c.relShared = some c')) := by
  unfold Writer.act
  split
  · rename_i hp
    unfold Writer.doHandoff
    split
    · exact .inl rfl
    · rename_i c hc
      split
      · exact .inl rfl
      · rename_i got c' hw
        exact .inr ⟨_, c, c', hc, rfl, .inl ⟨hp, rfl, got, hw⟩⟩
  · unfold Writer.doTestClear
    split
    · exact .inl rfl
    · split
      · exact .inl (by simp)
      · exact .inl rfl
  · unfold Writer.doReadOff; split <;> exact .inl rfl
  · unfold Writer.doReadLen
    split
    · exact .inl rfl
    · dsimp only
      split
      · exact .inl rfl
      · split <;> exact .inl rfl
  · rename_i b hp
    unfold Writer.doAcquire
    split
    · exact .inl rfl
    · rename_i l hl
      split
      · exact .inl rfl
      · rename_i c hc
        split
        · exact .inl rfl
        · rename_i c' hs
          exact .inr ⟨l, c, c', hc, rfl, .inr (.inl ⟨b, hp, hl, hs⟩)⟩
  · unfold Writer.doCopy
    split
    · exact .inl rfl
    · dsimp only
      split <;> exact .inl rfl
  · rename_i b hp
    unfold Writer.doRelease
    split
    · exact .inl rfl
    · rename_i l hl
      split
      · exact .inl rfl
      · rename_i c hc
        split
        · exact .inl rfl
        · rename_i c' hs
          exact .inr ⟨l, c, c', hc, rfl, .inr (.inr ⟨b, hp, hl, hs⟩)⟩
  · exact .inl rfl
  · exact .inl (by simp [Writer.doZero])

/-- Everything one writer action can do to the data array (R194, R199): the flag word or one control Word becomes 0. -/
theorem Writer.act_data (k : AgentId) (w : Writer) (r : SinkReply) (s : State) :
    (w.act k r s).2.data = s.data ∨
    ∃ i, i < s.dataLen ∧ (w.act k r s).2.data = s.data.writeWord i 0 ∧
      ((w.pos = .testClear ∧ i = flagIndex w.cfg) ∨ ∃ j, w.pos = .zero j ∧ i = w.cfg.ctrlBase + j) := by
  unfold Writer.act
  split
  · unfold Writer.doHandoff
    split
    · exact .inl rfl
    · split <;> exact .inl rfl
  · rename_i hp
    unfold Writer.doTestClear State.wordAt
    split
    · exact .inl rfl
    · rename_i old h
      have hi : flagIndex w.cfg < s.dataLen := by
        by_contra hn
        rw [if_neg hn] at h
        cases h
      split
      · exact .inr ⟨_, hi, by rw [State.setWordAt_data, if_pos hi], .inl ⟨hp, rfl⟩⟩
      · exact .inl rfl
  · unfold Writer.doReadOff; split <;> exact .inl rfl
  · unfold Writer.doReadLen
    split
    · exact .inl rfl
    · dsimp only
      split
      · exact .inl rfl
      · split <;> exact .inl rfl
  · unfold Writer.doAcquire
    split
    · exact .inl rfl
    · split
      · exact .inl rfl
      · split <;> exact .inl rfl
  · unfold Writer.doCopy
    split
    · exact .inl rfl
    · dsimp only
      split <;> exact .inl rfl
  · unfold Writer.doRelease
    split
    · exact .inl rfl
    · split
      · exact .inl rfl
      · split <;> exact .inl rfl
  · exact .inl rfl
  · rename_i j hp
    by_cases hi : w.cfg.ctrlBase + j < s.dataLen
    · exact .inr ⟨_, hi, by simp only [Writer.doZero]; rw [State.setWordAt_data, if_pos hi], .inr ⟨j, hp, rfl⟩⟩
    · exact .inl (by simp only [Writer.doZero]; rw [State.setWordAt_data, if_neg hi])

/-! ## The machine -/

/-- Everything one machine action can do to the lock cells (R160): the handoff wait of MWAIT, or the release of
XHANDOFF. -/
theorem State.machineAct_cells (s : State) :
    s.machineAct.cells = s.cells ∨
    (s.status = .running ∧ s.phase = .mwait ∧ ∃ l c c' got, s.lockFor s.dp = some l ∧ s.cells[l]? = some c ∧
      c.handoffWait s.params.relFree machineId = .ok (got, c') ∧ s.machineAct.cells = s.cells.set l c') ∨
    (s.status = .running ∧ s.phase = .xhandoff ∧ ∃ l c a, s.lockFor s.dp = some l ∧ l ≠ ownLock ∧
      s.cells[l]? = some c ∧ c.claim = some a ∧ a ≠ machineId ∧ s.machineAct.cells = s.cells.set l c.cleared) := by
  unfold State.machineAct
  split
  · unfold State.fetchAct
    split <;> exact .inl rfl
  · rename_i h1 h2
    cases hm : s.mwait (decodeByte s.op).flags with
    | error e => exact .inl rfl
    | ok t =>
      unfold State.mwait at hm
      split at hm
      · cases hm
      · rename_i got u hh
        obtain ⟨l, c, c', hl, hc, hw, rfl⟩ := State.machineHandoff_ok hh
        refine .inr (.inl ⟨h1, h2, l, c, c', got, hl, hc, hw, ?_⟩)
        split at hm <;> cases hm <;> rfl
  · unfold State.eload
    split <;> exact .inl rfl
  · unfold State.loadSrc
    split <;> exact .inl rfl
  · unfold State.loadDst
    split <;> exact .inl rfl
  · unfold State.execute
    split
    · cases (decodeByte s.op).selector with
      | src => exact .inl rfl
      | dst => exact .inl rfl
      | code => exact .inl rfl
      | value =>
        simp only [selectorAction, valueAction, State.memWrite]
        split
        · exact .inl rfl
        · rename_i t hm
          split at hm
          · cases hm
            unfold State.afterStore
            left
            split <;> rfl
          · cases hm
    · exact .inl rfl
  · rename_i h1 h2
    rcases s.crossBlockHandoff_cases with h | ⟨l, c, a, e1, e2, e3, e4, e5, h⟩
    · exact .inl (by simp [State.xhandoff, h])
    · exact .inr (.inr ⟨h1, h2, l, c, a, e1, e2, e3, e4, e5, by simp [State.xhandoff, h]⟩)
  · exact .inl rfl
  · exact .inl rfl

/-! ## A port agent -/

/-- Everything a port operation can do to the lock cells (R174): nothing, or its cell operation on one cell. -/
theorem State.portDo_cells (s : State) (a : AgentId) (op : PortOp) :
    (s.portDo a op).2.cells = s.cells ∨
    a ≠ machineId ∧ ∃ l c, s.cells[l]? = some c ∧
      (s.portDo a op).2.cells = s.cells.set l (c.portOp s.params.relFree a op).2 ∧
      (op = .tryExcl l ∨ op = .relExcl l ∨ op = .acqShared l ∨ op = .relShared l ∨ op = .handoffWait l) := by
  unfold State.portDo
  split
  · exact .inl rfl
  · rename_i ha
    have hl : ∀ l op, (s.portLock a l op).2.cells = s.cells ∨ ∃ c, s.cells[l]? = some c ∧
        (s.portLock a l op).2.cells = s.cells.set l (c.portOp s.params.relFree a op).2 := by
      intro l op
      unfold State.portLock
      split
      · exact .inl rfl
      · rename_i c hc
        exact .inr ⟨c, hc, rfl⟩
    have hr : ∀ i, (s.portRead i).2.cells = s.cells := by
      intro i; unfold State.portRead; split <;> rfl
    have hw : ∀ i v, (s.portWrite i v).2.cells = s.cells := by
      intro i v; unfold State.portWrite; split <;> simp
    have hc : ∀ i e n, (s.portCas i e n).2.cells = s.cells := by
      intro i e n
      unfold State.portCas
      split
      · rfl
      · dsimp only; split <;> simp
    cases op with
    | memRead i => exact .inl (hr i)
    | memWrite i v => exact .inl (hw i v)
    | memCas i e n => exact .inl (hc i e n)
    | lockFor i => exact .inl rfl
    | tryExcl l =>
      rcases hl l (.tryExcl l) with h | ⟨c, hc, h⟩
      · exact .inl h
      · exact .inr ⟨ha, l, c, hc, h, by simp⟩
    | relExcl l =>
      rcases hl l (.relExcl l) with h | ⟨c, hc, h⟩
      · exact .inl h
      · exact .inr ⟨ha, l, c, hc, h, by simp⟩
    | acqShared l =>
      rcases hl l (.acqShared l) with h | ⟨c, hc, h⟩
      · exact .inl h
      · exact .inr ⟨ha, l, c, hc, h, by simp⟩
    | relShared l =>
      rcases hl l (.relShared l) with h | ⟨c, hc, h⟩
      · exact .inl h
      · exact .inr ⟨ha, l, c, hc, h, by simp⟩
    | handoffWait l =>
      rcases hl l (.handoffWait l) with h | ⟨c, hc, h⟩
      · exact .inl h
      · exact .inr ⟨ha, l, c, hc, h, by simp⟩

end Sys2Proof.Machine
end

