-- ==== Sys2Proof/Laws/Boot.lean ====
section
/-! SUPPORT. What loading the data array leaves (spec/70_reset_and_hazards.md R251): canonical memory that holds the
loaded Words. -/

namespace Sys2Proof.Machine

/-- Listing one more byte below a canonical rest, unless it is 0, is canonical. -/
theorem Memory.wfFrom_filter_cons {n : Nat} {v : Byte} {l m : Memory}
    (h : Memory.wfFrom (n + 1) (l.filter (fun c => c.2 != 0) ++ m) = true) :
    Memory.wfFrom n (((n, v) :: l).filter (fun c => c.2 != 0) ++ m) = true := by
  rw [List.filter_cons]
  split
  · rename_i hv
    have hv' : v ≠ 0#8 := by simpa using hv
    rw [List.cons_append]
    unfold Memory.wfFrom
    rw [h]
    simp [hv']
  · exact Memory.wfFrom_mono _ _ _ (Nat.le_succ n) h

/-- Reading it gives that byte at its address, and the rest elsewhere. -/
theorem Memory.readByte_filter_cons {n : Nat} {v : Byte} {l m : Memory}
    (h : Memory.wfFrom (n + 1) (l.filter (fun c => c.2 != 0) ++ m) = true) (b : Nat) :
    Memory.readByte (((n, v) :: l).filter (fun c => c.2 != 0) ++ m) b =
      if b = n then v else Memory.readByte (l.filter (fun c => c.2 != 0) ++ m) b := by
  rw [List.filter_cons]
  split
  · rw [List.cons_append, Memory.readByte_cons]
    by_cases hb : b = n
    · rw [if_pos hb, if_pos hb.symm]
    · rw [if_neg hb, if_neg (Ne.symm hb)]
  · rename_i hv
    split
    · rename_i hb
      subst hb
      rw [Memory.readByte_of_wfFrom _ _ _ h (Nat.lt_succ_self b)]
      simpa using (Eq.symm (by simpa using hv : v = 0))
    · rfl

/-- The bytes of one Word, written out. -/
theorem Memory.wordCells_eq (a : Nat) (w : Word) :
    Memory.wordCells a w =
      [(8 * a, wordByte w 0), (8 * a + 1, wordByte w 1), (8 * a + 2, wordByte w 2), (8 * a + 3, wordByte w 3),
        (8 * a + 4, wordByte w 4), (8 * a + 5, wordByte w 5), (8 * a + 6, wordByte w 6),
        (8 * a + 7, wordByte w 7)].filter fun c => c.2 != 0 := rfl

theorem Memory.wfFrom_wordCells {a : Nat} {m : Memory} (h : Memory.wfFrom (8 * a + 8) m = true) (w : Word) :
    Memory.wfFrom (8 * a) (Memory.wordCells a w ++ m) = true := by
  rw [Memory.wordCells_eq]
  iterate 8 apply Memory.wfFrom_filter_cons
  exact h

/-- The memory that holds the Words of a list is canonical. -/
theorem Memory.wfFrom_load (ws : List Word) : ∀ a, Memory.wfFrom (8 * a) (Memory.load a ws) = true := by
  induction ws with
  | nil => intro a; rfl
  | cons w ws ih => intro a; exact Memory.wfFrom_wordCells (by simpa [Nat.mul_add] using ih (a + 1)) w

theorem Memory.wf_load (ws : List Word) : (Memory.load 0 ws).wf = true := Memory.wfFrom_load ws 0

/-- Reading a byte of one Word, or of what follows it. -/
theorem Memory.readByte_wordCells {a : Nat} {m : Memory} (h : Memory.wfFrom (8 * a + 8) m = true) (w : Word)
    (b : Nat) :
    Memory.readByte (Memory.wordCells a w ++ m) b =
      if 8 * a ≤ b ∧ b < 8 * a + 8 then wordByte w (b - 8 * a) else Memory.readByte m b := by
  rw [Memory.wordCells_eq]
  iterate 8
    rw [Memory.readByte_filter_cons (by
      first
        | exact h
        | (iterate 7 apply Memory.wfFrom_filter_cons); exact h
        | (iterate 6 apply Memory.wfFrom_filter_cons); exact h
        | (iterate 5 apply Memory.wfFrom_filter_cons); exact h
        | (iterate 4 apply Memory.wfFrom_filter_cons); exact h
        | (iterate 3 apply Memory.wfFrom_filter_cons); exact h
        | (iterate 2 apply Memory.wfFrom_filter_cons); exact h
        | apply Memory.wfFrom_filter_cons; exact h)]
  by_cases hb : 8 * a ≤ b ∧ b < 8 * a + 8
  · rw [if_pos hb]
    obtain ⟨d, rfl⟩ := Nat.exists_eq_add_of_le hb.1
    have hd : d < 8 := by omega
    rw [Nat.add_sub_cancel_left]
    interval_cases d <;> simp
  · rw [if_neg hb]
    iterate 8 rw [if_neg (by omega)]
    rfl

/-- Every Word of a loaded list reads back at its index. -/
theorem Memory.readWord_load (ws : List Word) :
    ∀ a i w, ws[i]? = some w → (Memory.load a ws).readWord (a + i) = w := by
  induction ws with
  | nil => intro a i w h; simp at h
  | cons v ws ih =>
    intro a i w h
    have hwf : Memory.wfFrom (8 * a + 8) (Memory.load (a + 1) ws) = true := by
      simpa [Nat.mul_add] using Memory.wfFrom_load ws (a + 1)
    cases i with
    | zero =>
      simp only [List.getElem?_cons_zero, Option.some.injEq] at h
      subst h
      simp only [Memory.load, Memory.readWord, Memory.readByte_wordCells hwf]
      simp
    | succ j =>
      have := ih (a + 1) j w (by simpa using h)
      rw [Nat.add_right_comm, Nat.add_assoc] at this
      rw [← this]
      simp only [Memory.load, Memory.readWord, Memory.readByte_wordCells hwf]
      iterate 8 rw [if_neg (by omega)]

/-- The memory of the reset state is canonical. -/
theorem State.reset_memory_wf : State.reset.data.wf = true := rfl

end Sys2Proof.Machine
end

