-- ==== Sys2Proof/Laws/Chain.lean ====
section
/-! SUPPORT. A step that no other agent disturbs, up to EXEC (spec/40_step_common.md R100 to R107): what the state is
when EXEC begins. -/

namespace Sys2Proof.Machine

/-- The state of an undisturbed step at EXEC: the latches are filled, the lock cells are those past MWAIT, `sp` has
been lowered by Extend. -/
def State.atExec (s : State) (op : Byte) (f : Flags) (cells : List LockCell) : State :=
  { s with
    op := op, mag := s.loadedMag f, src := s.wordOf (s.operandSp f), dst := s.wordOf s.dp, sp := s.operandSp f,
    cells := cells, phase := .exec }

/-- The first two phases of an undisturbed step that MWAIT lets go on. -/
theorem State.chain_mwait {s : State} {op : Byte} {f : Flags} {cs : List LockCell} (h1 : s.ready) (h2 : s.alone)
    (h3 : s.cellsPastMwait f = some cs) :
    (s.atPhase .fetch (fun t => .ok (t.latch op f))).atPhase .mwait (State.mwait f)
      = { s with op := op, mag := 1, cells := cs, phase := phaseAfterMwait f } := by
  obtain ⟨hr, hp⟩ := h1
  replace h2 : s.env = [] := h2
  have e0 : s.atPhase .fetch (fun t => .ok (t.latch op f)) = s.latch op f :=
    State.atPhase_ok hr hp rfl (by simpa using h2)
  rw [e0]
  unfold State.cellsPastMwait at h3
  by_cases hm : f.mutexWait = true
  · rw [if_pos hm] at h3
    split at h3
    · rename_i got t hh
      split at h3
      · simp at h3
      · rename_i hgo
        obtain ⟨l, c, c', hl, hc, hw, rfl⟩ := State.machineHandoff_ok hh
        simp only [Option.some.injEq, State.setCell_cells] at h3
        subst h3
        have hh' : (s.latch op f).machineHandoff (s.latch op f).dp = .ok (got, (s.latch op f).setCell l c') :=
          State.machineHandoff_eq (by rw [← hl]; exact State.lockFor_congr rfl rfl _) hc hw
        refine State.atPhase_ok hr (by simp [phaseAfterFetch, hm])
          (t := { (s.latch op f).setCell l c' with phase := phaseAfterMwait f }) ?_ (by simpa using h2)
        rw [State.mwait_of_handoff hh']
        have : (s.latch op f).params = s.params := rfl
        rw [this, if_neg hgo]
    · simp at h3
  · rw [if_neg hm] at h3
    simp only [Option.some.injEq] at h3
    subst h3
    have hph : (s.latch op f).phase = phaseAfterMwait f := by simp [phaseAfterFetch, hm]
    rw [State.atPhase_skip _ (.inr (by rw [hph]; unfold phaseAfterMwait; split <;> simp))]
    simp [State.latch, phaseAfterFetch, hm]

/-- An undisturbed MWAIT attempt that is to be repeated (R168) ends the step at MWAIT, with its change to the cell. -/
theorem State.runPhases_retry {s : State} {op : Byte} {f : Flags} {l : LockId} {c c' : LockCell}
    (act : State → Except Fault State) (h1 : s.ready) (h2 : s.alone) (hm : f.mutexWait = true)
    (hr : s.params.mwaitRetry = true) (hl : s.lockFor s.dp = some l) (hc : s.cells[l]? = some c)
    (hw : c.handoffWait s.params.relFree machineId = .ok (false, c')) :
    s.runPhases op f act = (s.latch op f).setCell l c' := by
  obtain ⟨hs, hp⟩ := h1
  replace h2 : s.env = [] := h2
  have e0 : s.atPhase .fetch (fun t => .ok (t.latch op f)) = s.latch op f :=
    State.atPhase_ok hs hp rfl (by simpa using h2)
  have hh : (s.latch op f).machineHandoff (s.latch op f).dp = .ok (false, (s.latch op f).setCell l c') :=
    State.machineHandoff_eq (by rw [← hl]; exact State.lockFor_congr rfl rfl _) hc hw
  have e1 : (s.latch op f).atPhase .mwait (State.mwait f) = (s.latch op f).setCell l c' := by
    refine State.atPhase_ok hs (by simp [phaseAfterFetch, hm]) ?_ (by simpa using h2)
    rw [State.mwait_of_handoff hh, if_pos]
    simp [hr]
  have hph : ∀ p, p ≠ .mwait → ((s.latch op f).setCell l c').phase ≠ p := fun p h e =>
    h (by rw [← e]; simp [phaseAfterFetch, hm])
  unfold State.runPhases
  rw [e0, e1]
  iterate 5 rw [State.atPhase_skip (s := (s.latch op f).setCell l c') _ (.inr (hph _ (by decide)))]

/-- An undisturbed step whose loads are in range reaches EXEC. -/
theorem State.runPhases_chain {s : State} {op : Byte} {f : Flags} {cs : List LockCell}
    (act : State → Except Fault State) (h1 : s.ready) (h2 : s.alone) (h3 : s.cellsPastMwait f = some cs)
    (h4 : s.loadsOk f) :
    s.runPhases op f act =
      ((s.atExec op f cs).atPhase .exec (State.execute f act)).atPhase .xhandoff State.xhandoff := by
  unfold State.runPhases
  rw [State.chain_mwait h1 h2 h3]
  obtain ⟨hr, hp⟩ := h1
  replace h2 : s.env = [] := h2
  obtain ⟨l1, l2, l3⟩ := h4
  by_cases he : f.extend = true
  · have hsp : s.operandSp f = s.sp - 1 := by simp [State.operandSp, he]
    rw [hsp] at l2
    rw [State.atPhase_eload (by exact hr) (by simp [phaseAfterMwait, he]) (by exact h2) (by exact l1 he),
      State.atPhase_loadSrc (by exact hr) rfl (by exact h2) (by exact l2),
      State.atPhase_loadDst (by exact hr) rfl (by exact h2) (by exact l3)]
    simp only [State.atExec, State.loadedMag, hsp, he, if_true]
    rfl
  · have hsp : s.operandSp f = s.sp := by simp [State.operandSp, he]
    rw [hsp] at l2
    rw [State.atPhase_skip State.eload (.inr (by simp [phaseAfterMwait, he])),
      State.atPhase_loadSrc (by exact hr) (by simp [phaseAfterMwait, he]) (by exact h2) (by exact l2),
      State.atPhase_loadDst (by exact hr) rfl (by exact h2) (by exact l3)]
    simp only [State.atExec, State.loadedMag, hsp, he]
    rfl

@[simp] theorem State.atExec_env (s : State) (op : Byte) (f : Flags) (cs : List LockCell) :
    (s.atExec op f cs).env = s.env := rfl
@[simp] theorem State.atExec_status (s : State) (op : Byte) (f : Flags) (cs : List LockCell) :
    (s.atExec op f cs).status = s.status := rfl
@[simp] theorem State.atExec_phase (s : State) (op : Byte) (f : Flags) (cs : List LockCell) :
    (s.atExec op f cs).phase = .exec := rfl

/-- An undisturbed instruction that is not eligible: it advances and nothing else (R110). -/
theorem State.atExec_ineligible {s : State} {op : Byte} {f : Flags} {cs : List LockCell}
    (act : State → Except Fault State) (h1 : s.ready) (h2 : s.alone) (h : s.operandsEligible f = false) :
    ((s.atExec op f cs).atPhase .exec (State.execute f act)).atPhase .xhandoff State.xhandoff
      = (s.atExec op f cs).advance := by
  have hx : (s.atExec op f cs).execute f act = .ok (s.atExec op f cs).advance :=
    State.execute_ineligible act (by simpa only [State.operandsEligible, State.atExec] using h)
  rw [State.atPhase_ok (p := .exec) (by exact h1.1) rfl hx (by exact h2), State.atPhase_skip _ (.inr (by simp))]

/-- An undisturbed eligible instruction whose selector's action ends in `t`. -/
theorem State.atExec_eligible {s t : State} {op : Byte} {f : Flags} {cs : List LockCell}
    {act : State → Except Fault State} (h1 : s.ready) (h : s.operandsEligible f = true)
    (ht : act { s.atExec op f cs with mag := appliedMag f (s.loadedMag f) } = .ok t) (he : t.env = []) :
    ((s.atExec op f cs).atPhase .exec (State.execute f act)).atPhase .xhandoff State.xhandoff
      = t.atPhase .xhandoff State.xhandoff := by
  have hx : (s.atExec op f cs).execute f act = .ok t := by
    rw [State.execute_eligible act (by simpa only [State.operandsEligible, State.atExec] using h)]
    exact ht
  rw [State.atPhase_ok (p := .exec) (by exact h1.1) rfl hx he]

end Sys2Proof.Machine
end

