-- ==== Sys2Proof/Laws/PerInstr.lean ====
section
/-! SUPPORT. Facts proved once for each constructor of `Instr`. -/

namespace Sys2Proof.Laws

/-- An instruction is well-formed, is one code element long (spec/30_encoding.md R80), and its byte matches the row of
its selector in the opcode table (R86). -/
def EncodesInOneElement.Statement (i : Instr) : Prop :=
  i.wf = true ∧ (encode i).length = 1 ∧ matchesSelector (encodeByte i) i.selector = true

theorem EncodesInOneElement.src (f : Flags) : EncodesInOneElement.Statement (.src f) := by
  obtain ⟨a, b, c, d, e, g⟩ := f
  refine ⟨rfl, rfl, ?_⟩
  revert a b c d e g
  decide

theorem EncodesInOneElement.dst (f : Flags) : EncodesInOneElement.Statement (.dst f) := by
  obtain ⟨a, b, c, d, e, g⟩ := f
  refine ⟨rfl, rfl, ?_⟩
  revert a b c d e g
  decide

theorem EncodesInOneElement.code (f : Flags) : EncodesInOneElement.Statement (.code f) := by
  obtain ⟨a, b, c, d, e, g⟩ := f
  refine ⟨rfl, rfl, ?_⟩
  revert a b c d e g
  decide

theorem EncodesInOneElement.value (f : Flags) : EncodesInOneElement.Statement (.value f) := by
  obtain ⟨a, b, c, d, e, g⟩ := f
  refine ⟨rfl, rfl, ?_⟩
  revert a b c d e g
  decide

end Sys2Proof.Laws
end

