-- ==== Sys2Proof/Tests/Slice0.lean ====
section
/-! SUPPORT. Tests on fixed values, with expected results from spec/95_test_vectors.md and the examples in the rules,
and for every statement with hypotheses a state and operands that meet them. -/

namespace Sys2Proof.Tests

open Sys2Proof.Machine

/-! ## Helpers -/

/-- The state an outcome holds, if it is a next state. -/
def nextOf : Host.Outcome State Fault Refusal → Option State
  | .next t => some t
  | .fault _ => none
  | .refused _ => none

/-- One field of the state after a step. -/
def afterStep {α : Type} (s : State) (g : State → α) : Option α := (nextOf (step s)).map g

/-- A machine of one instruction over a data array, with all cells FREE and the reset cursors (`Launch`). -/
def machine (op : Byte) (data : List Word) : State :=
  bootState { Launch.empty with code := [op], data := data } []

/-- BLOCK_WORDS = 2, four data Words, two locks: lock 1, of block 1, is claimed by writer 1. -/
def blocks (op : Byte) (sp dp : Word) : State :=
  { State.reset with
    code := [op]
    sp := sp
    dp := dp
    dataLen := 4
    data := Memory.load 0 [5, 3, 2, 7]
    lt := [some 0, some 1]
    cells := [LockCell.free, { claim := some 1, readers := 0, releases := 0 }]
    params := { blockBits := 1 } }

/-- No flags but MutexWait and Extend. -/
def waitExtend : Flags := { Flags.none with mutexWait := true, extend := true }

/-- No flags but MutexWait. -/
def wait : Flags := { Flags.none with mutexWait := true }

/-! ## Decoding: words written out from spec/30_encoding.md -/

theorem test_decode_src : decodeByte 0b10100000 = .src { Flags.none with greater := true, lower := true } := by decide
theorem test_decode_dst : decodeByte 0b00100101 = .dst { Flags.none with lower := true, invert := true } := by decide
theorem test_decode_code : decodeByte 0b10001010 = .code { Flags.none with greater := true, extend := true } := by decide
theorem test_decode_value :
    decodeByte 0b01010111 = .value { Flags.none with equal := true, mutexWait := true, invert := true } := by decide
theorem test_decode_wide : decodeTableWord 8 0x1F0B = some (.value { Flags.none with extend := true }) := by decide
theorem test_decode_refuses_nothing : decode [] = .error .noElement := rfl
theorem test_encode : encode (.code { Flags.none with greater := true, extend := true }) = [0x8A] := by decide

/-! ## Well-formedness: every check of R252 refuses a launch that breaks it. No instruction is ill-formed (R87). -/

/-- The launch is refused by this check. -/
def refusedBy (L : Launch) (c : LaunchCheck) : Prop := launch L [] = .error (.launchIllFormed c)

theorem test_refuses_array_size (code : List Byte) (h : ¬code.length < 2 ^ 63) :
    refusedBy { Launch.empty with code := code } .arraySizes := by
  simp only [refusedBy, launch, brokenCheck, launchChecks, List.find?, Launch.meets, h, false_and, decide_false,
    Bool.not_false]

/-- Such a code array exists. -/
theorem witness_refuses_array_size : ∃ code : List Byte, ¬code.length < 2 ^ 63 :=
  ⟨List.replicate (2 ^ 63) 0, by rw [List.length_replicate]; exact Nat.lt_irrefl _⟩

theorem test_refuses_short_table :
    refusedBy { Launch.empty with binds := [{ lock := 0, blockCount := 0, words := [1] }] } .tableCoversData := rfl
theorem test_refuses_unknown_lock :
    refusedBy { Launch.empty with binds := [{ lock := 1, blockCount := 1, words := [1] }] } .tableEntries := rfl
theorem test_refuses_initial_shared : refusedBy { Launch.empty with lockInit := [.shared 1] } .lockInit := rfl
theorem test_refuses_unknown_holder : refusedBy { Launch.empty with lockInit := [.excl 1] } .lockInit := rfl
theorem test_refuses_control_outside :
    refusedBy { Launch.empty with data := [0], writers := [⟨0, 0, 2, 0, 1⟩] } .writerRegions := rfl
theorem test_refuses_control_overlap :
    refusedBy { Launch.empty with data := [0, 0, 0], writers := [⟨0, 0, 2, 0, 1⟩, ⟨0, 1, 2, 0, 1⟩] } .controlOverlap :=
  rfl

/-! ## One step of each instruction -/

/-- R130's example: `SRC|Invert` over [0, 7]. -/
theorem test_src_invert :
    afterStep (machine 0x04 [0, 7]) (fun t => (t.sp, t.dp, t.ip)) = some (0, 1, 1) := by decide
/-- R105 and R130: `SRC|Extend` over [2, 3] moves `sp` by 3 - 1. -/
theorem test_src_extend : afterStep (machine 0x08 [2, 3]) (fun t => (t.sp, t.mag)) = some (3, 3) := by decide
/-- R132: `DST|Invert|Greater` over [5, 3] with `sp` = 0. -/
theorem test_dst_greater :
    afterStep { machine 0x85 [5, 3] with sp := 0 } (fun t => (t.dp, t.ip)) = some (0, 1) := by decide
/-- R132: `DST|Invert|Lower` is not eligible there. -/
theorem test_dst_lower :
    afterStep { machine 0x25 [5, 3] with sp := 0 } (fun t => (t.dp, t.ip)) = some (1, 1) := by decide
/-- R142: `CODE` skips one instruction. -/
theorem test_code_skips : afterStep (machine 0x02 [0, 7]) (fun t => t.ip) = some 2 := by decide
/-- R143's example, at index 0: magnitude -7, 2 > 0, so `ip` is 0 - 7 + 1. -/
theorem test_code_extend_greater :
    afterStep { machine 0x8A [9, 2, -7, 0] with sp := 2, dp := 3 } (fun t => (t.ip, t.sp)) = some (-6, 1) := by decide
/-- Scenario 1 of the source: [2, 3] becomes [2, 5], `sp` = -1, `dp` = 2. -/
theorem test_value_extend :
    afterStep (machine 0x0B [2, 3]) (fun t => (t.data.readWord 0, t.data.readWord 1, t.sp, t.dp)) =
      some (2, 5, -1, 2) := by decide
/-- Scenario 2 of the source: [2, 3] becomes [2, -1]. -/
theorem test_value_extend_invert :
    afterStep (machine 0x0F [2, 3]) (fun t => (t.data.readWord 0, t.data.readWord 1)) = some (2, -1) := by decide

/-! ## Faults, locks and the writer -/

/-- R227: an Extend instruction at `sp` = 0 reports `BF_SP` from LOADSRC with `sp` = -1. -/
theorem test_extend_at_zero :
    afterStep (machine 0x08 [9]) (fun t => (t.cause, t.sp, t.mag, t.phase)) = some (.bfSp, -1, 9, .loadSrc) := by decide
/-- R169: entering block 1 releases writer 1's claim. -/
theorem test_value_enters_block :
    afterStep (blocks 0x03 1 1) (fun t => (t.cells.map LockCell.claim, t.dp, t.ip)) = some ([none, none], 2, 1) := by
  decide
/-- R104's example: `SRC|MutexWait` claims OWN. -/
theorem test_mutexWait_claims :
    afterStep (machine 0x10 [2, 3]) (fun t => t.cells.map LockCell.claim) = some [some 0] := by decide
/-- R224: `dp` = -1 has no lock. -/
theorem test_mutexWait_no_lock :
    afterStep { machine 0x10 [2, 3] with dp := -1 } (fun t => (t.status, t.cause)) = some (.faulted, .bfLock) := by decide
/-- R101: the end of the code array halts. -/
theorem test_halt : afterStep { machine 0x10 [2, 3] with ip := 1 } State.status = some .halted := by decide

/-- Scenario 4 of the source: control Words [0, 1, 0, 0, 1], then one payload Word. -/
def drainStart : State :=
  { State.reset with
    dataLen := 6
    data := Memory.load 0 [0, 1, 0, 0, 1, 0x0807060504030201]
    lt := [some 0]
    writers :=
      [{ cfg := ⟨0, 0, 5, 5, 1⟩, pos := .testClear, pair := 0, off := 0, len := 0, outbuf := [], sink := []
         status := .running }] }

/-- It emits exactly those 8 bytes and zeroes its control region. -/
theorem test_drain :
    ((drainStart.writerRuns 1 14).writers.map fun w => (w.sink, w.pos)) = [([1, 2, 3, 4, 5, 6, 7, 8], .handoff)] ∧
    (drainStart.writerRuns 1 14).data.readWord 4 = 0 := by decide

/-! ## States that meet the hypotheses of the statements -/

theorem witness_DecodeReadsBitFields :
    (blocks 0x0B 1 1).ready ∧ (blocks 0x0B 1 1).ip.toInt = (0 : Nat) ∧ 0 < (blocks 0x0B 1 1).code.length :=
  ⟨⟨rfl, rfl⟩, by decide, by decide⟩

theorem witness_StepRunsDecodedInstruction :
    (blocks 0x0B 1 1).ready ∧ 0 ≤ (blocks 0x0B 1 1).ip.toInt ∧
      decode ((blocks 0x0B 1 1).code.drop (blocks 0x0B 1 1).ip.toNat) = .ok (.value { Flags.none with extend := true }, []) ∧
      (Instr.value { Flags.none with extend := true }).wf = true := ⟨⟨rfl, rfl⟩, by decide, rfl, rfl⟩

theorem witness_StepRunsDecodedInstruction_resumed :
    ({ blocks 0x13 1 1 with op := 0x13, phase := .mwait } : State).status = .running ∧
      ({ blocks 0x13 1 1 with op := 0x13, phase := .mwait } : State).phase ≠ .fetch := ⟨rfl, by decide⟩

/-- The three cases of FETCH at their boundaries: CODE_LEN, CODE_LEN + 1 and -1, CODE_LEN - 1. -/
theorem witness_FetchHaltsFaultsOrLatches :
    ({ blocks 0 1 1 with ip := 1 } : State).ready ∧ ({ blocks 0 1 1 with ip := 1 } : State).ip.toInt = (1 : Nat) ∧
    ({ blocks 0 1 1 with ip := 2 } : State).ready ∧ (1 : Int) < ({ blocks 0 1 1 with ip := 2 } : State).ip.toInt ∧
    ({ blocks 0 1 1 with ip := -1 } : State).ready ∧ ({ blocks 0 1 1 with ip := -1 } : State).ip.toInt < 0 ∧
    (blocks 0 1 1).ready ∧ (blocks 0 1 1).ip.toInt = (0 : Nat) :=
  ⟨⟨rfl, rfl⟩, by decide, ⟨rfl, rfl⟩, by decide, ⟨rfl, rfl⟩, by decide, ⟨rfl, rfl⟩, by decide⟩

/-- At MWAIT: no lock one block past the table, a claim obtained, a claim released, and a shared cell under FAULT. -/
theorem witness_MutexWaitPhaseAction :
    ({ blocks 0x10 1 4 with op := 0x10, phase := .mwait } : State).lockFor 4 = none ∧
    (blocks 0x10 1 3).lockFor 3 = some 1 ∧
    LockCell.free.handoffWait .noop machineId = .ok (true, { claim := some 0, readers := 0, releases := 0 }) ∧
    LockCell.handoffWait { claim := some 1, readers := 0, releases := 0 } .noop machineId =
      .ok (false, { claim := none, readers := 0, releases := 1 }) ∧
    LockCell.handoffWait { claim := none, readers := 1, releases := 0 } .fault machineId = .error .releaseFree :=
  ⟨rfl, rfl, rfl, rfl, rfl⟩

/-- Cursors at the ends of [0, DATA_LEN), and just outside. -/
theorem witness_OperandLoadPhaseActions :
    (blocks 0 0 3).inData 0 ∧ (blocks 0 0 3).inData 3 ∧ ¬(blocks 0 0 3).inData (-1) ∧ ¬(blocks 0 0 3).inData 4 ∧
    ({ blocks 0 0 3 with phase := .eload } : State).status = .running := by decide

/-- EXEC: each selector, both results of the guard, and a VALUE that does and does not enter a block. -/
theorem witness_ExecPhaseActions :
    eligible (decodeByte 0x20).flags 1 2 = true ∧ eligible (decodeByte 0x20).flags 2 2 = false ∧
    (decodeByte 0x20).selector = .src ∧ (decodeByte 0x21).selector = .dst ∧ (decodeByte 0x22).selector = .code ∧
    (decodeByte 0x23).selector = .value ∧ (blocks 0x23 0 3).inData 3 ∧
    ((1 : Word) + 1).toNat % (blocks 0x23 0 1).params.blockWords = 0 ∧
    ((2 : Word) + 1).toNat % (blocks 0x23 0 2).params.blockWords ≠ 0 ∧
    ({ blocks 0x23 0 1 with op := 0x23, phase := .exec } : State).status = .running := by decide

theorem witness_StatusTransitions :
    afterStep (blocks 0x23 0 1) State.status = some .running ∧
    afterStep { blocks 0x23 0 1 with status := .halted } State.status = some .halted := by decide

theorem witness_StoppedMachineIsFrozen : ({ blocks 0x23 0 1 with status := .faulted } : State).status ≠ .running := by
  decide

/-- For SrcCompletes, DstCompletes, CodeCompletes and ValueCompletes, with M = E = 1 and `dp` at the end of a block. -/
theorem witness_completes :
    (blocks 0x1B 1 1).ready ∧ (blocks 0x1B 1 1).alone ∧
    (blocks 0x1B 1 1).cellsPastMwait waitExtend =
      some [{ claim := some 0, readers := 0, releases := 0 }, { claim := some 1, readers := 0, releases := 0 }] ∧
    (blocks 0x1B 1 1).loadsOk waitExtend :=
  ⟨⟨rfl, rfl⟩, rfl, rfl, by unfold State.loadsOk; decide⟩

/-- The three branches of VALUE's next state: guard fails, a block is entered, a block is not entered. -/
theorem witness_ValueCompletes :
    (blocks 0x23 1 1).operandsEligible { Flags.none with lower := true } = false ∧
    (blocks 0x03 1 1).operandsEligible Flags.none = true ∧ (blocks 0x03 1 1).atBlockStart (1 + 1) = true ∧
    (blocks 0x03 1 2).atBlockStart (2 + 1) = false ∧ (blocks 0x03 1 2).loadsOk Flags.none :=
  ⟨by decide, by decide, by decide, by decide, by unfold State.loadsOk; decide⟩

/-- For InstructionCompletesUnderInterference: another agent stores to the Word at `dp` after the fetch. -/
theorem witness_interference :
    ({ blocks 0x1B 1 1 with env := [[.port 1 (.memWrite 1 9)]] } : State).ready ∧
    ({ blocks 0x1B 1 1 with env := [[.port 1 (.memWrite 1 9)]] } : State).loadsOk waitExtend ∧
    ({ blocks 0x1B 1 1 with env := [[.port 1 (.memWrite 1 9)]] } : State).mwaitSure waitExtend :=
  ⟨⟨rfl, rfl⟩, by unfold State.loadsOk; decide, fun _ => ⟨rfl, rfl, 0, rfl, by decide⟩⟩

theorem witness_IneligibleKeepsOnlyExtendDecrement :
    eligible { Flags.none with lower := true, greater := true } 1 2 = false ∧
    (blocks 0xA0 1 1).loadsOk { Flags.none with lower := true, greater := true } ∧
    (blocks 0xA0 1 1).mwaitSure { Flags.none with lower := true, greater := true } :=
  ⟨by decide, by unfold State.loadsOk; decide, fun h => by simp [Flags.none] at h⟩

theorem witness_MutexWaitKeepsToggle :
    (blocks 0x13 1 3).ready ∧ (blocks 0x13 1 3).alone ∧ (Instr.value wait).flags.mutexWait = true ∧
    (blocks 0x13 1 3).lockFor 3 = some 1 ∧
    (blocks 0x13 1 3).cells[1]? = some { claim := some 1, readers := 0, releases := 0 } ∧
    LockCell.handoffWait { claim := some 1, readers := 0, releases := 0 } (blocks 0x13 1 3).params.relFree machineId =
      .ok (false, { claim := none, readers := 0, releases := 1 }) :=
  ⟨⟨rfl, rfl⟩, rfl, rfl, rfl, rfl, rfl⟩

/-- A cell held in shared mode, under FAULT. -/
def sharedFault : State :=
  { blocks 0x10 1 1 with
    cells := [{ claim := none, readers := 1, releases := 0 }]
    params := { blockBits := 1, relFree := .fault } }

theorem witness_MutexWaitFaultsAreTaken :
    (blocks 0x10 1 4).ready ∧ (blocks 0x10 1 4).alone ∧ (blocks 0x10 1 4).lockFor 4 = none ∧
    sharedFault.ready ∧ sharedFault.alone ∧ sharedFault.lockFor sharedFault.dp = some 0 ∧
    sharedFault.cells[0]? = some { claim := none, readers := 1, releases := 0 } ∧ sharedFault.params.relFree = .fault :=
  ⟨⟨rfl, rfl⟩, rfl, rfl, ⟨rfl, rfl⟩, rfl, rfl, rfl, rfl⟩

/-- `MWAIT_RETRY` = 1, with `dp` in the block of lock `l`. -/
def retrying (dp : Word) (cell : LockCell) : State :=
  { blocks 0x10 1 dp with cells := [cell], params := { blockBits := 1, mwaitRetry := true } }

theorem witness_RetriedMutexWaitWaits :
    (retrying 1 { claim := some 0, readers := 0, releases := 0 }).ready ∧
    (retrying 1 { claim := some 0, readers := 0, releases := 0 }).alone ∧
    (retrying 1 { claim := some 0, readers := 0, releases := 0 }).lockFor 1 = some 0 ∧
    (retrying 1 { claim := none, readers := 2, releases := 0 }).ready ∧
    (retrying 1 { claim := none, readers := 2, releases := 0 }).cells[0]? =
      some { claim := none, readers := 2, releases := 0 } ∧
    (retrying 1 { claim := none, readers := 2, releases := 0 }).params.relFree = .noop :=
  ⟨⟨rfl, rfl⟩, rfl, rfl, ⟨rfl, rfl⟩, rfl, rfl⟩

/-- For the last clause of MutexWaitKeepsToggle: an attempt that does not obtain the claim, under `MWAIT_RETRY` = 1. -/
theorem witness_MutexWaitKeepsToggle_retry :
    (retrying 1 { claim := some 0, readers := 0, releases := 0 }).ready ∧
    (retrying 1 { claim := some 0, readers := 0, releases := 0 }).alone ∧
    (Instr.value wait).flags.mutexWait = true ∧
    (retrying 1 { claim := some 0, readers := 0, releases := 0 }).lockFor 1 = some 0 ∧
    (retrying 1 { claim := some 0, readers := 0, releases := 0 }).params.mwaitRetry = true ∧
    LockCell.handoffWait { claim := some 0, readers := 0, releases := 0 }
        (retrying 1 { claim := some 0, readers := 0, releases := 0 }).params.relFree machineId =
      .ok (false, { claim := none, readers := 0, releases := 1 }) :=
  ⟨⟨rfl, rfl⟩, rfl, rfl, rfl, rfl, rfl⟩

/-- A bad `sp` at ELOAD, at LOADSRC (Extend at `sp` = 0), and a bad `dp` at LOADDST (`dp` = DATA_LEN). -/
theorem witness_LoadFaultsFreezeStep :
    (blocks 0x08 4 1).cellsPastMwait (decodeByte 0x08).flags = some (blocks 0x08 4 1).cells ∧
    ¬(blocks 0x08 4 1).inData 4 ∧ (blocks 0x08 0 1).inData 0 ∧
    ¬(blocks 0x08 0 1).inData ((blocks 0x08 0 1).operandSp (decodeByte 0x08).flags) ∧
    (blocks 0x08 1 4).inData ((blocks 0x08 1 4).operandSp (decodeByte 0x08).flags) ∧ ¬(blocks 0x08 1 4).inData 4 := by
  decide

theorem witness_FaultPriorityIsPhaseOrder :
    (blocks 0x18 4 4).good = true ∧ (blocks 0x18 4 4).ready ∧ (blocks 0x18 4 4).fetchAtIp = .opcode 0x18 ∧
    ({ blocks 0x18 4 4 with ip := 2 } : State).good = true ∧
    ({ blocks 0x18 4 4 with ip := 2 } : State).fetchAtIp = .outOfRange ∧
    (blocks 0x18 4 4).firstCause (decodeByte 0x18).flags = .bfLock ∧
    (blocks 0x08 4 4).firstCause (decodeByte 0x08).flags = .bfSp ∧
    (blocks 0x08 3 4).firstCause (decodeByte 0x08).flags = .bfDp ∧
    (blocks 0x08 3 3).firstCause (decodeByte 0x08).flags = .bfNone :=
  ⟨by decide, ⟨rfl, rfl⟩, rfl, by decide, rfl, by unfold State.firstCause; decide, by unfold State.firstCause; decide,
    by unfold State.firstCause; decide, by unfold State.firstCause; decide⟩

theorem witness_FaultingStepIsPrecise :
    (blocks 0x1B 1 3).ready ∧ (blocks 0x1B 0 3).alone ∧
    afterStep (blocks 0x1B 0 3) (fun t => (t.status, t.phase, t.sp)) = some (.faulted, .loadSrc, -1) :=
  ⟨⟨rfl, rfl⟩, rfl, by decide⟩

theorem witness_InvertNegatesCursorDelta :
    (blocks 0x0E 1 1).ready ∧ (blocks 0x0E 1 1).alone ∧
    (blocks 0x0E 1 1).cellsPastMwait (decodeByte 0x0E).flags = some (blocks 0x0E 1 1).cells ∧
    (blocks 0x0E 1 1).loadsOk (decodeByte 0x0E).flags ∧
    (decodeByte 0x0A).flags = { (decodeByte 0x0E).flags with invert := !(decodeByte 0x0E).flags.invert } :=
  ⟨⟨rfl, rfl⟩, rfl, by decide, by unfold State.loadsOk; decide, by decide⟩

/-- For CursorInstructionsFrame and ValueStoresOneWord. -/
theorem witness_frames :
    (blocks 0x1A 1 1).ready ∧ (blocks 0x1A 1 1).alone ∧ (blocks 0x1A 1 1).data.wf = true ∧
    (nextOf (exec (decodeByte 0x1A) (blocks 0x1A 1 1))).isSome = true ∧
    (nextOf (exec (decodeByte 0x1B) (blocks 0x1B 1 1))).isSome = true :=
  ⟨⟨rfl, rfl⟩, rfl, by decide, rfl, rfl⟩

/-- VALUE at the end of block 0: the entered block's lock is writer 1's. At `dp` = 2 no block is entered. -/
theorem witness_ValueReleasesEnteredLock :
    (blocks 0x03 1 1).ready ∧ (blocks 0x03 1 1).alone ∧
    (blocks 0x03 1 1).cellsPastMwait Flags.none = some (blocks 0x03 1 1).cells ∧ (blocks 0x03 1 1).loadsOk Flags.none ∧
    (blocks 0x03 1 1).lockFor (1 + 1) = some 1 ∧
    (blocks 0x03 1 1).cells[1]? = some { claim := some 1, readers := 0, releases := 0 } ∧
    ((2 : Word) + 1).toNat % (blocks 0x03 1 2).params.blockWords ≠ 0 ∧ (blocks 0x03 1 3).lockFor (3 + 1) = none :=
  ⟨⟨rfl, rfl⟩, rfl, rfl, by unfold State.loadsOk; decide, rfl, rfl, by decide, rfl⟩

theorem witness_CrossBlockHandoffBranches :
    (blocks 0 1 4).lockFor 4 = none ∧ (blocks 0 1 0).lockFor 0 = some ownLock ∧ (blocks 0 1 2).lockFor 2 = some 1 ∧
    (blocks 0 1 2).cells[1]? = some { claim := some 1, readers := 0, releases := 0 } := ⟨rfl, rfl, rfl, rfl⟩

theorem witness_RelExclOutcomes :
    sharedFault.cells[0]? = some { claim := none, readers := 1, releases := 0 } ∧ sharedFault.status = .running ∧
    ({ sharedFault with phase := .mwait } : State).lockFor sharedFault.dp = some 0 := ⟨rfl, rfl, rfl⟩

/-- Cells for the operations that are not enabled: claimed by writer 1, and FREE. -/
theorem witness_SharedHoldOperations :
    (2 : AgentId) ≠ machineId ∧ (blocks 0 0 0).cells[1]? = some { claim := some 1, readers := 0, releases := 0 } ∧
    (blocks 0 0 0).cells[0]? = some LockCell.free ∧ LockCell.free.readers = 0 := ⟨by decide, rfl, rfl, rfl⟩

theorem witness_HandoffWaitToggles :
    LockCell.free.readers = 0 ∧ ({ claim := some 3, readers := 0, releases := 2 } : LockCell).readers = 0 := ⟨rfl, rfl⟩

/-- R166's example, scaled to BLOCK_WORDS = 2: the last index of block 1, the first past the table, a negative one. -/
theorem witness_LockForReadsTable :
    (3 : Word).toNat / (blocks 0 0 0).params.blockWords = 1 ∧ (blocks 0 0 0).lt[1]? = some (some 1) ∧
    (blocks 0 0 0).lt.length ≤ (4 : Word).toNat / (blocks 0 0 0).params.blockWords ∧ (-1 : Word).toInt < 0 ∧
    ({ blocks 0 0 0 with lt := [none] } : State).lt[(0 : Word).toNat / (blocks 0 0 0).params.blockWords]? = some none := by
  decide

/-- For ClaimsBeginOnlyByTheirAgent and ClaimsEndOnlyByRelease: a turn in which the machine's claim begins, and one in
which writer 1's ends. -/
theorem witness_claims :
    (({ blocks 0x10 1 1 with op := 0x10, phase := .mwait } : State).turn .machine).cells[0]? =
      some { claim := some 0, readers := 0, releases := 0 } ∧
    (blocks 0x10 1 1).cells[0]? = some LockCell.free ∧
    (blocks 0x10 1 1).cells[1]? = some { claim := some 1, readers := 0, releases := 0 } ∧
    ((blocks 0x10 1 1).turn (.other (.port 2 (.relExcl 1)))).cells[1]? =
      some { claim := none, readers := 0, releases := 1 } := by decide

theorem witness_OwnershipSignalsShowCell :
    (blocks 0 0 0).lt[1]? = some (some 1) ∧
    (blocks 0 0 0).cells[1]? = some { claim := some 1, readers := 0, releases := 0 } ∧
    ({ blocks 0 0 0 with lt := [none] } : State).lt[0]? = some none := ⟨rfl, rfl, rfl⟩

/-- A good state in the middle of a step, of a copy by its writer, and of a run. -/
theorem witness_GoodIsInvariant :
    (blocks 0x1B 1 1).good = true ∧ drainStart.good = true ∧ (drainStart.writerRuns 1 4).good = true := by decide

/-- For LaunchIsGood, LaunchGivesResetTable, LaunchAppendsBoundEntries and LaunchAcceptsExactlyWellFormed: a launch
with code, data, a bind, a claimed cell and a writer. -/
def sampleLaunch : Launch :=
  { code := [0x0B], data := [2, 3], binds := [{ lock := 1, blockCount := 1, words := [0, 0, 0] }]
    lockInit := [.free, .excl 1], writers := [⟨1, 2, 3, 0, 2⟩], params := { blockBits := 2 } }

theorem witness_launch :
    sampleLaunch.wf = true ∧ sampleLaunch.words[4]? = some 0 ∧ sampleLaunch.lockInit[1]? = some (.excl 1) ∧
    launch sampleLaunch [] = .ok (bootState sampleLaunch []) := by
  refine ⟨by decide, by decide, rfl, ?_⟩
  have h : brokenCheck sampleLaunch = none := by decide
  unfold launch
  rw [h]

/-- Launches with no code, with no data, and with one data Word. -/
theorem witness_DegenerateLaunches :
    brokenCheck Launch.empty = none ∧ brokenCheck { Launch.empty with code := [0x10] } = none ∧
    brokenCheck { Launch.empty with code := [0x08], data := [9] } = none ∧
    ({ Launch.empty with code := [0x08], data := [9] } : Launch).words = [9] := by decide

/-- For LockStateNeverReachesData and ByteOrderOnlyInWriterView. -/
theorem witness_separation :
    (blocks 0x1B 1 1).alone ∧ (blocks 0x1B 1 1).params.mwaitRetry = false ∧ (blocks 0x1B 1 1).params.relFree = .noop ∧
    [LockCell.free, LockCell.free].length = (blocks 0x1B 1 1).cells.length := ⟨rfl, rfl, rfl, rfl⟩

theorem witness_AgentsKeepEachOthersPrivateState :
    (∀ r, EnvAction.port 2 (.memRead 0) ≠ .writer 1 r) ∧ ∀ n, EnvAction.port 2 (.memRead 0) ≠ .handOver 1 n :=
  ⟨fun _ => by simp, fun _ => by simp⟩

/-- Two times `VALUE|Extend` from `sp` = 3, `dp` = 2 over four Words: both bounds are reached. -/
theorem witness_ValueExtendRunPopsAndAdds :
    (blocks 0x0B 3 2).ready ∧ (blocks 0x0B 3 2).alone ∧ (blocks 0x0B 3 2).dataLen < 2 ^ 63 ∧
    (blocks 0x0B 3 2).inData 3 ∧ 2 * 2 ≤ (3 : Word).toNat + 1 ∧ 0 ≤ (2 : Word).toInt ∧
    (2 : Word).toInt + (2 : Nat) ≤ (blocks 0x0B 3 2).dataLen :=
  ⟨⟨rfl, rfl⟩, rfl, by decide, by decide, by decide, by decide, by decide⟩

theorem witness_MemoryPortActions :
    (1 : AgentId) ≠ machineId ∧ ¬((0 : Int) ≤ 4 ∧ (4 : Int) < (blocks 0 0 0).dataLen) ∧ 3 < (blocks 0 0 0).dataLen := by
  decide

/-- The writer of `drainStart` at another position. -/
def drainAt (pos : WriterPos) (data : List Word) : State :=
  { drainStart with
    data := Memory.load 0 data
    writers :=
      [{ cfg := ⟨0, 0, 5, 5, 1⟩, pos := pos, pair := 0, off := 0, len := 0, outbuf := [], sink := [], status := .running }] }

theorem witness_WriterTestAndClear :
    (drainStart.writerAt 1).map Writer.pos = some .testClear ∧ flagIndex ⟨0, 0, 5, 5, 1⟩ < drainStart.dataLen ∧
    drainStart.data.readWord (flagIndex ⟨0, 0, 5, 5, 1⟩) = 1 ∧
    (drainAt .testClear [0, 1, 0, 0, 2, 0]).data.readWord (flagIndex ⟨0, 0, 5, 5, 1⟩) ≠ 1 := by decide

theorem witness_WriterWaitsWhileClaimed :
    ((drainAt (.acquire 0) []).writerAt 1).map Writer.pos = some (.acquire 0) ∧
    (drainAt (.acquire 0) []).lockOfBlock 0 = some 0 ∧
    ({ drainAt (.acquire 0) [] with cells := [{ claim := some 1, readers := 0, releases := 0 }] } : State).cells[0]? =
      some { claim := some 1, readers := 0, releases := 0 } := by decide

/-- A pair (0, 2) over a payload of one Word: one Word past its end. -/
theorem witness_WriterStops :
    ((drainAt .readLen [0, 2, 0, 0, 0, 0]).writerAt 1).map Writer.pos = some .readLen ∧
    (drainAt .readLen [0, 2, 0, 0, 0, 0]).data.readWord (0 + 2 * 0 + 1) = 2 ∧
    ((1 : Nat) : Int) < (0 : Word).toInt + (2 : Word).toInt ∧
    ((drainAt .flush []).writerAt 1).map Writer.pos = some .flush := by decide

theorem witness_WriterStoresOnlyInControl :
    (drainAt (.zero 4) [0, 1, 0, 0, 0, 7]).good = true ∧
    ((drainAt (.zero 4) [0, 1, 0, 0, 0, 7]).writerAt 1).isSome = true := by decide

/-- Scenario 4 meets every hypothesis of the round trip. -/
theorem witness_WriterDrainRoundTrip :
    drainStart.good = true ∧ drainStart.writerAt 1 = drainStart.writers[0]? ∧
    drainStart.data.readWord (flagIndex ⟨0, 0, 5, 5, 1⟩) = 1 ∧ drainStart.data.readWord 0 = BitVec.ofNat 64 0 ∧
    drainStart.data.readWord (0 + 1) = BitVec.ofNat 64 1 ∧ drainStart.data.readWord (0 + 3) = 0 ∧
    drainStart.blocksOpen (5 + 0) (5 + 0 + 1 - 1) := by
  refine ⟨by decide, rfl, by decide, by decide, by decide, by decide, fun b h1 h2 => ?_⟩
  have hb : b = 0 := by
    have e : drainStart.blockOf (5 + 0 + 1 - 1) = 0 := by decide
    omega
  subst hb
  exact ⟨0, LockCell.free, rfl, rfl, rfl⟩

end Sys2Proof.Tests
end

