-- ==== Sys2Proof/Proofs/StepStatus.lean ====
section
/-! What one step does to `status` and `cause` (spec/10_state.md R25, R26): a phase keeps both or takes a fault, so the
seven phases in a row do, and only FETCH at CODE_LEN halts. -/

namespace Sys2Proof.Machine

/-! ## What a step can be -/

/-- The branches of `step` (R100, R101, R256), each with its guard and its next state. -/
inductive StepCase (s : State) : State → Prop
  | stopped (hs : s.status ≠ .running) : StepCase s s.interfere
  | halts (hs : s.status = .running) (hp : s.phase = .fetch) (hf : s.fetchAtIp = .halt) :
      StepCase s { s with status := .halted }.interfere
  | codeFault (hs : s.status = .running) (hp : s.phase = .fetch) (hf : s.fetchAtIp = .outOfRange) :
      StepCase s (s.takeFault .codeRange).interfere
  | fetches {b : Byte} {t : State} (hs : s.status = .running) (hp : s.phase = .fetch) (hf : s.fetchAtIp = .opcode b)
      (he : exec (decodeByte b) s = .next t) : StepCase s t
  | resumes {t : State} (hs : s.status = .running) (hp : s.phase ≠ .fetch)
      (he : exec (decodeByte s.op) s = .next t) : StepCase s t

theorem step_cases {s t : State} (h : step s = .next t) : StepCase s t := by
  unfold step at h
  split at h
  · rename_i hs
    split at h
    · rename_i hp
      split at h
      · rename_i hf; cases h; exact .halts hs hp hf
      · rename_i hf; cases h; exact .codeFault hs hp hf
      · rename_i b hf; exact .fetches hs hp hf h
    · rename_i hp; exact .resumes hs hp h
  · rename_i hs; cases h; exact .stopped (by simp [hs])
  · rename_i hs; cases h; exact .stopped (by simp [hs])

/-- FETCH finds the halt exactly at CODE_LEN (R101). -/
theorem State.fetchAtIp_eq_halt_iff (s : State) : s.fetchAtIp = .halt ↔ s.ip.toInt = s.code.length := by
  unfold State.fetchAtIp
  split
  · rename_i h; exact ⟨fun _ => h, fun _ => rfl⟩
  · rename_i h
    refine ⟨fun hf => ?_, fun hi => absurd hi h⟩
    split at hf
    · split at hf <;> cases hf
    · cases hf

/-! ## Phases that keep `status` and `cause` -/

/-- `status` and `cause` are as before. -/
def State.sameStatus (s t : State) : Prop := t.status = s.status ∧ t.cause = s.cause

/-- Where `g` raises no fault, it leaves `status` and `cause` alone. -/
def KeepsStatus (g : State → Except Fault State) : Prop := ∀ ⦃s t : State⦄, g s = .ok t → s.sameStatus t

theorem keepsStatus_latch (op : Byte) (f : Flags) : KeepsStatus fun s => .ok (s.latch op f) := by
  intro s t h
  cases h
  exact ⟨rfl, rfl⟩

theorem keepsStatus_mwait (f : Flags) : KeepsStatus (State.mwait f) := by
  intro s t h
  cases hh : s.machineHandoff s.dp with
  | error e => rw [State.mwait_of_fault hh] at h; cases h
  | ok r =>
    obtain ⟨got, u⟩ := r
    rw [State.mwait_of_handoff hh] at h
    obtain ⟨l, c, c', -, -, -, rfl⟩ := State.machineHandoff_ok hh
    cases h
    split <;> exact ⟨rfl, rfl⟩

theorem keepsStatus_eload : KeepsStatus State.eload := by
  intro s t h
  by_cases hd : s.inData s.sp
  · rw [State.eload_ok hd] at h; cases h; exact ⟨rfl, rfl⟩
  · rw [State.eload_error hd] at h; cases h

theorem keepsStatus_loadSrc : KeepsStatus State.loadSrc := by
  intro s t h
  by_cases hd : s.inData s.sp
  · rw [State.loadSrc_ok hd] at h; cases h; exact ⟨rfl, rfl⟩
  · rw [State.loadSrc_error hd] at h; cases h

theorem keepsStatus_loadDst : KeepsStatus State.loadDst := by
  intro s t h
  by_cases hd : s.inData s.dp
  · rw [State.loadDst_ok hd] at h; cases h; exact ⟨rfl, rfl⟩
  · rw [State.loadDst_error hd] at h; cases h

theorem keepsStatus_valueAction : KeepsStatus valueAction := by
  intro s t h
  unfold valueAction at h
  by_cases hd : s.inData s.dp
  · rw [State.memWrite_ok hd] at h
    cases h
    unfold State.afterStore
    split <;> exact ⟨rfl, rfl⟩
  · rw [State.memWrite_error hd] at h; cases h

theorem keepsStatus_selectorAction (c : Selector) : KeepsStatus (selectorAction c) := by
  cases c with
  | src => intro s t h; cases h; exact ⟨rfl, rfl⟩
  | dst => intro s t h; cases h; exact ⟨rfl, rfl⟩
  | code => intro s t h; cases h; exact ⟨rfl, rfl⟩
  | value => exact keepsStatus_valueAction

theorem keepsStatus_execute (f : Flags) {act : State → Except Fault State} (ha : KeepsStatus act) :
    KeepsStatus (State.execute f act) := by
  intro s t h
  cases he : eligible f s.src s.dst with
  | true =>
    rw [State.execute_eligible act he] at h
    obtain ⟨hst, hca⟩ := ha h
    exact ⟨hst, hca⟩
  | false => rw [State.execute_ineligible act he] at h; cases h; exact ⟨rfl, rfl⟩

theorem keepsStatus_xhandoff : KeepsStatus State.xhandoff := by
  intro s t h
  cases h
  rcases s.crossBlockHandoff_cases with hx | ⟨l, c, a, -, -, -, -, -, hx⟩
  · rw [hx]; exact ⟨rfl, rfl⟩
  · rw [hx]; exact ⟨rfl, rfl⟩

/-! ## Phases in a row -/

/-- `status` and `cause` are as before, or the machine is FAULTED with a cause recorded: all that a phase of a step can
do to the two (R14, R228). -/
def State.keptOrFaulted (s t : State) : Prop :=
  s.sameStatus t ∨ (t.status = .faulted ∧ t.cause ≠ .bfNone)

theorem State.keptOrFaulted_trans {s t u : State} (h : s.keptOrFaulted t) (h' : t.keptOrFaulted u) :
    s.keptOrFaulted u := by
  rcases h' with ⟨hst, hca⟩ | hfault
  · rcases h with ⟨hst', hca'⟩ | ⟨hst', hca'⟩
    · exact .inl ⟨hst.trans hst', hca.trans hca'⟩
    · exact .inr ⟨hst.trans hst', hca ▸ hca'⟩
  · exact .inr hfault

/-- Every fault is recorded as a cause (R221). -/
theorem Fault.toCause_ne_bfNone (f : Fault) : f.toCause ≠ .bfNone := by
  cases f <;> decide

theorem State.interfere_sameStatus (s : State) : s.sameStatus s.interfere :=
  ⟨s.interfere_status, s.interfere_cause⟩

theorem State.orFault_keptOrFaulted {g : State → Except Fault State} (hg : KeepsStatus g) (s : State) :
    s.keptOrFaulted (s.orFault (g s)) := by
  cases hr : g s with
  | ok t => exact .inl (hg hr)
  | error f => exact .inr ⟨rfl, f.toCause_ne_bfNone⟩

theorem State.atPhase_keptOrFaulted {g : State → Except Fault State} (hg : KeepsStatus g) (p : Phase) (s : State) :
    s.keptOrFaulted (s.atPhase p g) := by
  by_cases hr : s.status = .running ∧ s.phase = p
  · rw [State.atPhase_run g hr.1 hr.2]
    exact State.keptOrFaulted_trans (State.orFault_keptOrFaulted hg s) (.inl (State.interfere_sameStatus _))
  · rw [State.atPhase_skip g (not_and_or.1 hr)]
    exact .inl ⟨rfl, rfl⟩

theorem State.runPhases_keptOrFaulted {act : State → Except Fault State} (ha : KeepsStatus act) (op : Byte) (f : Flags)
    (s : State) : s.keptOrFaulted (s.runPhases op f act) := by
  have hfetch := State.atPhase_keptOrFaulted (keepsStatus_latch op f) .fetch s
  have hmwait := State.keptOrFaulted_trans hfetch (State.atPhase_keptOrFaulted (keepsStatus_mwait f) .mwait _)
  have heload := State.keptOrFaulted_trans hmwait (State.atPhase_keptOrFaulted keepsStatus_eload .eload _)
  have hsrc := State.keptOrFaulted_trans heload (State.atPhase_keptOrFaulted keepsStatus_loadSrc .loadSrc _)
  have hdst := State.keptOrFaulted_trans hsrc (State.atPhase_keptOrFaulted keepsStatus_loadDst .loadDst _)
  have hexec := State.keptOrFaulted_trans hdst (State.atPhase_keptOrFaulted (keepsStatus_execute f ha) .exec _)
  exact State.keptOrFaulted_trans hexec (State.atPhase_keptOrFaulted keepsStatus_xhandoff .xhandoff _)

/-- No instruction halts the machine: it keeps `status` and `cause`, or faults with a cause. -/
theorem exec_keptOrFaulted {i : Instr} {s t : State} (h : exec i s = .next t) : s.keptOrFaulted t := by
  rw [exec_eq] at h
  cases h
  exact State.runPhases_keptOrFaulted (keepsStatus_selectorAction _) _ _ s

/-! ## The step -/

/-- What R25 says of a step that begins RUNNING and ends in `t`. -/
def State.runningStepOk (s t : State) : Prop :=
  (t.status = .halted ↔ s.phase = .fetch ∧ s.ip.toInt = s.code.length) ∧
    (t.status = .faulted → t.cause ≠ .bfNone) ∧ (t.status ≠ .faulted → t.cause = s.cause)

theorem State.runningStepOk_of_halt {s t : State} (hp : s.phase = .fetch) (hi : s.ip.toInt = s.code.length)
    (hst : t.status = .halted) (hca : t.cause = s.cause) : s.runningStepOk t :=
  ⟨iff_of_true hst ⟨hp, hi⟩, fun hx => by simp [hst] at hx, fun _ => hca⟩

/-- A step that does not begin with the halting FETCH and keeps `status` and `cause`, or faults with a cause. -/
theorem State.runningStepOk_of_keptOrFaulted {s t : State} (hs : s.status = .running)
    (hn : ¬(s.phase = .fetch ∧ s.ip.toInt = s.code.length)) (h : s.keptOrFaulted t) : s.runningStepOk t := by
  rcases h with ⟨hst, hca⟩ | ⟨hst, hca⟩
  · rw [hs] at hst
    exact ⟨iff_of_false (by simp [hst]) hn, fun hx => by simp [hst] at hx, fun _ => hca⟩
  · exact ⟨iff_of_false (by simp [hst]) hn, fun _ => hca, fun hx => absurd hst hx⟩

theorem step_runningStepOk {s t : State} (hs : s.status = .running) (h : step s = .next t) : s.runningStepOk t := by
  have notHalt : s.fetchAtIp ≠ .halt → ¬(s.phase = .fetch ∧ s.ip.toInt = s.code.length) :=
    fun hf hx => hf (s.fetchAtIp_eq_halt_iff.2 hx.2)
  cases step_cases h with
  | stopped hstop => exact absurd hs hstop
  | halts _ hp hf =>
    exact State.runningStepOk_of_halt hp (s.fetchAtIp_eq_halt_iff.1 hf) (State.interfere_status _)
      (State.interfere_cause _)
  | codeFault _ _ hf =>
    refine State.runningStepOk_of_keptOrFaulted hs (notHalt (by simp [hf])) (.inr ⟨State.interfere_status _, ?_⟩)
    rw [State.interfere_cause]
    exact Fault.toCause_ne_bfNone .codeRange
  | fetches _ _ hf he =>
    exact State.runningStepOk_of_keptOrFaulted hs (notHalt (by simp [hf])) (exec_keptOrFaulted he)
  | resumes _ hp he =>
    exact State.runningStepOk_of_keptOrFaulted hs (fun hx => hp hx.1) (exec_keptOrFaulted he)

/-- A step of a machine that is not RUNNING is the other agents' turn alone (R256). -/
theorem step_stopped {s t : State} (hs : s.status ≠ .running) (h : step s = .next t) : t = s.interfere := by
  cases step_cases h with
  | stopped _ => rfl
  | halts hr _ _ => exact absurd hr hs
  | codeFault hr _ _ => exact absurd hr hs
  | fetches hr _ _ _ => exact absurd hr hs
  | resumes hr _ _ => exact absurd hr hs

/-- Settles O11, by the branches of `step`: the phases of an instruction keep `status` and `cause` or take a fault. -/
theorem statusTransitions : Obligations.StatusTransitions := by
  intro s t h
  refine ⟨fun hs => ?_, fun hs => step_runningStepOk hs h⟩
  rw [step_stopped hs h]
  exact s.interfere_sameStatus

end Sys2Proof.Machine
end

