-- ==== Sys2Proof/Proofs/OwnSignals.lean ====
section
/-! The ownership outputs of a block by its lock-table entry (spec/10_state.md R34). -/

namespace Sys2Proof.Machine

theorem State.lockOfBlock_of_unset {s : State} {b : Nat} (h : s.lt[b]? = some none) : s.lockOfBlock b = none := by
  simp [State.lockOfBlock, h]

theorem State.lockOfBlock_of_same_entry {s : State} {b b' : Nat} (h : s.lt[b']? = s.lt[b]?) :
    s.lockOfBlock b' = s.lockOfBlock b := by
  simp [State.lockOfBlock, h]

theorem State.ownSignals_of_cell {s : State} {b : Nat} {l : LockId} {c : LockCell} (hl : s.lt[b]? = some (some l))
    (hc : s.cells[l]? = some c) : s.ownSignals b = c.signals l := by
  simp [State.ownSignals, State.lockOfBlock_eq.2 hl, hc]

theorem State.ownSignals_of_unset {s : State} {b : Nat} (h : s.lt[b]? = some none) :
    s.ownSignals b = { ownExcl := false, ownHolder := machineId, ownReaders := 0 } := by
  simp [State.ownSignals, State.lockOfBlock_of_unset h]

/-- The block's number enters its outputs through its table entry alone. -/
theorem State.ownSignals_of_same_entry {s : State} {b b' : Nat} (h : s.lt[b']? = s.lt[b]?) :
    s.ownSignals b' = s.ownSignals b := by
  simp [State.ownSignals, State.lockOfBlock_of_same_entry h]

theorem LockCell.signals_holder {c : LockCell} {a : AgentId} (h : c.claim = some a) (l : LockId) :
    (c.signals l).ownHolder = a := by
  simp [LockCell.signals, h]

/-- Settles O40, by the block's table entry: it names a cell, it is UNSET, or it is another block's too. -/
theorem ownershipSignalsShowCell : Obligations.OwnershipSignalsShowCell := by
  intro s b
  refine ⟨fun l c hl hc => ?_, State.ownSignals_of_unset, fun b' => State.ownSignals_of_same_entry⟩
  rw [State.ownSignals_of_cell hl hc]
  exact ⟨rfl, rfl, fun a ha => LockCell.signals_holder ha l⟩

end Sys2Proof.Machine
end

