-- ==== Sys2Proof/Proofs/StepPhases.lean ====
section
/-! How a step is put together (spec/40_step_common.md R100): its phases as one family, VALUE's own action by whether
`dp` names a Word, the branches of `step` read towards its answer, and one step of a run. -/

namespace Sys2Proof.Machine

/-! ## The seven phases as one family -/

/-- The phases a step is made of, each with its effect (R100): what `State.runPhases` chains. -/
inductive PhaseEffect (op : Byte) (f : Flags) (act : State → Except Fault State) :
    Phase → (State → Except Fault State) → Prop
  | fetch : PhaseEffect op f act .fetch fun t => .ok (t.latch op f)
  | mwait : PhaseEffect op f act .mwait (State.mwait f)
  | eload : PhaseEffect op f act .eload State.eload
  | loadSrc : PhaseEffect op f act .loadSrc State.loadSrc
  | loadDst : PhaseEffect op f act .loadDst State.loadDst
  | exec : PhaseEffect op f act .exec (State.execute f act)
  | xhandoff : PhaseEffect op f act .xhandoff State.xhandoff

/-- A property of state changes that composition keeps holds of a whole step if it holds of each phase. -/
theorem State.runPhases_of_phases {P : (State → State) → Prop} {op : Byte} {f : Flags}
    {act : State → Except Fault State}
    (hcomp : ∀ {F G : State → State}, P F → P G → P fun s => G (F s))
    (hphase : ∀ {p g}, PhaseEffect op f act p g → P fun s => s.atPhase p g) : P fun s => s.runPhases op f act :=
  have hfetch := hphase .fetch
  have hmwait := hcomp hfetch (hphase .mwait)
  have heload := hcomp hmwait (hphase .eload)
  have hsrc := hcomp heload (hphase .loadSrc)
  have hdst := hcomp hsrc (hphase .loadDst)
  have hexec := hcomp hdst (hphase .exec)
  have hxhandoff := hcomp hexec (hphase .xhandoff)
  hxhandoff

/-! ## The action of VALUE -/

theorem valueAction_ok {s : State} (h : s.inData s.dp) :
    valueAction s =
      .ok (State.moveBoth { s with data := s.data.writeWord s.dp.toNat (s.src + s.mag) }).afterStore := by
  rw [valueAction, State.memWrite_ok h]

theorem valueAction_error {s : State} (h : ¬s.inData s.dp) : valueAction s = .error .dpRange := by
  rw [valueAction, State.memWrite_error h]

/-! ## The branches of `step` -/

/-- The branches of `step` are all there is to it: each gives the step's answer. -/
theorem step_of_case {s t : State} (h : StepCase s t) : step s = .next t := by
  cases h with
  | stopped hs =>
    cases hst : s.status with
    | running => exact absurd hst hs
    | halted => simp [step, hst]
    | faulted => simp [step, hst]
  | halts hs hp hf => simp [step, hs, hp, hf]
  | codeFault hs hp hf => simp [step, hs, hp, hf]
  | fetches hs hp hf he => simp [step, hs, hp, hf, he]
  | resumes hs hp he =>
    unfold step
    rw [hs]
    dsimp only
    split
    · rename_i hfetch; exact absurd hfetch hp
    · exact he

theorem exists_stepCase (s : State) : ∃ t, StepCase s t := by
  by_cases hs : s.status = .running
  · by_cases hp : s.phase = .fetch
    · cases hf : s.fetchAtIp with
      | halt => exact ⟨_, .halts hs hp hf⟩
      | outOfRange => exact ⟨_, .codeFault hs hp hf⟩
      | opcode b =>
        obtain ⟨t, he⟩ := exec_next (decodeByte b) s
        exact ⟨t, .fetches hs hp hf he⟩
    · obtain ⟨t, he⟩ := exec_next (decodeByte s.op) s
      exact ⟨t, .resumes hs hp he⟩
  · exact ⟨_, .stopped hs⟩

/-! ## A run -/

theorem coreRun_succ (M : Host.Core) {s t : M.State} (n : Nat) (h : M.step s = .next t) :
    M.run (n + 1) s = M.run n t := by
  rw [Host.Core.run, h]

end Sys2Proof.Machine
end

