-- ==== Sys2Proof/Proofs/LaunchState.lean ====
section
/-! What a run never changes (spec/20_memory.md R67, R69): no phase of a step, no FETCH and no other agent touches the
launch state. A phase of the machine also leaves the interleaving input `env` alone. -/

namespace Sys2Proof.Machine

/-! ## Phases that keep the launch state -/

/-- What no action of the machine changes: the launch state and the interleaving input. -/
def MachineKept (s t : State) : Prop := s.sameLaunch t ∧ t.env = s.env

theorem MachineKept.launch {s t : State} (h : MachineKept s t) : s.sameLaunch t := h.1

theorem MachineKept.env {s t : State} (h : MachineKept s t) : t.env = s.env := h.2

theorem MachineKept.refl (s : State) : MachineKept s s := ⟨s.sameLaunch_refl, rfl⟩

theorem MachineKept.setCell (s : State) (l : LockId) (c : LockCell) : MachineKept s (s.setCell l c) :=
  ⟨(EnvChange.setCell s l c).launch, rfl⟩

theorem MachineKept.takeFault (s : State) (e : Fault) : MachineKept s (s.takeFault e) := .refl s

/-- Where `g` raises no fault, it leaves the launch state and `env` alone. -/
def KeepsLaunch (g : State → Except Fault State) : Prop := ∀ ⦃s t : State⦄, g s = .ok t → MachineKept s t

theorem keepsLaunch_latch (op : Byte) (f : Flags) : KeepsLaunch fun s => .ok (s.latch op f) := by
  intro s t h
  cases h
  exact .refl s

theorem keepsLaunch_mwait (f : Flags) : KeepsLaunch (State.mwait f) := by
  intro s t h
  cases hh : s.machineHandoff s.dp with
  | error e => rw [State.mwait_of_fault hh] at h; cases h
  | ok r =>
    obtain ⟨got, u⟩ := r
    rw [State.mwait_of_handoff hh] at h
    obtain ⟨l, c, c', -, -, -, rfl⟩ := State.machineHandoff_ok hh
    cases h
    split <;> exact MachineKept.setCell s l c'

theorem keepsLaunch_eload : KeepsLaunch State.eload := by
  intro s t h
  by_cases hd : s.inData s.sp
  · rw [State.eload_ok hd] at h; cases h; exact .refl s
  · rw [State.eload_error hd] at h; cases h

theorem keepsLaunch_loadSrc : KeepsLaunch State.loadSrc := by
  intro s t h
  by_cases hd : s.inData s.sp
  · rw [State.loadSrc_ok hd] at h; cases h; exact .refl s
  · rw [State.loadSrc_error hd] at h; cases h

theorem keepsLaunch_loadDst : KeepsLaunch State.loadDst := by
  intro s t h
  by_cases hd : s.inData s.dp
  · rw [State.loadDst_ok hd] at h; cases h; exact .refl s
  · rw [State.loadDst_error hd] at h; cases h

theorem keepsLaunch_valueAction : KeepsLaunch valueAction := by
  intro s t h
  by_cases hd : s.inData s.dp
  · rw [valueAction_ok hd] at h
    cases h
    unfold State.afterStore
    split <;> exact .refl s
  · rw [valueAction_error hd] at h; cases h

theorem keepsLaunch_selectorAction (c : Selector) : KeepsLaunch (selectorAction c) := by
  cases c with
  | src => intro s t h; cases h; exact .refl s
  | dst => intro s t h; cases h; exact .refl s
  | code => intro s t h; cases h; exact .refl s
  | value => exact keepsLaunch_valueAction

theorem keepsLaunch_execute (f : Flags) {act : State → Except Fault State} (ha : KeepsLaunch act) :
    KeepsLaunch (State.execute f act) := by
  intro s t h
  cases he : eligible f s.src s.dst with
  | true =>
    rw [State.execute_eligible act he] at h
    have hact : MachineKept { s with mag := appliedMag f s.mag } t := ha h
    exact hact
  | false => rw [State.execute_ineligible act he] at h; cases h; exact .refl s

theorem keepsLaunch_xhandoff : KeepsLaunch State.xhandoff := by
  intro s t h
  cases h
  rcases s.crossBlockHandoff_cases with hx | ⟨l, c, a, -, -, -, -, -, hx⟩
  · rw [hx]; exact .refl s
  · rw [hx]; exact MachineKept.setCell s l c.cleared

theorem PhaseEffect.keepsLaunch {op : Byte} {f : Flags} {act g : State → Except Fault State} {p : Phase}
    (ha : KeepsLaunch act) (h : PhaseEffect op f act p g) : KeepsLaunch g := by
  cases h with
  | fetch => exact keepsLaunch_latch op f
  | mwait => exact keepsLaunch_mwait f
  | eload => exact keepsLaunch_eload
  | loadSrc => exact keepsLaunch_loadSrc
  | loadDst => exact keepsLaunch_loadDst
  | exec => exact keepsLaunch_execute f ha
  | xhandoff => exact keepsLaunch_xhandoff

/-! ## The step and the machine's single action -/

/-- A phase keeps the launch state and `env` whether it ends or faults. -/
theorem KeepsLaunch.orFault {g : State → Except Fault State} (hg : KeepsLaunch g) (s : State) :
    MachineKept s (s.orFault (g s)) := by
  cases hr : g s with
  | ok t => exact hg hr
  | error e => exact .takeFault s e

theorem KeepsLaunch.atPhase {g : State → Except Fault State} (hg : KeepsLaunch g) (p : Phase) (s : State) :
    s.sameLaunch (s.atPhase p g) := by
  by_cases hr : s.status = .running ∧ s.phase = p
  · rw [State.atPhase_run g hr.1 hr.2]
    exact State.sameLaunch_trans (hg.orFault s).launch (State.interfere_launch _)
  · rw [State.atPhase_skip g (not_and_or.1 hr)]
    exact s.sameLaunch_refl

theorem exec_sameLaunch {i : Instr} {s t : State} (h : exec i s = .next t) : s.sameLaunch t := by
  rw [exec_eq] at h
  cases h
  exact State.runPhases_of_phases (P := fun F => ∀ s, s.sameLaunch (F s))
    (fun hF hG s => State.sameLaunch_trans (hF s) (hG _))
    (fun hp => (hp.keepsLaunch (keepsLaunch_selectorAction _)).atPhase _) s

theorem step_sameLaunch {s t : State} (h : step s = .next t) : s.sameLaunch t := by
  cases step_cases h with
  | stopped _ => exact s.interfere_launch
  | halts _ _ _ => exact State.sameLaunch_trans s.sameLaunch_refl (State.interfere_launch _)
  | codeFault _ _ _ => exact State.sameLaunch_trans (MachineKept.takeFault s _).launch (State.interfere_launch _)
  | fetches _ _ _ he => exact exec_sameLaunch he
  | resumes _ _ he => exact exec_sameLaunch he

theorem State.fetchAct_kept (s : State) : MachineKept s s.fetchAct := by
  unfold State.fetchAct
  split <;> exact .refl s

/-- No single action of the machine touches the launch state or `env`. -/
theorem State.machineAct_kept (s : State) : MachineKept s s.machineAct := by
  unfold State.machineAct
  split
  · exact s.fetchAct_kept
  · exact (keepsLaunch_mwait _).orFault s
  · exact keepsLaunch_eload.orFault s
  · exact keepsLaunch_loadSrc.orFault s
  · exact keepsLaunch_loadDst.orFault s
  · exact (keepsLaunch_execute _ (keepsLaunch_selectorAction _)).orFault s
  · exact keepsLaunch_xhandoff.orFault s
  · exact .refl s
  · exact .refl s

theorem State.turn_sameLaunch (s : State) (m : Turn) : s.sameLaunch (s.turn m) := by
  cases m with
  | machine => exact s.machineAct_kept.launch
  | other a => exact (s.envAct_change a).launch

/-- Settles O49, by the branches of `step` and by whose turn it is. -/
theorem runKeepsLaunchState : Obligations.RunKeepsLaunchState :=
  ⟨fun _ _ h => step_sameLaunch h, State.turn_sameLaunch⟩

end Sys2Proof.Machine
end

