-- ==== Sys2Proof/Proofs/ByteOrder.lean ====
section
/-! BYTE_ORDER (spec/20_memory.md R53): the two byte views of a Word, and that the machine does not see the order: every
phase commutes with setting it, so an undisturbed step does, and so does a run of any length. -/

namespace Sys2Proof.Machine

/-! ## The byte view -/

theorem wordBytes_eq_map_range (w : Word) : wordBytes w = (List.range 8).map (wordByte w) := rfl

@[simp] theorem wordBytes_length (w : Word) : (wordBytes w).length = 8 := rfl

@[simp] theorem viewBytes_length (o : ByteOrder) (w : Word) : (viewBytes o w).length = 8 := by
  cases o with
  | le => rfl
  | be => simp [viewBytes]

theorem wordBytes_getElem? (w : Word) {j : Nat} (hj : j < 8) : (wordBytes w)[j]? = some (wordByte w j) := by
  simp [wordBytes_eq_map_range, hj]

theorem viewBytes_le_getElem? (w : Word) {j : Nat} (hj : j < 8) :
    (viewBytes .le w)[j]? = some (w.extractLsb' (8 * j) 8) := wordBytes_getElem? w hj

/-- Under BE byte `j` of the view is byte `7 - j` under LE. -/
theorem viewBytes_be_getElem? (w : Word) {j : Nat} (hj : j < 8) :
    (viewBytes .be w)[j]? = some (w.extractLsb' (56 - 8 * j) 8) := by
  have hpos : 8 * (8 - 1 - j) = 56 - 8 * j := by omega
  rw [viewBytes, List.getElem?_reverse (by simpa using hj), wordBytes_length, wordBytes_getElem? w (by omega), wordByte,
    hpos]

/-! ## Setting the byte order -/

/-- The state with another BYTE_ORDER. -/
def State.withByteOrder (s : State) (o : ByteOrder) : State := { s with params := { s.params with byteOrder := o } }

/-- The answer of a phase, with another BYTE_ORDER in its state. -/
abbrev withByteOrderResult (o : ByteOrder) (r : Except Fault State) : Except Fault State :=
  r.map fun t => t.withByteOrder o

/-- A phase effect that does not see BYTE_ORDER: it faults alike under every order, and ends alike but for it. -/
def ByteOrderBlind (g : State → Except Fault State) : Prop :=
  ∀ (s : State) (o : ByteOrder), g (s.withByteOrder o) = withByteOrderResult o (g s)

theorem byteOrderBlind_latch (op : Byte) (f : Flags) : ByteOrderBlind fun s => .ok (s.latch op f) := fun _ _ => rfl

theorem State.machineHandoff_withByteOrder (s : State) (o : ByteOrder) (i : Word) :
    (s.withByteOrder o).machineHandoff i = (s.machineHandoff i).map fun r => (r.1, r.2.withByteOrder o) := by
  have hl : (s.withByteOrder o).lockFor i = s.lockFor i := rfl
  have hc : (s.withByteOrder o).cells = s.cells := rfl
  have hp : (s.withByteOrder o).params.relFree = s.params.relFree := rfl
  unfold State.machineHandoff
  rw [hl, hc, hp]
  split
  · rfl
  · split
    · rfl
    · split <;> rfl

theorem byteOrderBlind_mwait (f : Flags) : ByteOrderBlind (State.mwait f) := by
  intro s o
  have hh := s.machineHandoff_withByteOrder o s.dp
  cases hr : s.machineHandoff s.dp with
  | error e =>
    rw [hr] at hh
    rw [State.mwait_of_fault hr, State.mwait_of_fault (s := s.withByteOrder o) hh]
    rfl
  | ok r =>
    obtain ⟨got, u⟩ := r
    rw [hr] at hh
    rw [State.mwait_of_handoff hr, State.mwait_of_handoff (s := s.withByteOrder o) hh]
    have hretry : (s.withByteOrder o).params.mwaitRetry = s.params.mwaitRetry := rfl
    rw [hretry]
    split <;> rfl

theorem byteOrderBlind_eload : ByteOrderBlind State.eload := by
  intro s o
  by_cases hd : s.inData s.sp
  · rw [State.eload_ok hd, State.eload_ok (s := s.withByteOrder o) hd]; rfl
  · rw [State.eload_error hd, State.eload_error (s := s.withByteOrder o) hd]; rfl

theorem byteOrderBlind_loadSrc : ByteOrderBlind State.loadSrc := by
  intro s o
  by_cases hd : s.inData s.sp
  · rw [State.loadSrc_ok hd, State.loadSrc_ok (s := s.withByteOrder o) hd]; rfl
  · rw [State.loadSrc_error hd, State.loadSrc_error (s := s.withByteOrder o) hd]; rfl

theorem byteOrderBlind_loadDst : ByteOrderBlind State.loadDst := by
  intro s o
  by_cases hd : s.inData s.dp
  · rw [State.loadDst_ok hd, State.loadDst_ok (s := s.withByteOrder o) hd]; rfl
  · rw [State.loadDst_error hd, State.loadDst_error (s := s.withByteOrder o) hd]; rfl

theorem State.afterStore_withByteOrder (s : State) (o : ByteOrder) :
    (s.withByteOrder o).afterStore = s.afterStore.withByteOrder o := by
  have hb : (s.withByteOrder o).atBlockStart (s.withByteOrder o).dp = s.atBlockStart s.dp := rfl
  unfold State.afterStore
  rw [hb]
  split <;> rfl

theorem byteOrderBlind_valueAction : ByteOrderBlind valueAction := by
  intro s o
  by_cases hd : s.inData s.dp
  · rw [valueAction_ok hd, valueAction_ok (s := s.withByteOrder o) hd]
    exact congrArg Except.ok
      (State.afterStore_withByteOrder (State.moveBoth { s with data := s.data.writeWord s.dp.toNat (s.src + s.mag) }) o)
  · rw [valueAction_error hd, valueAction_error (s := s.withByteOrder o) hd]; rfl

theorem byteOrderBlind_selectorAction (c : Selector) : ByteOrderBlind (selectorAction c) := by
  cases c with
  | src => exact fun _ _ => rfl
  | dst => exact fun _ _ => rfl
  | code => exact fun _ _ => rfl
  | value => exact byteOrderBlind_valueAction

theorem byteOrderBlind_execute (f : Flags) {act : State → Except Fault State} (ha : ByteOrderBlind act) :
    ByteOrderBlind (State.execute f act) := by
  intro s o
  cases he : eligible f s.src s.dst with
  | true =>
    rw [State.execute_eligible act he, State.execute_eligible (s := s.withByteOrder o) act he]
    exact ha { s with mag := appliedMag f s.mag } o
  | false => rw [State.execute_ineligible act he, State.execute_ineligible (s := s.withByteOrder o) act he]; rfl

theorem State.crossBlockHandoff_withByteOrder (s : State) (o : ByteOrder) :
    (s.withByteOrder o).crossBlockHandoff = s.crossBlockHandoff.withByteOrder o := by
  have hl : (s.withByteOrder o).lockFor (s.withByteOrder o).dp = s.lockFor s.dp := rfl
  have hc : (s.withByteOrder o).cells = s.cells := rfl
  unfold State.crossBlockHandoff
  rw [hl, hc]
  split
  · rfl
  · split
    · rfl
    · split
      · rfl
      · split
        · rfl
        · split <;> rfl

theorem byteOrderBlind_xhandoff : ByteOrderBlind State.xhandoff := fun s o =>
  congrArg (fun t : State => (Except.ok t.advance : Except Fault State)) (s.crossBlockHandoff_withByteOrder o)

theorem PhaseEffect.byteOrderBlind {op : Byte} {f : Flags} {act g : State → Except Fault State} {p : Phase}
    (ha : ByteOrderBlind act) (h : PhaseEffect op f act p g) : ByteOrderBlind g := by
  cases h with
  | fetch => exact byteOrderBlind_latch op f
  | mwait => exact byteOrderBlind_mwait f
  | eload => exact byteOrderBlind_eload
  | loadSrc => exact byteOrderBlind_loadSrc
  | loadDst => exact byteOrderBlind_loadDst
  | exec => exact byteOrderBlind_execute f ha
  | xhandoff => exact byteOrderBlind_xhandoff

/-! ## Undisturbed steps -/

/-- A state change that leaves an undisturbed machine undisturbed and then does not see BYTE_ORDER. Other agents would
see it: a writer copies Words in that order. -/
def AloneBlind (F : State → State) : Prop :=
  ∀ s : State, s.alone → (F s).alone ∧ ∀ o, F (s.withByteOrder o) = (F s).withByteOrder o

theorem AloneBlind.comp {F G : State → State} (hF : AloneBlind F) (hG : AloneBlind G) :
    AloneBlind fun s => G (F s) := by
  intro s hs
  obtain ⟨hFs, hFo⟩ := hF s hs
  obtain ⟨hGs, hGo⟩ := hG (F s) hFs
  exact ⟨hGs, fun o => (congrArg G (hFo o)).trans (hGo o)⟩

theorem aloneBlind_interfere : AloneBlind State.interfere := by
  intro s hs
  rw [State.interfere_alone hs]
  exact ⟨hs, fun o => State.interfere_alone (s := s.withByteOrder o) hs⟩

theorem ByteOrderBlind.orFault {g : State → Except Fault State} (hg : ByteOrderBlind g) (hk : KeepsLaunch g) :
    AloneBlind fun s => s.orFault (g s) := by
  intro s hs
  refine ⟨(hk.orFault s).env.trans hs, fun o => ?_⟩
  dsimp only
  rw [hg s o]
  cases g s with
  | ok t => rfl
  | error e => rfl

theorem ByteOrderBlind.atPhase {g : State → Except Fault State} (hg : ByteOrderBlind g) (hk : KeepsLaunch g)
    (p : Phase) : AloneBlind fun s => s.atPhase p g := by
  intro s hs
  dsimp only
  by_cases hr : s.status = .running ∧ s.phase = p
  · rw [State.atPhase_run g hr.1 hr.2]
    obtain ⟨halone, hblind⟩ := (hg.orFault hk).comp aloneBlind_interfere s hs
    exact ⟨halone, fun o => (State.atPhase_run (s := s.withByteOrder o) g hr.1 hr.2).trans (hblind o)⟩
  · rw [State.atPhase_skip g (not_and_or.1 hr)]
    exact ⟨hs, fun o => State.atPhase_skip (s := s.withByteOrder o) g (not_and_or.1 hr)⟩

theorem aloneBlind_runPhases (op : Byte) (f : Flags) (c : Selector) :
    AloneBlind fun s => s.runPhases op f (selectorAction c) :=
  State.runPhases_of_phases AloneBlind.comp fun hp =>
    (hp.byteOrderBlind (byteOrderBlind_selectorAction c)).atPhase (hp.keepsLaunch (keepsLaunch_selectorAction c)) _

theorem exec_withByteOrder {i : Instr} {s t : State} (hs : s.alone) (h : exec i s = .next t) :
    t.alone ∧ ∀ o, exec i (s.withByteOrder o) = .next (t.withByteOrder o) := by
  rw [exec_eq] at h
  cases h
  obtain ⟨halone, hblind⟩ := aloneBlind_runPhases (encodeByte i) i.flags i.selector s hs
  exact ⟨halone, fun o => (exec_eq i _).trans (congrArg Host.Outcome.next (hblind o))⟩

/-- An undisturbed step takes the same branch under every BYTE_ORDER. -/
theorem StepCase.withByteOrder {s t : State} (hs : s.alone) (h : StepCase s t) :
    t.alone ∧ ∀ o, StepCase (s.withByteOrder o) (t.withByteOrder o) := by
  cases h with
  | stopped hstop =>
    obtain ⟨halone, hblind⟩ := aloneBlind_interfere s hs
    exact ⟨halone, fun o => hblind o ▸ .stopped hstop⟩
  | halts hr hp hf =>
    obtain ⟨halone, hblind⟩ := aloneBlind_interfere { s with status := .halted } hs
    exact ⟨halone, fun o => hblind o ▸ .halts hr hp hf⟩
  | codeFault hr hp hf =>
    obtain ⟨halone, hblind⟩ := aloneBlind_interfere (s.takeFault .codeRange) hs
    exact ⟨halone, fun o => hblind o ▸ .codeFault hr hp hf⟩
  | fetches hr hp hf he =>
    obtain ⟨halone, hblind⟩ := exec_withByteOrder hs he
    exact ⟨halone, fun o => .fetches hr hp hf (hblind o)⟩
  | resumes hr hp he =>
    obtain ⟨halone, hblind⟩ := exec_withByteOrder hs he
    exact ⟨halone, fun o => .resumes hr hp (hblind o)⟩

/-! ## Runs -/

theorem run_withByteOrder (n : Nat) (o : ByteOrder) (s : State) (hs : s.alone) :
    ∃ t, core.run n s = .next t ∧ core.run n (s.withByteOrder o) = .next (t.withByteOrder o) := by
  induction n generalizing s with
  | zero => exact ⟨s, rfl, rfl⟩
  | succ n ih =>
    obtain ⟨u, hu⟩ := exists_stepCase s
    obtain ⟨halone, hblind⟩ := hu.withByteOrder hs
    obtain ⟨t, hrun, hrun'⟩ := ih u halone
    exact ⟨t, (coreRun_succ core n (step_of_case hu)).trans hrun,
      (coreRun_succ core n (step_of_case (hblind o))).trans hrun'⟩

theorem step_byteOrder {s t : State} (h : step s = .next t) : t.params.byteOrder = s.params.byteOrder := by
  obtain ⟨-, -, -, hparams, -, -⟩ := step_sameLaunch h
  rw [hparams]

/-- Settles O54, by induction on the number of steps: an undisturbed step takes the same branch under every order. -/
theorem byteOrderOnlyInWriterView : Obligations.ByteOrderOnlyInWriterView :=
  ⟨fun w => ⟨viewBytes_length .le w, viewBytes_length .be w, fun _ hj =>
      ⟨viewBytes_le_getElem? w hj, viewBytes_be_getElem? w hj⟩⟩,
    fun n s o hs => run_withByteOrder n o s hs, fun _ _ h => step_byteOrder h⟩

end Sys2Proof.Machine
end

