-- ==== Sys2Proof/Proofs/DecodeFields.lean ====
section
/-! Decoding read as bit fields (spec/30_encoding.md R81 to R89): the row that matches a byte is the one of its bits 1:0,
each flag is one bit, and FETCH inside the code array hands the element at `ip` to the decoder. -/

namespace Sys2Proof

/-! ## The instruction of a selector and its flags -/

@[simp] theorem Instr.ofSelector_selector (c : Selector) (f : Flags) : (Instr.ofSelector c f).selector = c := by
  cases c <;> rfl

@[simp] theorem Instr.ofSelector_flags (c : Selector) (f : Flags) : (Instr.ofSelector c f).flags = f := by
  cases c <;> rfl

@[simp] theorem decodeByte_selector (op : Byte) : (decodeByte op).selector = decodeSelector op :=
  Instr.ofSelector_selector _ _

@[simp] theorem decodeByte_flags (op : Byte) : (decodeByte op).flags = decodeFlags op :=
  Instr.ofSelector_flags _ _

/-! ## The selector field -/

theorem selectorCode_injective : Function.Injective selectorCode := by
  intro c d
  cases c <;> cases d <;> decide

/-- The selector mask leaves bits 1:0 (R81). -/
theorem and_selectorMask_toNat (op : Byte) : (op &&& selectorMask).toNat = (op.extractLsb' 0 2).toNat := by
  rw [BitVec.toNat_and, BitVec.extractLsb'_toNat, Nat.shiftRight_zero]
  exact Nat.and_two_pow_sub_one_eq_mod op.toNat 2

theorem matchesSelector_iff (op : Byte) (c : Selector) :
    matchesSelector op c = true ↔ op &&& selectorMask = selectorCode c := beq_iff_eq

/-- A row of the opcode table matches exactly the bytes with its code in bits 1:0 (R83, R86). -/
theorem matchesSelector_iff_field (op : Byte) (c : Selector) :
    matchesSelector op c = true ↔ (op.extractLsb' 0 2).toNat = (selectorCode c).toNat := by
  rw [matchesSelector_iff, ← and_selectorMask_toNat, BitVec.toNat_inj]

/-- Some row matches: two bits have four values, and each is a selector's code (R86). -/
theorem exists_matchesSelector (op : Byte) : ∃ c, matchesSelector op c = true := by
  simp only [matchesSelector_iff_field]
  have hlt : (op.extractLsb' 0 2).toNat < 4 := (op.extractLsb' 0 2).isLt
  interval_cases (op.extractLsb' 0 2).toNat
  · exact ⟨.src, rfl⟩
  · exact ⟨.dst, rfl⟩
  · exact ⟨.code, rfl⟩
  · exact ⟨.value, rfl⟩

/-- At most one row matches (R86). -/
theorem matchesSelector_unique {op : Byte} {c d : Selector} (hc : matchesSelector op c = true)
    (hd : matchesSelector op d = true) : c = d :=
  selectorCode_injective (((matchesSelector_iff op c).1 hc).symm.trans ((matchesSelector_iff op d).1 hd))

/-- The decoder's chain of tests finds the matching row; its untested last case is right because some row matches. -/
theorem matchesSelector_decodeSelector (op : Byte) : matchesSelector op (decodeSelector op) = true := by
  unfold decodeSelector
  split_ifs with hsrc hdst hcode
  · exact hsrc
  · exact hdst
  · exact hcode
  · obtain ⟨c, hc⟩ := exists_matchesSelector op
    cases c with
    | src => exact absurd hc hsrc
    | dst => exact absurd hc hdst
    | code => exact absurd hc hcode
    | value => exact hc

theorem decodeSelector_eq_iff (op : Byte) (c : Selector) : decodeSelector op = c ↔ matchesSelector op c = true :=
  ⟨fun h => h ▸ matchesSelector_decodeSelector op, matchesSelector_unique (matchesSelector_decodeSelector op)⟩

/-- Bits 1:0 are the code of the decoded selector (R83). -/
theorem field_eq_selectorCode (op : Byte) :
    (op.extractLsb' 0 2).toNat = (selectorCode (decodeSelector op)).toNat :=
  (matchesSelector_iff_field op _).1 (matchesSelector_decodeSelector op)

/-! ## The flags -/

/-- The bit number of each flag (R84). -/
def flagBit : Flag → Nat
  | .invert => 2
  | .extend => 3
  | .mutexWait => 4
  | .lower => 5
  | .equal => 6
  | .greater => 7

theorem flagMask_eq_twoPow (g : Flag) : flagMask g = BitVec.twoPow 8 (flagBit g) := by
  cases g <;> rfl

theorem flagMask_ne_zero (g : Flag) : flagMask g ≠ 0 := by
  cases g <;> decide

/-- Testing a flag with its mask reads the flag's own bit (R84). -/
theorem flagSet_eq_getLsbD (op : Byte) (g : Flag) : flagSet op g = op.getLsbD (flagBit g) := by
  have hand : op &&& flagMask g = if op.getLsbD (flagBit g) then flagMask g else 0 := by
    rw [flagMask_eq_twoPow]
    exact BitVec.and_twoPow op _
  unfold flagSet
  rw [hand]
  cases op.getLsbD (flagBit g) with
  | false => rfl
  | true => exact bne_iff_ne.2 (flagMask_ne_zero g)

theorem decodeFlags_eq (op : Byte) :
    decodeFlags op =
      ⟨op.getLsbD 2, op.getLsbD 3, op.getLsbD 4, op.getLsbD 5, op.getLsbD 6, op.getLsbD 7⟩ := by
  simp only [decodeFlags, flagSet_eq_getLsbD, flagBit]

end Sys2Proof

namespace Sys2Proof.Machine

/-! ## FETCH inside the code array -/

theorem index?_of_toInt_eq {len n : Nat} {c : Word} (hc : c.toInt = n) (hn : n < len) : index? len c = some n := by
  refine index?_eq_some.2 ⟨by omega, ?_⟩
  have hlt := c.isLt
  rw [BitVec.toInt_eq_toNat_cond] at hc
  split at hc <;> omega

theorem State.fetchAtIp_of_lt {s : State} {n : Nat} (hip : s.ip.toInt = n) (hn : n < s.code.length) :
    s.fetchAtIp = .opcode s.code[n] := by
  unfold State.fetchAtIp
  rw [if_neg (by omega), index?_of_toInt_eq hip hn]
  simp only [List.getElem?_eq_getElem hn]

/-- A ready machine that fetches an opcode runs its decoding (R100). -/
theorem step_of_fetch {s : State} {b : Byte} (hs : s.ready) (hf : s.fetchAtIp = .opcode b) :
    step s = exec (decodeByte b) s := by
  obtain ⟨hstatus, hphase⟩ := hs
  simp only [step, hstatus, hphase, hf]

/-! ## The obligations -/

/-- Settles O2, by the bits each mask leaves, and for the running machine by what FETCH finds at `ip`. -/
theorem decodeReadsBitFields : Obligations.DecodeReadsBitFields := by
  refine ⟨fun b => ⟨?_, ?_⟩, fun s n hs hip hn => ?_⟩
  · rw [decodeByte_selector, field_eq_selectorCode]
    cases decodeSelector b <;> rfl
  · rw [decodeByte_flags, decodeFlags_eq]
  · have hf := State.fetchAtIp_of_lt hip hn
    exact ⟨s.code[n], List.getElem?_eq_getElem hn, hf, step_of_fetch hs hf⟩

/-- Settles O3: the decoded selector is the one matching row. -/
theorem opcodeRowsPartition : Obligations.OpcodeRowsPartition := by
  intro b
  have hrow : ∀ c, (decodeByte b).selector = c ↔ b &&& selectorMask = selectorCode c := fun c => by
    rw [decodeByte_selector, decodeSelector_eq_iff, matchesSelector_iff]
  exact ⟨hrow .src, hrow .dst, hrow .code, hrow .value, decodeSelector b, matchesSelector_decodeSelector b,
    fun d hd => matchesSelector_unique hd (matchesSelector_decodeSelector b)⟩

end Sys2Proof.Machine
end

