-- ==== Sys2Proof/Proofs/PhaseActions.lean ====
section
/-! The machine's phases as single atomic actions (spec/40_step_common.md R101 to R113): what FETCH finds at `ip`, the
operand loads with their bounds faults, the guard, and EXEC by selector. -/

namespace Sys2Proof.Machine

/-! ## The action of each phase -/

/-- A machine that has left RUNNING takes no action (R25). -/
theorem State.machineAct_stopped {s : State} (hs : s.status ≠ .running) : s.machineAct = s := by
  cases hst : s.status with
  | running => exact absurd hst hs
  | halted | faulted => simp only [State.machineAct, hst]

theorem State.machineAct_fetch {s : State} (hs : s.ready) : s.machineAct = s.fetchAct := by
  obtain ⟨hstatus, hphase⟩ := hs
  simp only [State.machineAct, hstatus, hphase]

/-- Past FETCH the machine's action is the effect of its phase, under the flags and the selector of the latched opcode
(R102). -/
theorem State.machineAct_of_phase {s : State} {p : Phase} {g : State → Except Fault State}
    (h : PhaseEffect s.op (decodeByte s.op).flags (selectorAction (decodeByte s.op).selector) p g)
    (hs : s.status = .running) (hp : s.phase = p) (hne : p ≠ .fetch) : s.machineAct = s.orFault (g s) := by
  cases h with
  | fetch => exact absurd rfl hne
  | mwait | eload | loadSrc | loadDst | exec | xhandoff => simp only [State.machineAct, hs, hp]

/-! ## FETCH -/

theorem State.fetchAtIp_of_outside {s : State} (h : s.ip.toInt < 0 ∨ (s.code.length : Int) < s.ip.toInt) :
    s.fetchAtIp = .outOfRange := by
  unfold State.fetchAtIp
  rw [if_neg (by omega), index?_none (by omega)]

theorem State.fetchAct_of_halt {s : State} (h : s.fetchAtIp = .halt) : s.fetchAct = { s with status := .halted } := by
  simp only [State.fetchAct, h]

theorem State.fetchAct_of_outOfRange {s : State} (h : s.fetchAtIp = .outOfRange) :
    s.fetchAct = s.takeFault .codeRange := by
  simp only [State.fetchAct, h]

theorem State.fetchAct_of_opcode {s : State} {b : Byte} (h : s.fetchAtIp = .opcode b) :
    s.fetchAct = s.latch b (decodeByte b).flags := by
  simp only [State.fetchAct, h]

/-- Settles O6, by where `ip` lies: at CODE_LEN, outside [0, CODE_LEN], or on a code element. -/
theorem fetchHaltsFaultsOrLatches : Obligations.FetchHaltsFaultsOrLatches := by
  refine ⟨fun s hs => State.machineAct_stopped hs, fun s hs => ?_⟩
  rw [State.machineAct_fetch hs]
  refine ⟨fun hend => ?_, fun hout => ?_, fun n hip hn => ?_⟩
  · exact State.fetchAct_of_halt (s.fetchAtIp_eq_halt_iff.2 hend)
  · exact State.fetchAct_of_outOfRange (State.fetchAtIp_of_outside hout)
  · exact ⟨s.code[n], List.getElem?_eq_getElem hn, State.fetchAct_of_opcode (State.fetchAtIp_of_lt hip hn)⟩

/-! ## The operand loads -/

/-- Settles O8: each load, at its phase, reads the Word its cursor names or takes its bounds fault. -/
theorem operandLoadPhaseActions : Obligations.OperandLoadPhaseActions := by
  refine ⟨fun _ => rfl, fun _ => rfl, fun s hs => ⟨fun hp => ?_, fun hp => ?_, fun hp => ?_⟩⟩
  · rw [State.machineAct_of_phase .eload hs hp (by decide)]
    exact ⟨fun hd => by rw [State.eload_ok hd]; rfl, fun hd => by rw [State.eload_error hd]; rfl⟩
  · rw [State.machineAct_of_phase .loadSrc hs hp (by decide)]
    exact ⟨fun hd => by rw [State.loadSrc_ok hd]; rfl, fun hd => by rw [State.loadSrc_error hd]; rfl⟩
  · rw [State.machineAct_of_phase .loadDst hs hp (by decide)]
    exact ⟨fun hd => by rw [State.loadDst_ok hd]; rfl, fun hd => by rw [State.loadDst_error hd]; rfl⟩

/-! ## The guard -/

/-- A conditional flag lets an instruction pass if it is clear or its comparison holds. -/
theorem flagGuard_iff (flag test : Bool) : (!flag || test) = true ↔ flag = false ∨ test = true := by
  rw [Bool.or_eq_true, Bool.not_eq_true']

/-- Settles O24: one guard for each conditional flag, its comparison read on the signed values. -/
theorem eligibleIsSignedConjunction : Obligations.EligibleIsSignedConjunction := by
  intro f a b
  unfold eligible
  rw [Bool.and_eq_true, Bool.and_eq_true, flagGuard_iff, flagGuard_iff, flagGuard_iff, BitVec.slt_iff_toInt_lt,
    BitVec.slt_iff_toInt_lt, beq_iff_eq, and_assoc]

/-! ## EXEC -/

theorem State.afterStore_eq (s : State) :
    s.afterStore = if s.dp.toNat % s.params.blockWords = 0 then { s with phase := .xhandoff } else s.advance := by
  simp only [State.afterStore, State.atBlockStart, beq_iff_eq]

/-- EXEC of an eligible instruction is its selector's action on the applied magnitude (R111, R113). -/
theorem State.machineAct_exec_eligible {s : State} {c : Selector} (hs : s.status = .running) (hp : s.phase = .exec)
    (he : eligible (decodeByte s.op).flags s.src s.dst = true) (hc : (decodeByte s.op).selector = c) :
    s.machineAct = s.orFault (selectorAction c { s with mag := appliedMag (decodeByte s.op).flags s.mag }) := by
  rw [State.machineAct_of_phase .exec hs hp (by decide), State.execute_eligible _ he, hc]

/-- Settles O9, by the guard and then the selector. -/
theorem execPhaseActions : Obligations.ExecPhaseActions := by
  intro s hs hp
  refine ⟨fun he => ?_, fun he => ⟨fun hc => ?_, fun hc => ?_, fun hc => ?_, fun hc hd => ?_⟩⟩
  · rw [State.machineAct_of_phase .exec hs hp (by decide), State.execute_ineligible _ he]
    rfl
  · exact State.machineAct_exec_eligible hs hp he hc
  · exact State.machineAct_exec_eligible hs hp he hc
  · exact State.machineAct_exec_eligible hs hp he hc
  · rw [State.machineAct_exec_eligible hs hp he hc, selectorAction, valueAction_ok (by exact hd), State.orFault_ok,
      State.afterStore_eq]
    rfl

end Sys2Proof.Machine
end

