-- ==== Sys2Proof/Proofs/BeforeExec.lean ====
section
/-! A step between FETCH and EXEC (spec/40_step_common.md R100 to R107), whatever the other agents do: `ip` and `dp`
stay and `sp` moves by Extend's decrement alone, and where the loads are in range and MWAIT cannot stop it, it reaches
EXEC. -/

namespace Sys2Proof.Machine

/-! ## What the phases before EXEC do -/

/-- A MWAIT that does not fault writes one lock cell, and goes on to the next phase unless the attempt must be repeated
(R104, R168). -/
theorem State.mwait_ok_cases {s t : State} {f : Flags} (h : s.mwait f = .ok t) :
    ∃ l c, t = s.setCell l c ∨ t = { s.setCell l c with phase := phaseAfterMwait f } := by
  cases hh : s.machineHandoff s.dp with
  | error e => rw [State.mwait_of_fault hh] at h; cases h
  | ok r =>
    obtain ⟨got, u⟩ := r
    rw [State.mwait_of_handoff hh] at h
    obtain ⟨l, -, c', -, -, -, rfl⟩ := State.machineHandoff_ok hh
    cases h
    refine ⟨l, c', ?_⟩
    split
    · exact .inl rfl
    · exact .inr rfl

theorem State.eq_of_eload_ok {s t : State} (h : s.eload = .ok t) :
    t = { s with mag := s.wordOf s.sp, sp := s.sp - 1, phase := .loadSrc } := by
  by_cases hd : s.inData s.sp
  · rw [State.eload_ok hd] at h; cases h; rfl
  · rw [State.eload_error hd] at h; cases h

theorem State.eq_of_loadSrc_ok {s t : State} (h : s.loadSrc = .ok t) :
    t = { s with src := s.wordOf s.sp, phase := .loadDst } := by
  by_cases hd : s.inData s.sp
  · rw [State.loadSrc_ok hd] at h; cases h; rfl
  · rw [State.loadSrc_error hd] at h; cases h

theorem State.eq_of_loadDst_ok {s t : State} (h : s.loadDst = .ok t) :
    t = { s with dst := s.wordOf s.dp, phase := .exec } := by
  by_cases hd : s.inData s.dp
  · rw [State.loadDst_ok hd] at h; cases h; rfl
  · rw [State.loadDst_error hd] at h; cases h

/-! ## The state between FETCH and EXEC -/

/-- The phases after FETCH up to EXEC that the flags ask for (R100). -/
def phaseAsked (f : Flags) : Phase → Prop
  | .mwait => f.mutexWait = true
  | .eload => f.extend = true
  | .loadSrc | .loadDst | .exec => True
  | .fetch | .xhandoff => False

/-- `sp` when phase `p` of an instruction begun in `s` comes next: Extend's decrement belongs to ELOAD (R105). -/
def State.spAtPhase (s : State) (f : Flags) : Phase → Word
  | .loadSrc | .loadDst | .exec => s.operandSp f
  | .fetch | .mwait | .eload | .xhandoff => s.sp

theorem phaseAsked_phaseAfterMwait (f : Flags) : phaseAsked f (phaseAfterMwait f) := by
  cases he : f.extend <;> simp [phaseAfterMwait, phaseAsked, he]

theorem phaseAsked_phaseAfterFetch (f : Flags) : phaseAsked f (phaseAfterFetch f) := by
  cases hm : f.mutexWait with
  | true => simp [phaseAfterFetch, phaseAsked, hm]
  | false => simpa [phaseAfterFetch, hm] using phaseAsked_phaseAfterMwait f

theorem State.spAtPhase_phaseAfterMwait (s : State) (f : Flags) : s.spAtPhase f (phaseAfterMwait f) = s.sp := by
  cases he : f.extend <;> simp [phaseAfterMwait, State.spAtPhase, State.operandSp, he]

theorem State.spAtPhase_phaseAfterFetch (s : State) (f : Flags) : s.spAtPhase f (phaseAfterFetch f) = s.sp := by
  cases hm : f.mutexWait with
  | true => simp [phaseAfterFetch, State.spAtPhase, hm]
  | false => simpa [phaseAfterFetch, hm] using s.spAtPhase_phaseAfterMwait f

/-- `u` is a state, running or stopped by a fault, between FETCH and EXEC of an instruction with flags `f` begun in
`s`. -/
structure BeforeExec (s : State) (f : Flags) (u : State) : Prop where
  phase : phaseAsked f u.phase
  ip : u.ip = s.ip
  dp : u.dp = s.dp
  sp : u.sp = s.spAtPhase f u.phase
  launch : s.sameLaunch u
  undisturbed : s.alone → u.alone ∧ u.data = s.data

namespace BeforeExec

variable {s u t : State} {f : Flags}

theorem interfere (h : BeforeExec s f u) : BeforeExec s f u.interfere where
  phase := by simpa using h.phase
  ip := by simpa using h.ip
  dp := by simpa using h.dp
  sp := by simpa using h.sp
  launch := State.sameLaunch_trans h.launch u.interfere_launch
  undisturbed hs := by
    have hu := h.undisturbed hs
    rwa [State.interfere_alone hu.1]

theorem takeFault (h : BeforeExec s f u) (e : Fault) : BeforeExec s f (u.takeFault e) :=
  ⟨h.phase, h.ip, h.dp, h.sp, h.launch, h.undisturbed⟩

theorem setCell (h : BeforeExec s f u) (l : LockId) (c : LockCell) : BeforeExec s f (u.setCell l c) :=
  ⟨h.phase, h.ip, h.dp, h.sp, State.sameLaunch_trans h.launch (MachineKept.setCell u l c).launch, h.undisturbed⟩

/-- Where the effect of phase `p` keeps the invariant, so does the phase: a fault and the other agents keep it too. -/
theorem atPhase {p : Phase} {g : State → Except Fault State} (h : BeforeExec s f u)
    (hg : ∀ t, u.phase = p → g u = .ok t → BeforeExec s f t) : BeforeExec s f (u.atPhase p g) := by
  by_cases hr : u.status = .running ∧ u.phase = p
  · rw [State.atPhase_run g hr.1 hr.2]
    cases hgu : g u with
    | ok t => exact (hg t hr.2 hgu).interfere
    | error e => exact (h.takeFault e).interfere
  · rwa [State.atPhase_skip g (not_and_or.1 hr)]

theorem of_latch (s : State) (op : Byte) (f : Flags) : BeforeExec s f (s.latch op f) where
  phase := phaseAsked_phaseAfterFetch f
  ip := rfl
  dp := rfl
  sp := (s.spAtPhase_phaseAfterFetch f).symm
  launch := s.sameLaunch_refl
  undisturbed hs := ⟨hs, rfl⟩

theorem mwait (h : BeforeExec s f u) (hp : u.phase = .mwait) (ht : u.mwait f = .ok t) : BeforeExec s f t := by
  obtain ⟨l, c, rfl | rfl⟩ := State.mwait_ok_cases ht
  · exact h.setCell l c
  · have hsp : u.sp = s.sp := by rw [h.sp, hp]; rfl
    have hcell := h.setCell l c
    exact ⟨phaseAsked_phaseAfterMwait f, h.ip, h.dp, hsp.trans (s.spAtPhase_phaseAfterMwait f).symm, hcell.launch,
      h.undisturbed⟩

theorem eload (h : BeforeExec s f u) (hp : u.phase = .eload) (ht : u.eload = .ok t) : BeforeExec s f t := by
  have hextend : f.extend = true := by simpa [hp, phaseAsked] using h.phase
  have hsp : u.sp - 1 = s.operandSp f := by rw [h.sp, hp, State.operandSp, if_pos hextend]; rfl
  rw [State.eq_of_eload_ok ht]
  exact ⟨trivial, h.ip, h.dp, hsp, h.launch, h.undisturbed⟩

theorem loadSrc (h : BeforeExec s f u) (hp : u.phase = .loadSrc) (ht : u.loadSrc = .ok t) : BeforeExec s f t := by
  have hsp : u.sp = s.operandSp f := by rw [h.sp, hp]; rfl
  rw [State.eq_of_loadSrc_ok ht]
  exact ⟨trivial, h.ip, h.dp, hsp, h.launch, h.undisturbed⟩

theorem loadDst (h : BeforeExec s f u) (hp : u.phase = .loadDst) (ht : u.loadDst = .ok t) : BeforeExec s f t := by
  have hsp : u.sp = s.operandSp f := by rw [h.sp, hp]; rfl
  rw [State.eq_of_loadDst_ok ht]
  exact ⟨trivial, h.ip, h.dp, hsp, h.launch, h.undisturbed⟩

end BeforeExec

/-- The phases of a step up to LOADDST. -/
def State.loadPhases (s : State) (op : Byte) (f : Flags) : State :=
  ((((s.atPhase .fetch (fun t => .ok (t.latch op f))).atPhase .mwait (State.mwait f)).atPhase .eload
    State.eload).atPhase .loadSrc State.loadSrc).atPhase .loadDst State.loadDst

theorem State.runPhases_eq_loadPhases (s : State) (op : Byte) (f : Flags) (act : State → Except Fault State) :
    s.runPhases op f act =
      ((s.loadPhases op f).atPhase .exec (State.execute f act)).atPhase .xhandoff State.xhandoff := rfl

theorem State.atPhase_fetch {s : State} (hs : s.ready) (op : Byte) (f : Flags) :
    s.atPhase .fetch (fun t => .ok (t.latch op f)) = (s.latch op f).interfere :=
  State.atPhase_run _ hs.1 hs.2

theorem beforeExec_loadPhases {s : State} (hs : s.ready) (op : Byte) (f : Flags) :
    BeforeExec s f (s.loadPhases op f) := by
  unfold State.loadPhases
  rw [State.atPhase_fetch hs]
  have hfetch := (BeforeExec.of_latch s op f).interfere
  have hmwait := hfetch.atPhase (p := .mwait) fun _ => hfetch.mwait
  have heload := hmwait.atPhase (p := .eload) fun _ => hmwait.eload
  have hsrc := heload.atPhase (p := .loadSrc) fun _ => heload.loadSrc
  exact hsrc.atPhase (p := .loadDst) fun _ => hsrc.loadDst

/-! ## Reaching EXEC -/

/-- The machine is running and its next action is phase `p`. -/
def State.runsAt (s : State) (p : Phase) : Prop := s.status = .running ∧ s.phase = p

theorem State.runsAt.atPhase {u t : State} {p : Phase} {g : State → Except Fault State} (hu : u.runsAt p)
    (hk : KeepsStatus g) (hg : g u = .ok t) : (u.atPhase p g).runsAt t.phase := by
  obtain ⟨hstatus, hphase⟩ := hu
  rw [State.atPhase_run g hstatus hphase, hg, State.orFault_ok]
  exact ⟨by rw [State.interfere_status, (hk hg).1, hstatus], State.interfere_phase t⟩

theorem BeforeExec.inData_iff {s u : State} {f : Flags} (h : BeforeExec s f u) (c : Word) :
    u.inData c ↔ s.inData c := by
  obtain ⟨-, hlen, -⟩ := h.launch
  exact State.inData_congr hlen c

/-- With a lock and the default parameters the machine's handoff wait does not fault, whatever the other agents did to
the lock's cell. -/
theorem BeforeExec.exists_machineHandoff {s u : State} {f : Flags} (h : BeforeExec s f u) (hw : s.mwaitSure f)
    (hm : f.mutexWait = true) : ∃ r, u.machineHandoff u.dp = .ok r := by
  obtain ⟨-, hrel, l, hl, hlt⟩ := hw hm
  obtain ⟨-, -, htable, hparams, hcells, -⟩ := h.launch
  have hl' : u.lockFor u.dp = some l := by rw [State.lockFor_congr htable hparams, h.dp, hl]
  cases hr : u.machineHandoff u.dp with
  | ok r => exact ⟨r, rfl⟩
  | error e =>
    rcases State.machineHandoff_error hr with ⟨-, hnone⟩ | ⟨-, hfault⟩
    · exact absurd (hcells ▸ hnone l hl') (Nat.not_le_of_lt hlt)
    · rw [hparams, hrel] at hfault
      cases hfault

/-- MWAIT lets the step go on. -/
theorem BeforeExec.runsAt_mwait {s u : State} {f : Flags} (h : BeforeExec s f u) (hw : s.mwaitSure f)
    (hu : u.runsAt (phaseAfterFetch f)) : (u.atPhase .mwait (State.mwait f)).runsAt (phaseAfterMwait f) := by
  by_cases hm : f.mutexWait = true
  · rw [phaseAfterFetch, if_pos hm] at hu
    obtain ⟨⟨got, v⟩, hv⟩ := h.exists_machineHandoff hw hm
    obtain ⟨hretry, -⟩ := hw hm
    obtain ⟨-, -, -, hparams, -⟩ := h.launch
    have hok : u.mwait f = .ok { v with phase := phaseAfterMwait f } := by
      rw [State.mwait_of_handoff hv, if_neg (by simp [hparams, hretry])]
    exact hu.atPhase (keepsStatus_mwait f) hok
  · rw [phaseAfterFetch, if_neg hm] at hu
    have hne : u.phase ≠ .mwait := by rw [hu.2, phaseAfterMwait]; split <;> decide
    rwa [State.atPhase_skip _ (.inr hne)]

theorem BeforeExec.runsAt_eload {s u : State} {f : Flags} (h : BeforeExec s f u)
    (hd : f.extend = true → s.inData s.sp) (hu : u.runsAt (phaseAfterMwait f)) :
    (u.atPhase .eload State.eload).runsAt .loadSrc := by
  have hsp : u.sp = s.sp := by rw [h.sp, hu.2, State.spAtPhase_phaseAfterMwait]
  by_cases he : f.extend = true
  · rw [phaseAfterMwait, if_pos he] at hu
    exact hu.atPhase keepsStatus_eload (State.eload_ok ((h.inData_iff _).2 (hsp ▸ hd he)))
  · rw [phaseAfterMwait, if_neg he] at hu
    rwa [State.atPhase_skip _ (.inr (by simp [hu.2]))]

theorem BeforeExec.runsAt_loadSrc {s u : State} {f : Flags} (h : BeforeExec s f u) (hd : s.inData (s.operandSp f))
    (hu : u.runsAt .loadSrc) : (u.atPhase .loadSrc State.loadSrc).runsAt .loadDst := by
  have hsp : u.sp = s.operandSp f := by rw [h.sp, hu.2]; rfl
  exact hu.atPhase keepsStatus_loadSrc (State.loadSrc_ok ((h.inData_iff _).2 (hsp ▸ hd)))

theorem BeforeExec.runsAt_loadDst {s u : State} {f : Flags} (h : BeforeExec s f u) (hd : s.inData s.dp)
    (hu : u.runsAt .loadDst) : (u.atPhase .loadDst State.loadDst).runsAt .exec :=
  hu.atPhase keepsStatus_loadDst (State.loadDst_ok ((h.inData_iff _).2 (h.dp ▸ hd)))

/-- Where the loads are in range and MWAIT cannot stop it, a step reaches EXEC whatever the other agents do. -/
theorem State.loadPhases_runsAt_exec {s : State} (hs : s.ready) (op : Byte) {f : Flags} (hl : s.loadsOk f)
    (hw : s.mwaitSure f) : (s.loadPhases op f).runsAt .exec := by
  obtain ⟨hmag, hsrc, hdst⟩ := hl
  unfold State.loadPhases
  rw [State.atPhase_fetch hs]
  have hfetch := (BeforeExec.of_latch s op f).interfere
  have hmwait := hfetch.atPhase (p := .mwait) fun _ => hfetch.mwait
  have heload := hmwait.atPhase (p := .eload) fun _ => hmwait.eload
  have hloadSrc := heload.atPhase (p := .loadSrc) fun _ => heload.loadSrc
  have atFetched : (s.latch op f).interfere.runsAt (phaseAfterFetch f) :=
    ⟨(State.interfere_status _).trans hs.1, State.interfere_phase _⟩
  have pastMwait := hfetch.runsAt_mwait hw atFetched
  have atLoadSrc := hmwait.runsAt_eload hmag pastMwait
  have atLoadDst := heload.runsAt_loadSrc hsrc atLoadSrc
  exact hloadSrc.runsAt_loadDst hdst atLoadDst

end Sys2Proof.Machine
end

