-- ==== Sys2Proof/Proofs/Eligibility.lean ====
section
/-! The eligibility law (spec/40_step_common.md R115): an instruction whose loads are in range completes, and an EXEC
whose guard fails on the Words it loaded only advances. -/

namespace Sys2Proof.Machine

/-! ## EXEC and XHANDOFF keep the operand latches -/

/-- Where `g` raises no fault, it leaves the latches of the two operands alone. -/
def KeepsOperands (g : State → Except Fault State) : Prop :=
  ∀ ⦃s t : State⦄, g s = .ok t → t.src = s.src ∧ t.dst = s.dst

theorem keepsOperands_valueAction : KeepsOperands valueAction := by
  intro s t h
  by_cases hd : s.inData s.dp
  · rw [valueAction_ok hd, State.afterStore_eq] at h
    cases h
    split <;> exact ⟨rfl, rfl⟩
  · rw [valueAction_error hd] at h; cases h

theorem keepsOperands_selectorAction (c : Selector) : KeepsOperands (selectorAction c) := by
  cases c with
  | src => intro s t h; cases h; exact ⟨rfl, rfl⟩
  | dst => intro s t h; cases h; exact ⟨rfl, rfl⟩
  | code => intro s t h; cases h; exact ⟨rfl, rfl⟩
  | value => exact keepsOperands_valueAction

theorem keepsOperands_execute (f : Flags) {act : State → Except Fault State} (ha : KeepsOperands act) :
    KeepsOperands (State.execute f act) := by
  intro s t h
  cases he : eligible f s.src s.dst with
  | true =>
    rw [State.execute_eligible act he] at h
    obtain ⟨hsrc, hdst⟩ := ha h
    exact ⟨hsrc, hdst⟩
  | false => rw [State.execute_ineligible act he] at h; cases h; exact ⟨rfl, rfl⟩

theorem keepsOperands_xhandoff : KeepsOperands State.xhandoff := by
  intro s t h
  cases h
  rcases s.crossBlockHandoff_cases with hx | ⟨l, c, a, -, -, -, -, -, hx⟩
  · rw [hx]; exact ⟨rfl, rfl⟩
  · rw [hx]; exact ⟨rfl, rfl⟩

theorem KeepsOperands.atPhase {g : State → Except Fault State} (hg : KeepsOperands g) (p : Phase) (s : State) :
    (s.atPhase p g).src = s.src ∧ (s.atPhase p g).dst = s.dst := by
  by_cases hr : s.status = .running ∧ s.phase = p
  · rw [State.atPhase_run g hr.1 hr.2, State.interfere_src, State.interfere_dst]
    cases hgs : g s with
    | ok t => exact hg hgs
    | error e => exact ⟨rfl, rfl⟩
  · rw [State.atPhase_skip g (not_and_or.1 hr)]
    exact ⟨rfl, rfl⟩

/-- The operands a step ends with are the ones its EXEC compared. -/
theorem State.runPhases_operands (s : State) (op : Byte) (f : Flags) (c : Selector) :
    (s.runPhases op f (selectorAction c)).src = (s.loadPhases op f).src ∧
      (s.runPhases op f (selectorAction c)).dst = (s.loadPhases op f).dst := by
  rw [State.runPhases_eq_loadPhases]
  obtain ⟨hsrc, hdst⟩ :=
    (keepsOperands_execute f (keepsOperands_selectorAction c)).atPhase .exec (s.loadPhases op f)
  obtain ⟨hsrc', hdst'⟩ := keepsOperands_xhandoff.atPhase .xhandoff
    ((s.loadPhases op f).atPhase .exec (State.execute f (selectorAction c)))
  exact ⟨hsrc'.trans hsrc, hdst'.trans hdst⟩

/-! ## A guard that fails -/

/-- A step that comes back to FETCH has passed the loads and reached EXEC. -/
theorem State.loadPhases_runsAt_exec_of_fetch {s : State} {op : Byte} {f : Flags} {act : State → Except Fault State}
    (hs : s.ready) (hp : (s.runPhases op f act).phase = .fetch) : (s.loadPhases op f).runsAt .exec := by
  by_contra hn
  have hasked := (beforeExec_loadPhases hs op f).phase
  have hne : (s.loadPhases op f).phase ≠ .xhandoff := fun h => by simp [h, phaseAsked] at hasked
  rw [State.runPhases_eq_loadPhases, State.atPhase_skip _ (not_and_or.1 hn), State.atPhase_skip _ (.inr hne)] at hp
  simp [hp, phaseAsked] at hasked

/-- A step whose guard fails at EXEC advances and does nothing else there (R110). -/
theorem State.runPhases_ineligible {s : State} {op : Byte} {f : Flags} (act : State → Except Fault State)
    (hat : (s.loadPhases op f).runsAt .exec)
    (he : eligible f (s.loadPhases op f).src (s.loadPhases op f).dst = false) :
    s.runPhases op f act = (s.loadPhases op f).advance.interfere := by
  rw [State.runPhases_eq_loadPhases, State.atPhase_run _ hat.1 hat.2, State.execute_ineligible act he, State.orFault_ok,
    State.atPhase_skip _ (.inr (by simp))]

/-- What R115 says of a step begun in `s` whose guard fails. -/
theorem State.runPhases_ineligible_frame {s t : State} {op : Byte} {f : Flags} {c : Selector} (hs : s.ready)
    (ht : s.runPhases op f (selectorAction c) = t) (hp : t.phase = .fetch) (he : eligible f t.src t.dst = false) :
    t.ip = s.ip + 1 ∧ t.sp = s.operandSp f ∧ t.dp = s.dp ∧ (s.alone → t.data = s.data) := by
  subst ht
  obtain ⟨hsrc, hdst⟩ := s.runPhases_operands op f c
  have hat := State.loadPhases_runsAt_exec_of_fetch hs hp
  rw [hsrc, hdst] at he
  have hbefore := beforeExec_loadPhases hs op f
  rw [State.runPhases_ineligible _ hat he]
  refine ⟨?_, ?_, ?_, fun halone => ?_⟩
  · rw [State.interfere_ip, State.advance_ip, hbefore.ip]
  · rw [State.interfere_sp, State.advance_sp, hbefore.sp, hat.2]
    rfl
  · rw [State.interfere_dp, State.advance_dp, hbefore.dp]
  · obtain ⟨hundisturbed, hdata⟩ := hbefore.undisturbed halone
    rw [State.interfere_alone (by exact hundisturbed), State.advance_data, hdata]

/-! ## Completion -/

/-- Where `dp` names a Word, EXEC does not fault, and the step is over or XHANDOFF is left (R113, R151). -/
theorem State.execute_selectorAction_ok {s : State} (hd : s.inData s.dp) (f : Flags) (c : Selector) :
    ∃ t, s.execute f (selectorAction c) = .ok t ∧ (t.phase = .fetch ∨ t.phase = .xhandoff) := by
  cases he : eligible f s.src s.dst with
  | false => exact ⟨_, State.execute_ineligible _ he, .inl rfl⟩
  | true =>
    rw [State.execute_eligible _ he]
    cases c with
    | src => exact ⟨_, rfl, .inl rfl⟩
    | dst => exact ⟨_, rfl, .inl rfl⟩
    | code => exact ⟨_, rfl, .inl rfl⟩
    | value =>
      refine ⟨_, valueAction_ok (by exact hd), ?_⟩
      rw [State.afterStore_eq]
      split
      · exact .inr rfl
      · exact .inl rfl

theorem State.runsAt_fetch_of_xhandoff {u : State} (hu : u.runsAt .fetch ∨ u.runsAt .xhandoff) :
    (u.atPhase .xhandoff State.xhandoff).runsAt .fetch := by
  rcases hu with hu | hu
  · rwa [State.atPhase_skip _ (.inr (by simp [hu.2]))]
  · exact hu.atPhase keepsStatus_xhandoff rfl

/-- Where the loads are in range and MWAIT cannot stop it, a step ends at the next FETCH. -/
theorem State.runPhases_runsAt_fetch {s : State} (hs : s.ready) (op : Byte) {f : Flags} (c : Selector)
    (hl : s.loadsOk f) (hw : s.mwaitSure f) : (s.runPhases op f (selectorAction c)).runsAt .fetch := by
  have hbefore := beforeExec_loadPhases hs op f
  have hat := State.loadPhases_runsAt_exec hs op hl hw
  obtain ⟨-, -, hdst⟩ := hl
  obtain ⟨t, ht, hphase⟩ := State.execute_selectorAction_ok ((hbefore.inData_iff _).2 (hbefore.dp ▸ hdst)) f c
  have hexec := hat.atPhase (keepsStatus_execute f (keepsStatus_selectorAction c)) ht
  rw [State.runPhases_eq_loadPhases]
  rcases hphase with hp | hp <;> rw [hp] at hexec
  · exact State.runsAt_fetch_of_xhandoff (.inl hexec)
  · exact State.runsAt_fetch_of_xhandoff (.inr hexec)

/-- Settles O26: the phases before EXEC keep `ip`, `dp`, memory and all of `sp` but Extend's decrement, and an EXEC
whose guard fails only advances. -/
theorem ineligibleKeepsOnlyExtendDecrement : Obligations.IneligibleKeepsOnlyExtendDecrement := by
  intro i s hs
  rw [exec_eq]
  refine ⟨fun hl hw => ⟨_, rfl, State.runPhases_runsAt_fetch hs _ _ hl hw⟩, fun t ht _ hp he => ?_⟩
  cases ht
  obtain ⟨hip, hsp, hdp, hdata⟩ := State.runPhases_ineligible_frame hs rfl hp he
  exact ⟨hip, hsp, hdp, fun halone a => by rw [hdata halone]⟩

end Sys2Proof.Machine
end

