-- ==== Sys2Proof/Proofs/LockOps.lean ====
section
/-! The operations on one lock cell case by case, the lock table, and the cross-block handoff by what it finds
(spec/44_lock_handoff.md R161 to R166, R169). -/

namespace Sys2Proof.Machine

/-! ## Exclusive acquisition and release -/

theorem LockCell.tryExcl_free {c : LockCell} (a : AgentId) (h : c.claim = none ∧ c.readers = 0) :
    c.tryExcl a = (true, { c with claim := some a }) := if_pos (c.isFree_iff.2 h)

theorem LockCell.tryExcl_taken {c : LockCell} (a : AgentId) (h : ¬(c.claim = none ∧ c.readers = 0)) :
    c.tryExcl a = (false, c) := if_neg (mt c.isFree_iff.1 h)

/-- Settles O32: the two cases of R161. -/
theorem tryExclOutcomes : Obligations.TryExclOutcomes :=
  fun _ a => ⟨LockCell.tryExcl_free a, LockCell.tryExcl_taken a⟩

theorem LockCell.excl_of_claim {c : LockCell} {a : AgentId} (h : c.claim = some a) : c.excl = true :=
  c.excl_iff.2 ⟨a, h⟩

theorem LockCell.excl_of_unclaimed {c : LockCell} (h : c.claim = none) : c.excl = false := by
  rw [LockCell.excl, h, Option.isSome_none]

theorem LockCell.relExcl_claimed {c : LockCell} {a : AgentId} (p : RelFreePolicy) (h : c.claim = some a) :
    c.relExcl p = .ok c.cleared := if_pos (LockCell.excl_of_claim h)

theorem LockCell.relExcl_unclaimed_noop {c : LockCell} (h : c.claim = none) : c.relExcl .noop = .ok c := by
  simp [LockCell.relExcl, LockCell.excl_of_unclaimed h]

theorem LockCell.relExcl_unclaimed_fault {c : LockCell} (h : c.claim = none) :
    c.relExcl .fault = .error .releaseFree := by
  simp [LockCell.relExcl, LockCell.excl_of_unclaimed h]

/-! ## Shared acquisition and release -/

theorem LockCell.acqShared_unclaimed {c : LockCell} (h : c.claim = none) :
    c.acqShared = some { c with readers := c.readers + 1 } := by
  simp [LockCell.acqShared, LockCell.excl_of_unclaimed h]

theorem LockCell.acqShared_claimed {c : LockCell} {a : AgentId} (h : c.claim = some a) : c.acqShared = none :=
  if_pos (LockCell.excl_of_claim h)

theorem LockCell.relShared_held {c : LockCell} (h : 0 < c.readers) :
    c.relShared = some { c with readers := c.readers - 1 } := if_neg h.ne'

theorem LockCell.relShared_unheld {c : LockCell} (h : c.readers = 0) : c.relShared = none := if_pos h

/-! ## The handoff wait as two operations -/

theorem LockCell.handoffWait_of_tryExcl {c c' : LockCell} {a : AgentId} (p : RelFreePolicy)
    (h : c.tryExcl a = (true, c')) : c.handoffWait p a = .ok (true, c') := by
  simp [LockCell.handoffWait, h]

theorem LockCell.handoffWait_of_relExcl {c c' c'' : LockCell} {p : RelFreePolicy} {a : AgentId}
    (h : c.tryExcl a = (false, c')) (hr : c'.relExcl p = .ok c'') : c.handoffWait p a = .ok (false, c'') := by
  simp [LockCell.handoffWait, h, hr]

theorem LockCell.handoffWait_shared_fault {c : LockCell} (a : AgentId) (hc : c.claim = none) (hr : c.readers ≠ 0) :
    c.handoffWait .fault a = .error .releaseFree := by
  simp [LockCell.handoffWait, LockCell.tryExcl_taken a fun h => hr h.2, LockCell.relExcl_unclaimed_fault hc]

/-- Settles O35: FREE, EXCL, SHARED under either policy, and the two operations of R165 in a row. -/
theorem handoffWaitOutcomes : Obligations.HandoffWaitOutcomes := by
  intro c p a
  refine ⟨LockCell.handoffWait_free p a, fun b hb => ⟨_, LockCell.handoffWait_claimed p a b hb⟩, fun hc hr hp => ?_,
    fun hc hr hp => ?_, fun c' => LockCell.handoffWait_of_tryExcl p, fun c' c'' => LockCell.handoffWait_of_relExcl⟩
  · rw [hp, LockCell.handoffWait_shared_noop a hc hr]
  · rw [hp, LockCell.handoffWait_shared_fault a hc hr]

/-! ## Cell operations at the lock port -/

theorem State.setCell_self {s : State} {l : LockId} {c : LockCell} (h : s.cells[l]? = some c) : s.setCell l c = s := by
  obtain ⟨hlt, rfl⟩ := List.getElem?_eq_some_iff.1 h
  rw [State.setCell, List.set_getElem_self]

/-- A cell operation that gives the cell back unchanged changes nothing in the block. -/
theorem State.portLock_kept {s : State} {a : AgentId} {l : LockId} {c : LockCell} {op : PortOp} {r : PortReply}
    (hc : s.cells[l]? = some c) (hop : c.portOp s.params.relFree a op = (r, c)) : s.portLock a l op = (r, s) := by
  simp [State.portLock, hc, hop, State.setCell_self hc]

theorem State.portDo_relExcl {a : AgentId} (s : State) (l : LockId) (ha : a ≠ machineId) :
    s.portDo a (.relExcl l) = s.portLock a l (.relExcl l) := if_neg ha

theorem State.portDo_acqShared {a : AgentId} (s : State) (l : LockId) (ha : a ≠ machineId) :
    s.portDo a (.acqShared l) = s.portLock a l (.acqShared l) := if_neg ha

theorem State.portDo_relShared {a : AgentId} (s : State) (l : LockId) (ha : a ≠ machineId) :
    s.portDo a (.relShared l) = s.portLock a l (.relShared l) := if_neg ha

/-! ## The release that faults -/

/-- A port agent whose release finds no claim faults, and the block is as it was (R162). -/
theorem State.portDo_relExcl_fault {s : State} {a : AgentId} {l : LockId} {c : LockCell} (ha : a ≠ machineId)
    (hc : s.cells[l]? = some c) (hfree : c.claim = none) (hp : s.params.relFree = .fault) :
    s.portDo a (.relExcl l) = (.issuerFaults, s) := by
  have hop : c.portOp s.params.relFree a (.relExcl l) = (.issuerFaults, c) := by
    simp [LockCell.portOp, hp, LockCell.relExcl_unclaimed_fault hfree]
  rw [State.portDo_relExcl s l ha, State.portLock_kept hc hop]

/-- The machine's handoff wait faults where the one on its lock's cell does. -/
theorem State.machineHandoff_of_error {s : State} {i : Word} {l : LockId} {c : LockCell} {e : Fault}
    (hl : s.lockFor i = some l) (hc : s.cells[l]? = some c)
    (hw : c.handoffWait s.params.relFree machineId = .error e) : s.machineHandoff i = .error e := by
  simp [State.machineHandoff, hl, hc, hw]

/-- MWAIT on a lock that others hold in shared mode takes LF_RELEASE under FAULT (R162, R165). -/
theorem State.machineAct_mwait_releaseFree {s : State} {l : LockId} {c : LockCell} (hs : s.status = .running)
    (hp : s.phase = .mwait) (hl : s.lockFor s.dp = some l) (hc : s.cells[l]? = some c) (hfree : c.claim = none)
    (hr : c.readers ≠ 0) (hpol : s.params.relFree = .fault) : s.machineAct = s.takeFault .releaseFree := by
  have hw : c.handoffWait s.params.relFree machineId = .error .releaseFree := by
    rw [hpol, LockCell.handoffWait_shared_fault _ hfree hr]
  rw [State.machineAct_of_phase .mwait hs hp (by decide), State.mwait_of_fault (State.machineHandoff_of_error hl hc hw),
    State.orFault_error]

/-- Settles O33: the release of a cell by its claim and the policy, then the two issuers whose release faults. -/
theorem relExclOutcomes : Obligations.RelExclOutcomes := by
  refine ⟨fun c p => ⟨fun a ha => ⟨_, LockCell.relExcl_claimed p ha⟩, fun hc hp => ?_, fun hc hp => ?_⟩,
    fun s a l c => State.portDo_relExcl_fault, fun s l c => State.machineAct_mwait_releaseFree⟩
  · rw [hp, LockCell.relExcl_unclaimed_noop hc]
  · rw [hp, LockCell.relExcl_unclaimed_fault hc]

/-! ## The lock table -/

theorem State.lockFor_of_neg {s : State} {i : Word} (h : i.toInt < 0) : s.lockFor i = none := if_pos h

theorem State.lockFor_of_nonneg {s : State} {i : Word} (h : 0 ≤ i.toInt) :
    s.lockFor i = s.lockOfBlock (i.toNat / s.params.blockWords) := if_neg (not_lt.2 h)

theorem State.lockOfBlock_past {s : State} {b : Nat} (h : s.lt.length ≤ b) : s.lockOfBlock b = none := by
  rw [State.lockOfBlock, List.getElem?_eq_none h]

/-- Settles O37, by the sign of the index and then by the entry of its block. -/
theorem lockForReadsTable : Obligations.LockForReadsTable := by
  refine fun s i => ⟨fun h => ?_, fun hi hb => ?_, fun l hi hb => ?_⟩
  · by_cases hi : i.toInt < 0
    · exact State.lockFor_of_neg hi
    · rw [State.lockFor_of_nonneg (not_lt.1 hi), State.lockOfBlock_past (h.resolve_left hi)]
  · rw [State.lockFor_of_nonneg hi, State.lockOfBlock_of_unset hb]
  · rw [State.lockFor_of_nonneg hi, State.lockOfBlock_eq.2 hb]

/-! ## The cross-block handoff -/

/-- The cross-block handoff does nothing unless it finds another agent's claim on a lock that is not OWN. -/
theorem State.crossBlockHandoff_kept {s : State}
    (h : ∀ l c a, s.lockFor s.dp = some l → l ≠ ownLock → s.cells[l]? = some c → c.claim = some a → a = machineId) :
    s.crossBlockHandoff = s := by
  rcases s.crossBlockHandoff_cases with hx | ⟨l, c, a, hl, hown, hc, ha, hne, -⟩
  · exact hx
  · exact absurd (h l c a hl hown hc ha) hne

theorem State.crossBlockHandoff_kept_of_cell {s : State} {l : LockId} {c : LockCell} (hl : s.lockFor s.dp = some l)
    (hc : s.cells[l]? = some c) (h : ∀ a, c.claim = some a → a = machineId) : s.crossBlockHandoff = s := by
  refine State.crossBlockHandoff_kept fun l' c' a hl' _ hc' ha => ?_
  cases hl.symm.trans hl'
  cases hc.symm.trans hc'
  exact h a ha

theorem State.crossBlockHandoff_releases {s : State} {l : LockId} {c : LockCell} {a : AgentId}
    (hl : s.lockFor s.dp = some l) (hown : l ≠ ownLock) (hc : s.cells[l]? = some c) (ha : c.claim = some a)
    (hne : a ≠ machineId) : s.crossBlockHandoff = s.setCell l c.cleared := by
  have hnot : c.heldByMachine = false := by simp [LockCell.heldByMachine, ha, hne]
  simp [State.crossBlockHandoff, hl, hown, hc, hnot, LockCell.excl_of_claim ha]

/-- Settles O31, by the lock of the block entered and then by its claim. -/
theorem crossBlockHandoffBranches : Obligations.CrossBlockHandoffBranches := by
  refine fun s => ⟨fun hs hp => State.machineAct_of_phase .xhandoff hs hp (by decide), fun hl => ?_, fun hl => ?_,
    fun l c hl hown hc => ⟨fun ha => ?_, fun ha => ?_, fun a ha hne => ?_⟩⟩
  · exact State.crossBlockHandoff_kept fun l c a hl' => by simp [hl] at hl'
  · exact State.crossBlockHandoff_kept fun l c a hl' hown => absurd (Option.some.inj (hl'.symm.trans hl)) hown
  · exact State.crossBlockHandoff_kept_of_cell hl hc fun b hb => Option.some.inj (hb.symm.trans ha)
  · exact State.crossBlockHandoff_kept_of_cell hl hc fun b hb => by simp [ha] at hb
  · exact ⟨_, State.crossBlockHandoff_releases hl hown hc ha hne⟩

end Sys2Proof.Machine
end

