-- ==== Sys2Proof/Proofs/Claims.lean ====
section
/-! What one turn of any agent can do to one lock cell (spec/44_lock_handoff.md R160, R167, R172), said once: which
operation it performs on the cell, and whose. When a claim begins, when it ends, and that the machine leaves the shared
holds alone are read off it. -/

namespace Sys2Proof.Machine

/-! ## One cell in one turn -/

/-- The turns that are a handoff wait of agent `a` on lock `l` (R165): the machine's MWAIT, a writer's W1, and the
operation at the lock port. -/
inductive HandoffTurn (s : State) (l : LockId) : AgentId → Turn → Prop
  | machine (hs : s.status = .running) (hp : s.phase = .mwait) (hl : s.lockFor s.dp = some l) :
      HandoffTurn s l machineId .machine
  | writer {k : AgentId} {r : SinkReply} {w : Writer} (hk : k ≠ machineId) (hw : s.writerAt k = some w)
      (hs : w.status = .running) (hp : w.pos = .handoff) (hl : w.cfg.lock = l) :
      HandoffTurn s l k (.other (.writer k r))
  | port {a : AgentId} (ha : a ≠ machineId) : HandoffTurn s l a (.other (.port a (.handoffWait l)))

/-- What a turn makes of lock `l`'s cell `c`: nothing, or the result of one operation on it. Whose shared
hold begins or ends is left open; only that it is not the machine's. -/
inductive CellTurn (s : State) (l : LockId) (c : LockCell) : Turn → LockCell → Prop
  | kept {m : Turn} : CellTurn s l c m c
  | handoff {a : AgentId} {m : Turn} {got : Bool} {c' : LockCell} (ht : HandoffTurn s l a m)
      (hw : c.handoffWait s.params.relFree a = .ok (got, c')) : CellTurn s l c m c'
  | crossBlock {b : AgentId} (hs : s.status = .running) (hp : s.phase = .xhandoff) (hl : s.lockFor s.dp = some l)
      (hown : l ≠ ownLock) (hb : c.claim = some b) (hne : b ≠ machineId) : CellTurn s l c .machine c.cleared
  | tryExcl {a : AgentId} (ha : a ≠ machineId) : CellTurn s l c (.other (.port a (.tryExcl l))) (c.tryExcl a).2
  | relExcl {b : AgentId} {c' : LockCell} (hb : b ≠ machineId) (hr : c.relExcl s.params.relFree = .ok c') :
      CellTurn s l c (.other (.port b (.relExcl l))) c'
  | acqShared {e : EnvAction} {c' : LockCell} (hr : c.acqShared = some c') : CellTurn s l c (.other e) c'
  | relShared {e : EnvAction} {c' : LockCell} (hr : c.relShared = some c') : CellTurn s l c (.other e) c'

/-- A turn that leaves every cell, or replaces one by what `CellTurn` allows of that one, does to each cell what
`CellTurn` allows. -/
theorem CellTurn.of_cells {s : State} {m : Turn} {l : LockId} {c c' : LockCell} (hc : s.cells[l]? = some c)
    (hc' : (s.turn m).cells[l]? = some c')
    (h : (s.turn m).cells = s.cells ∨
      ∃ k d d', s.cells[k]? = some d ∧ (s.turn m).cells = s.cells.set k d' ∧ CellTurn s k d m d') :
    CellTurn s l c m c' := by
  rcases h with h | ⟨k, d, d', hd, h, ht⟩
  · rw [h, hc] at hc'
    cases hc'
    exact .kept
  · obtain ⟨hlt, -⟩ := List.getElem?_eq_some_iff.1 hd
    rw [h] at hc'
    by_cases hk : k = l
    · subst hk
      rw [List.getElem?_set_self hlt] at hc'
      cases hc'
      cases hc.symm.trans hd
      exact ht
    · rw [List.getElem?_set_ne hk, hc] at hc'
      cases hc'
      exact .kept

theorem State.writerAt_ne_machine {s : State} {k : AgentId} {w : Writer} (h : s.writerAt k = some w) :
    k ≠ machineId := by
  rintro rfl
  cases h

/-- A writer's action reaches the cells only if the writer exists and is running (R237). -/
theorem State.writerAct_cells (s : State) (k : AgentId) (r : SinkReply) :
    (s.writerAct k r).cells = s.cells ∨
    ∃ w, s.writerAt k = some w ∧ w.status = .running ∧ (s.writerAct k r).cells = (w.act k r s).2.cells := by
  unfold State.writerAct
  split
  · exact .inl rfl
  · rename_i w hw
    split
    · rename_i hs; exact .inr ⟨w, hw, hs, rfl⟩
    · exact .inl rfl

theorem State.writerHandOver_cells (s : State) (k : AgentId) (n : Nat) : (s.writerHandOver k n).cells = s.cells := by
  unfold State.writerHandOver
  split
  · rfl
  · split <;> rfl

/-- A cell operation at the lock port on lock `l`, as a turn. -/
theorem CellTurn.of_portOp {s : State} {l : LockId} (c : LockCell) {a : AgentId} (ha : a ≠ machineId) {op : PortOp}
    (hop : op = .tryExcl l ∨ op = .relExcl l ∨ op = .acqShared l ∨ op = .relShared l ∨ op = .handoffWait l) :
    CellTurn s l c (.other (.port a op)) (c.portOp s.params.relFree a op).2 := by
  rcases hop with rfl | rfl | rfl | rfl | rfl
  · exact .tryExcl ha
  · cases hr : c.relExcl s.params.relFree with
    | ok c' => simpa [LockCell.portOp, hr] using CellTurn.relExcl ha hr
    | error e => simpa [LockCell.portOp, hr] using CellTurn.kept
  · cases hr : c.acqShared with
    | some c' => simpa [LockCell.portOp, hr] using CellTurn.acqShared hr
    | none => simpa [LockCell.portOp, hr] using CellTurn.kept
  · cases hr : c.relShared with
    | some c' => simpa [LockCell.portOp, hr] using CellTurn.relShared hr
    | none => simpa [LockCell.portOp, hr] using CellTurn.kept
  · cases hr : c.handoffWait s.params.relFree a with
    | ok gc =>
      obtain ⟨got, c'⟩ := gc
      simpa [LockCell.portOp, hr] using CellTurn.handoff (.port ha) hr
    | error e => simpa [LockCell.portOp, hr] using CellTurn.kept

/-- Everything one turn of any agent can do to one lock cell (R160). -/
theorem State.turn_cell {s : State} {m : Turn} {l : LockId} {c c' : LockCell} (hc : s.cells[l]? = some c)
    (hc' : (s.turn m).cells[l]? = some c') : CellTurn s l c m c' := by
  refine .of_cells hc hc' ?_
  cases m with
  | machine =>
    rcases s.machineAct_cells with h | ⟨hs, hp, k, d, d', got, hl, hd, hw, h⟩ |
      ⟨hs, hp, k, d, b, hl, hown, hd, hb, hne, h⟩
    · exact .inl h
    · exact .inr ⟨k, d, d', hd, h, .handoff (.machine hs hp hl) hw⟩
    · exact .inr ⟨k, d, _, hd, h, .crossBlock hs hp hl hown hb hne⟩
  | other e =>
    cases e with
    | writer j r =>
      rcases s.writerAct_cells j r with h | ⟨w, hw, hs, h⟩
      · exact .inl h
      rcases w.act_cells j r s with hx | ⟨k, d, d', hd, hx, hop⟩
      · exact .inl (h.trans hx)
      refine .inr ⟨k, d, d', hd, h.trans hx, ?_⟩
      rcases hop with ⟨hp, hl, got, hwait⟩ | ⟨b, -, -, hr⟩ | ⟨b, -, -, hr⟩
      · exact .handoff (.writer (State.writerAt_ne_machine hw) hw hs hp hl) hwait
      · exact .acqShared hr
      · exact .relShared hr
    | handOver j n => exact .inl (s.writerHandOver_cells j n)
    | port a op =>
      rcases s.portDo_cells a op with h | ⟨ha, k, d, hd, h, hop⟩
      · exact .inl h
      · exact .inr ⟨k, d, _, hd, h, .of_portOp d ha hop⟩

/-! ## Shared holds -/

theorem LockCell.handoffWait_readers {c c' : LockCell} {p : RelFreePolicy} {a : AgentId} {got : Bool}
    (h : c.handoffWait p a = .ok (got, c')) : c'.readers = c.readers := by
  rcases LockCell.handoffWait_ok h with ⟨-, -, -, rfl⟩ | ⟨-, -, rfl⟩ | ⟨-, -, -, -, rfl⟩ <;> rfl

theorem CellTurn.machine_readers {s : State} {l : LockId} {c c' : LockCell} (h : CellTurn s l c .machine c') :
    c'.readers = c.readers := by
  cases h with
  | kept => rfl
  | handoff _ hw => exact LockCell.handoffWait_readers hw
  | crossBlock => rfl

theorem State.portDo_acqShared_waits {s : State} {a b : AgentId} {l : LockId} {c : LockCell} (ha : a ≠ machineId)
    (hc : s.cells[l]? = some c) (hb : c.claim = some b) : s.portDo a (.acqShared l) = (.notEnabled, s) := by
  have hop : c.portOp s.params.relFree a (.acqShared l) = (.notEnabled, c) := by
    simp [LockCell.portOp, LockCell.acqShared_claimed hb]
  rw [State.portDo_acqShared s l ha, State.portLock_kept hc hop]

theorem State.portDo_relShared_waits {s : State} {a : AgentId} {l : LockId} {c : LockCell} (ha : a ≠ machineId)
    (hc : s.cells[l]? = some c) (hr : c.readers = 0) : s.portDo a (.relShared l) = (.notEnabled, s) := by
  have hop : c.portOp s.params.relFree a (.relShared l) = (.notEnabled, c) := by
    simp [LockCell.portOp, LockCell.relShared_unheld hr]
  rw [State.portDo_relShared s l ha, State.portLock_kept hc hop]

/-- Settles O34: the two operations on a cell, a port agent that waits, and the machine's turn, which performs
neither. -/
theorem sharedHoldOperations : Obligations.SharedHoldOperations :=
  ⟨fun _ => ⟨LockCell.acqShared_unclaimed, fun _ => LockCell.acqShared_claimed, LockCell.relShared_held,
      LockCell.relShared_unheld⟩,
    fun _ _ _ _ ha hc => ⟨fun _ => State.portDo_acqShared_waits ha hc, State.portDo_relShared_waits ha hc⟩,
    fun _ _ _ _ hc hc' => (State.turn_cell (m := .machine) hc hc').machine_readers⟩

/-! ## Where a claim begins and where it ends -/

/-- A claim that a turn leaves on a cell was there, or the cell was FREE and the turn is its agent's own attempt
(R167). -/
theorem CellTurn.claim_begins {s : State} {m : Turn} {l : LockId} {c c' : LockCell} {a : AgentId}
    (h : CellTurn s l c m c') (ha : c'.claim = some a) :
    c.claim = some a ∨
    (c.claim = none ∧ c.readers = 0 ∧ c' = { c with claim := some a } ∧
      (HandoffTurn s l a m ∨ (a ≠ machineId ∧ m = .other (.port a (.tryExcl l))))) := by
  cases h with
  | kept => exact .inl ha
  | handoff ht hw =>
    rcases LockCell.handoffWait_ok hw with ⟨-, hc, hr, rfl⟩ | ⟨-, -, rfl⟩ | ⟨-, -, -, -, rfl⟩
    · cases ha
      exact .inr ⟨hc, hr, rfl, .inl ht⟩
    · cases ha
    · exact .inl ha
  | crossBlock => cases ha
  | tryExcl hne =>
    by_cases hfree : c.claim = none ∧ c.readers = 0
    · rw [LockCell.tryExcl_free _ hfree] at ha ⊢
      cases ha
      exact .inr ⟨hfree.1, hfree.2, rfl, .inr ⟨hne, rfl⟩⟩
    · rw [LockCell.tryExcl_taken _ hfree] at ha
      exact .inl ha
  | relExcl _ hr =>
    rcases LockCell.relExcl_ok hr with ⟨-, rfl⟩ | ⟨-, -, rfl⟩
    · cases ha
    · exact .inl ha
  | acqShared hr => obtain ⟨-, rfl⟩ := LockCell.acqShared_some hr; exact .inl ha
  | relShared hr => obtain ⟨-, rfl⟩ := LockCell.relShared_some hr; exact .inl ha

/-- A claim that stood before a turn stands after it, or the turn has cleared it: by a handoff wait, by the machine's
cross-block handoff, or by a release at the lock port (R172). -/
theorem CellTurn.claim_ends {s : State} {m : Turn} {l : LockId} {c c' : LockCell} {a : AgentId}
    (h : CellTurn s l c m c') (ha : c.claim = some a) :
    c'.claim = some a ∨
    (c' = c.cleared ∧
      ((∃ b, HandoffTurn s l b m) ∨
       (m = .machine ∧ s.status = .running ∧ s.phase = .xhandoff ∧ s.lockFor s.dp = some l ∧ l ≠ ownLock ∧
          a ≠ machineId) ∨
       ∃ b, b ≠ machineId ∧ m = .other (.port b (.relExcl l)))) := by
  cases h with
  | kept => exact .inl ha
  | handoff ht hw =>
    rw [LockCell.handoffWait_claimed _ _ a ha] at hw
    cases hw
    exact .inr ⟨rfl, .inl ⟨_, ht⟩⟩
  | crossBlock hs hp hl hown hb hne =>
    cases hb.symm.trans ha
    exact .inr ⟨rfl, .inr (.inl ⟨rfl, hs, hp, hl, hown, hne⟩)⟩
  | tryExcl =>
    rw [LockCell.tryExcl_taken _ fun hfree => by simp [ha] at hfree]
    exact .inl ha
  | relExcl hb hr =>
    rw [LockCell.relExcl_claimed _ ha] at hr
    cases hr
    exact .inr ⟨rfl, .inr (.inr ⟨_, hb, rfl⟩)⟩
  | acqShared hr => obtain ⟨-, rfl⟩ := LockCell.acqShared_some hr; exact .inl ha
  | relShared hr => obtain ⟨-, rfl⟩ := LockCell.relShared_some hr; exact .inl ha

theorem LockCell.relExcl_heldByMachine {c c' : LockCell} {p : RelFreePolicy} (hm : c.heldByMachine = true)
    (h : c.relExcl p = .ok c') : c'.heldByMachine = false := by
  rw [LockCell.relExcl_claimed p (c.heldByMachine_iff.1 hm)] at h
  cases h
  rfl

/-- Settles O38: the machine's hold is its claim, a release clears it, and a turn that begins a claim is the attempt of
the claim's own agent. -/
theorem claimsBeginOnlyByTheirAgent : Obligations.ClaimsBeginOnlyByTheirAgent := by
  refine ⟨fun c => ?_, fun c c' p => LockCell.relExcl_heldByMachine, fun s m l c c' a hc hc' ha => ?_⟩
  · rw [LockCell.heldByMachine_iff]
    exact ⟨fun h => ⟨LockCell.excl_of_claim h, h⟩, fun ⟨_, h⟩ => h⟩
  · refine ((State.turn_cell hc hc').claim_begins ha).imp_right fun ⟨hfree, hr, heq, hattempt⟩ => ⟨hfree, hr, heq, ?_⟩
    rcases hattempt with hwait | ⟨hne, htry⟩
    · cases hwait with
      | machine hs hp hl => exact .inl ⟨rfl, rfl, hs, hp, hl⟩
      | writer hk hw hs hp hl => exact .inr (.inl ⟨hk, _, _, rfl, hw, hs, hp, hl⟩)
      | port hne => exact .inr (.inr ⟨hne, .inr rfl⟩)
    · exact .inr (.inr ⟨hne, .inl htry⟩)

/-- Settles O39: a turn that ends a claim is one of the releases of R172. -/
theorem claimsEndOnlyByRelease : Obligations.ClaimsEndOnlyByRelease := by
  intro s m l c c' a hc hc' ha
  refine ((State.turn_cell hc hc').claim_ends ha).imp_right fun ⟨heq, hrelease⟩ => ⟨⟨_, heq⟩, ?_⟩
  rcases hrelease with ⟨b, hwait⟩ | hcross | ⟨b, hb, hport⟩
  · cases hwait with
    | machine hs hp hl => exact .inl ⟨rfl, hs, hp, hl⟩
    | writer _ hw hs hp hl => exact .inr (.inr (.inl ⟨_, _, _, rfl, hw, hs, hp, hl⟩))
    | port hb => exact .inr (.inr (.inr ⟨_, hb, .inr rfl⟩))
  · exact .inr (.inl hcross)
  · exact .inr (.inr (.inr ⟨b, hb, .inl hport⟩))

end Sys2Proof.Machine
end

