-- ==== Sys2Proof/Proofs/TestAndClear.lean ====
section
/-! The writer's test-and-clear (spec/45_writer_agent.md R194): one action of a running writer, the accesses at a data
index inside the array, and what W2 does with a flag word of 1 and with any other. -/

namespace Sys2Proof.Machine

/-! ## One action of a running writer, and the accesses it makes -/

theorem State.writerAct_running {s : State} {k : AgentId} {w : Writer} (r : SinkReply) (hw : s.writerAt k = some w)
    (hs : w.status = .running) : s.writerAct k r = (w.act k r s).2.setWriter k (w.act k r s).1 := by
  simp [State.writerAct, hw, hs]

theorem State.wordAt_of_lt {s : State} {i : Nat} (hi : i < s.dataLen) : s.wordAt i = some (s.data.readWord i) :=
  if_pos hi

theorem State.setWordAt_of_lt {s : State} {i : Nat} (v : Word) (hi : i < s.dataLen) :
    s.setWordAt i v = { s with data := s.data.writeWord i v } :=
  if_pos hi

/-! ## W2 -/

/-- The scan begins at pair 0 if a whole pair lies before the flag word (the bound of R193, at `j = 0`). -/
theorem Writer.toPair_zero (w : Writer) :
    w.toPair 0 = { w with pair := 0, pos := if 1 < w.cfg.ctrlLen - 1 then .readOff else .flush } := by
  have hpair : 2 * 0 + 2 < w.cfg.ctrlLen ↔ 1 < w.cfg.ctrlLen - 1 := by omega
  simp only [Writer.toPair, hpair]

theorem Writer.act_testClear {w : Writer} (k : AgentId) (r : SinkReply) (s : State) (hp : w.pos = .testClear) :
    w.act k r s = w.doTestClear s := by
  simp only [Writer.act, hp]

theorem Writer.doTestClear_of_one {w : Writer} {s : State} (hi : flagIndex w.cfg < s.dataLen)
    (h : s.data.readWord (flagIndex w.cfg) = 1) :
    w.doTestClear s = (w.toPair 0, s.setWordAt (flagIndex w.cfg) 0) := by
  simp only [Writer.doTestClear, State.wordAt_of_lt hi, if_pos h]

theorem Writer.doTestClear_of_ne_one {w : Writer} {s : State} (hi : flagIndex w.cfg < s.dataLen)
    (h : s.data.readWord (flagIndex w.cfg) ≠ 1) : w.doTestClear s = ({ w with pos := .handoff }, s) := by
  simp only [Writer.doTestClear, State.wordAt_of_lt hi, if_neg h]

/-- Settles O56: the action at W2 is the compare-and-swap of the flag word, by whether that word is 1. -/
theorem writerTestAndClear : Obligations.WriterTestAndClear := by
  intro s k w r hw hs hp hi
  have hact : s.writerAct k r = (w.doTestClear s).2.setWriter k (w.doTestClear s).1 := by
    rw [State.writerAct_running r hw hs, Writer.act_testClear k r s hp]
  refine ⟨fun hone => ?_, fun hne => ?_⟩
  · rw [hact, Writer.doTestClear_of_one hi hone, Writer.toPair_zero, State.setWordAt_of_lt 0 hi]
  · rw [hact, Writer.doTestClear_of_ne_one hi hne]

end Sys2Proof.Machine
end

