-- ==== Sys2Proof/Proofs/RoundTrip.lean ====
section
/-! Encoding against decoding (spec/30_encoding.md R81 to R91): the selector field and the six flag bits do not overlap,
so each is read back from the byte that holds them all, and they make up every byte. -/

namespace Sys2Proof

/-! ## The bits of an encoded instruction -/

/-- A selector code lies in bits 1:0, below every flag. -/
theorem selectorCode_flagBit (c : Selector) (g : Flag) : (selectorCode c).getLsbD (flagBit g) = false := by
  cases c <;> cases g <;> rfl

theorem flagMask_flagBit (h g : Flag) : (flagMask h).getLsbD (flagBit g) = decide (h = g) := by
  cases h <;> cases g <;> rfl

theorem flagBits_flagBit (f : Flags) (h g : Flag) :
    (flagBits f h).getLsbD (flagBit g) = (f.get h && decide (h = g)) := by
  unfold flagBits
  cases f.get h with
  | false => simp
  | true => simpa using flagMask_flagBit h g

/-- The bit of a flag in an encoded instruction is that flag (R91). -/
theorem flagSet_encodeByte (i : Instr) (g : Flag) : flagSet (encodeByte i) g = i.flags.get g := by
  rw [flagSet_eq_getLsbD]
  simp only [encodeByte, BitVec.getLsbD_or, selectorCode_flagBit, flagBits_flagBit]
  cases g <;> simp

theorem decodeFlags_encodeByte (i : Instr) : decodeFlags (encodeByte i) = i.flags := by
  simp only [decodeFlags, flagSet_encodeByte, Flags.get]

/-- The row of the opcode table that an encoded instruction matches is its selector's (R86). -/
theorem matchesSelector_encodeByte (i : Instr) : matchesSelector (encodeByte i) i.selector = true := by
  cases i with
  | src f => exact (Laws.EncodesInOneElement.src f).2.2
  | dst f => exact (Laws.EncodesInOneElement.dst f).2.2
  | code f => exact (Laws.EncodesInOneElement.code f).2.2
  | value f => exact (Laws.EncodesInOneElement.value f).2.2

theorem decodeSelector_encodeByte (i : Instr) : decodeSelector (encodeByte i) = i.selector :=
  (decodeSelector_eq_iff _ _).2 (matchesSelector_encodeByte i)

/-! ## The two directions -/

theorem Instr.ofSelector_self (i : Instr) : Instr.ofSelector i.selector i.flags = i := by
  cases i <;> rfl

@[simp] theorem decodeByte_encodeByte (i : Instr) : decodeByte (encodeByte i) = i := by
  rw [decodeByte, decodeSelector_encodeByte, decodeFlags_encodeByte, Instr.ofSelector_self]

/-- Two bytes with the same selector field and the same flag bits are equal: the fields make up the byte (R81). -/
theorem byte_ext {a b : Byte} (hfield : a &&& selectorMask = b &&& selectorMask)
    (hflag : ∀ g, flagSet a g = flagSet b g) : a = b := by
  have hbit : ∀ g, a.getLsbD (flagBit g) = b.getLsbD (flagBit g) := by
    simpa only [flagSet_eq_getLsbD] using hflag
  have hlow : ∀ j, selectorMask.getLsbD j = true → a.getLsbD j = b.getLsbD j := by
    intro j hj
    have hj' := congrArg (BitVec.getLsbD · j) hfield
    simpa [hj] using hj'
  refine BitVec.eq_of_getLsbD_eq fun j hj => ?_
  interval_cases j
  · exact hlow 0 rfl
  · exact hlow 1 rfl
  · exact hbit .invert
  · exact hbit .extend
  · exact hbit .mutexWait
  · exact hbit .lower
  · exact hbit .equal
  · exact hbit .greater

theorem decodeByte_flags_get (b : Byte) (g : Flag) : (decodeByte b).flags.get g = flagSet b g := by
  rw [decodeByte_flags]
  cases g <;> rfl

@[simp] theorem encodeByte_decodeByte (b : Byte) : encodeByte (decodeByte b) = b := by
  refine byte_ext ?_ fun g => ?_
  · rw [(matchesSelector_iff _ _).1 (matchesSelector_encodeByte _), decodeByte_selector,
      (matchesSelector_iff _ _).1 (matchesSelector_decodeSelector b)]
  · rw [flagSet_encodeByte, decodeByte_flags_get]

end Sys2Proof

namespace Sys2Proof.Machine

/-- Settles O1: the fields of a byte determine it, and are what the decoder reads. -/
theorem decodeEncodeRoundTrip : Obligations.DecodeEncodeRoundTrip := by
  refine ⟨fun i rest => ?_, fun b rest => ⟨decodeByte b, rfl, ?_⟩⟩
  · rw [encode, List.singleton_append, decode, decodeByte_encodeByte]
  · rw [encode, encodeByte_decodeByte]

/-- Settles O4: the bytes are closed, so the decoder evaluates on each. -/
theorem specWordsDecode : Obligations.SpecWordsDecode := by
  unfold Obligations.SpecWordsDecode
  decide

/-! ## The instruction a step runs -/

theorem decode_ok {l rest : List Byte} {i : Instr} (h : decode l = .ok (i, rest)) :
    ∃ b, l = b :: rest ∧ decodeByte b = i := by
  cases l with
  | nil => cases h
  | cons b l => cases h; exact ⟨b, rfl, rfl⟩

/-- FETCH reads the first of the code elements from `ip` on (R101). -/
theorem State.fetchAtIp_of_drop {s : State} {b : Byte} {rest : List Byte} (hip : 0 ≤ s.ip.toInt)
    (h : s.code.drop s.ip.toNat = b :: rest) : s.fetchAtIp = .opcode b := by
  have hlt : s.ip.toNat < s.code.length := by
    by_contra hge
    rw [List.drop_eq_nil_of_le (not_lt.1 hge)] at h
    cases h
  have hint : s.ip.toInt = s.ip.toNat := by
    rw [BitVec.toInt_eq_toNat_cond] at hip ⊢
    have := s.ip.isLt
    split <;> omega
  rw [List.drop_eq_getElem_cons hlt] at h
  rw [State.fetchAtIp_of_lt hint hlt, (List.cons.inj h).1]

/-- A running machine in the middle of a step goes on with the latched instruction. -/
theorem step_of_resume {s : State} (hs : s.status = .running) (hp : s.phase ≠ .fetch) :
    step s = exec (decodeByte s.op) s := by
  obtain ⟨t, ht⟩ := exec_next (decodeByte s.op) s
  rw [step_of_case (.resumes hs hp ht), ht]

/-- Settles O5, by the phase the machine is in. -/
theorem stepRunsDecodedInstruction : Obligations.StepRunsDecodedInstruction := by
  refine ⟨fun s i rest hs hip hd _ => ?_, fun s hs hp => step_of_resume hs hp⟩
  obtain ⟨b, hdrop, rfl⟩ := decode_ok hd
  exact step_of_fetch hs (State.fetchAtIp_of_drop hip hdrop)

/-- Settles O10: every branch of `step` gives an answer. -/
theorem stepAlwaysAnswersNext : Obligations.StepAlwaysAnswersNext :=
  ⟨fun s => (exists_stepCase s).imp fun _ => step_of_case, exec_next⟩

end Sys2Proof.Machine
end

