-- ==== Sys2Proof/Proofs/Twins.lean ====
section
/-! What the machine's phases do not see. No phase sees the interleaving input `env`, and with the default parameters
none sees the lock cells either (spec/44_lock_handoff.md section 1, spec/70_reset_and_hazards.md section 3): two states
that differ in no more than that take the same action and differ in no more after it. -/

namespace Sys2Proof.Machine

/-! ## Twin states -/

/-- `t` is `s` with another `env` and, unless `agree`, other lock cells. MWAIT does not see the cells only where it
neither repeats an attempt nor faults on a release, so that case asks for the default parameters. -/
structure Twin (agree : Prop) (s t : State) : Prop where
  rest : t = { s with cells := t.cells, env := t.env }
  length : t.cells.length = s.cells.length
  cells : agree → t.cells = s.cells
  defaults : agree ∨ (s.params.mwaitRetry = false ∧ s.params.relFree = .noop)

/-- Two answers of a phase: the same fault, or next states that are twins. -/
inductive TwinResult (agree : Prop) : Except Fault State → Except Fault State → Prop
  | ok {s t : State} (h : Twin agree s t) : TwinResult agree (.ok s) (.ok t)
  | error (e : Fault) : TwinResult agree (.error e) (.error e)

/-- A phase effect that takes twins to twins. -/
def KeepsTwins (g : State → Except Fault State) : Prop :=
  ∀ ⦃agree : Prop⦄ ⦃s t : State⦄, Twin agree s t → TwinResult agree (g s) (g t)

section

variable {agree : Prop} {s t : State}

/-- Updates that act alike on both states and leave the cells and the parameters alone keep twins. -/
theorem Twin.map (h : Twin agree s t) (F : State → State)
    (hF : ∀ (u : State) (cs : List LockCell) (e : List (List EnvAction)),
      F { u with cells := cs, env := e } = { F u with cells := cs, env := e })
    (hcells : (F s).cells = s.cells) (hparams : (F s).params = s.params) : Twin agree (F s) (F t) := by
  obtain ⟨hrest, hlength, hsame, hdef⟩ := h
  have hFt : F t = { F s with cells := t.cells, env := t.env } := by rw [hrest]; exact hF s _ _
  rw [hFt]
  exact ⟨rfl, by rw [hcells]; exact hlength, fun ha => by rw [hcells]; exact hsame ha, by rw [hparams]; exact hdef⟩

/-- Replacing the same cell in both. -/
theorem Twin.setCell (h : Twin agree s t) (l : LockId) {c d : LockCell} (hcd : agree → d = c) :
    Twin agree (s.setCell l c) (t.setCell l d) := by
  obtain ⟨hrest, hlength, hsame, hdef⟩ := h
  refine ⟨?_, by simpa using hlength, fun ha => ?_, hdef⟩
  · rw [hrest]; rfl
  · rw [State.setCell_cells, State.setCell_cells, hsame ha, hcd ha]

/-- Replacing one cell on one side only, where the cells need not agree. -/
theorem Twin.setCell_left (h : Twin agree s t) (hn : ¬agree) (l : LockId) (c : LockCell) :
    Twin agree (s.setCell l c) t :=
  ⟨h.rest, by simpa using h.length, fun ha => absurd ha hn, h.defaults⟩

theorem Twin.setCell_right (h : Twin agree s t) (hn : ¬agree) (l : LockId) (c : LockCell) :
    Twin agree s (t.setCell l c) := by
  refine ⟨?_, by simpa using h.length, fun ha => absurd ha hn, h.defaults⟩
  rw [h.rest]
  rfl

theorem Twin.lockFor (h : Twin agree s t) (i : Word) : t.lockFor i = s.lockFor i := by
  rw [h.rest]
  rfl

/-- What both read of the registers, the data and the parameters. -/
theorem Twin.status (h : Twin agree s t) : t.status = s.status := by rw [h.rest]
theorem Twin.phase (h : Twin agree s t) : t.phase = s.phase := by rw [h.rest]
theorem Twin.sp (h : Twin agree s t) : t.sp = s.sp := by rw [h.rest]
theorem Twin.dp (h : Twin agree s t) : t.dp = s.dp := by rw [h.rest]
theorem Twin.op (h : Twin agree s t) : t.op = s.op := by rw [h.rest]
theorem Twin.src (h : Twin agree s t) : t.src = s.src := by rw [h.rest]
theorem Twin.dst (h : Twin agree s t) : t.dst = s.dst := by rw [h.rest]
theorem Twin.params (h : Twin agree s t) : t.params = s.params := by rw [h.rest]
theorem Twin.inData_sp (h : Twin agree s t) : t.inData t.sp ↔ s.inData s.sp := by rw [h.rest]
theorem Twin.inData_dp (h : Twin agree s t) : t.inData t.dp ↔ s.inData s.dp := by rw [h.rest]
theorem Twin.fetchAtIp (h : Twin agree s t) : t.fetchAtIp = s.fetchAtIp := by rw [h.rest]; rfl

theorem Twin.takeFault (h : Twin agree s t) (e : Fault) : Twin agree (s.takeFault e) (t.takeFault e) :=
  h.map (fun u => u.takeFault e) (fun _ _ _ => rfl) rfl rfl

theorem Twin.withPhase (h : Twin agree s t) (p : Phase) :
    Twin agree { s with phase := p } { t with phase := p } :=
  h.map (fun u => { u with phase := p }) (fun _ _ _ => rfl) rfl rfl

theorem Twin.advance (h : Twin agree s t) : Twin agree s.advance t.advance :=
  h.map State.advance (fun _ _ _ => rfl) rfl rfl

end

/-! ## The phases -/

theorem keepsTwins_latch (op : Byte) (f : Flags) : KeepsTwins fun s => .ok (s.latch op f) := by
  intro agree s t h
  exact .ok (h.map (fun u => u.latch op f) (fun _ _ _ => rfl) rfl rfl)

/-- Under NOOP a handoff wait answers, whatever it finds. -/
theorem LockCell.handoffWait_noop_answers (c : LockCell) (a : AgentId) : ∃ r, c.handoffWait .noop a = .ok r := by
  cases hw : c.handoffWait .noop a with
  | ok r => exact ⟨r, rfl⟩
  | error e => obtain ⟨-, hp, -⟩ := LockCell.handoffWait_error hw; cases hp

theorem State.machineHandoff_of_no_lock {s : State} {i : Word} (h : s.lockFor i = none) :
    s.machineHandoff i = .error .noLock := by
  simp only [State.machineHandoff, h]

theorem State.machineHandoff_of_no_cell {s : State} {i : Word} {l : LockId} (h : s.lockFor i = some l)
    (hc : s.cells[l]? = none) : s.machineHandoff i = .error .noLock := by
  simp only [State.machineHandoff, h, hc]

/-- MWAIT of twins on a lock that both have a cell for. -/
theorem TwinResult.mwait_of_cells {agree : Prop} {s t : State} {l : LockId} {c d : LockCell} (f : Flags)
    (h : Twin agree s t) (hl : s.lockFor s.dp = some l) (hc : s.cells[l]? = some c) (hd : t.cells[l]? = some d) :
    TwinResult agree (s.mwait f) (t.mwait f) := by
  have hl' : t.lockFor t.dp = some l := by rw [h.dp, h.lockFor, hl]
  by_cases ha : agree
  · have hcd : d = c := by rw [h.cells ha, hc] at hd; exact (Option.some.inj hd).symm
    subst hcd
    cases hw : d.handoffWait s.params.relFree machineId with
    | error e =>
      have hw' := hw
      rw [← h.params] at hw'
      rw [State.mwait_of_fault (State.machineHandoff_of_error hl hc hw),
        State.mwait_of_fault (State.machineHandoff_of_error hl' hd hw')]
      exact .error e
    | ok r =>
      obtain ⟨got, c'⟩ := r
      have hw' := hw
      rw [← h.params] at hw'
      rw [State.mwait_of_handoff (State.machineHandoff_eq hl hc hw),
        State.mwait_of_handoff (State.machineHandoff_eq hl' hd hw'), h.params]
      have hcell := h.setCell l (c := c') (d := c') fun _ => rfl
      split
      · exact .ok hcell
      · exact .ok (hcell.withPhase _)
  · obtain ⟨hretry, hrel⟩ := h.defaults.resolve_left ha
    obtain ⟨⟨got, c'⟩, hw⟩ := c.handoffWait_noop_answers machineId
    obtain ⟨⟨got', d'⟩, hw'⟩ := d.handoffWait_noop_answers machineId
    rw [← hrel] at hw hw'
    rw [← h.params] at hw'
    rw [State.mwait_of_handoff (State.machineHandoff_eq hl hc hw),
      State.mwait_of_handoff (State.machineHandoff_eq hl' hd hw'), h.params, hretry, Bool.false_and, Bool.false_and]
    exact .ok ((h.setCell l fun hx => absurd hx ha).withPhase _)

theorem keepsTwins_mwait (f : Flags) : KeepsTwins (State.mwait f) := by
  intro agree s t h
  cases hl : s.lockFor s.dp with
  | none =>
    have hl' : t.lockFor t.dp = none := by rw [h.dp, h.lockFor, hl]
    rw [State.mwait_of_fault (State.machineHandoff_of_no_lock hl),
      State.mwait_of_fault (State.machineHandoff_of_no_lock hl')]
    exact .error _
  | some l =>
    have hl' : t.lockFor t.dp = some l := by rw [h.dp, h.lockFor, hl]
    by_cases hlt : l < s.cells.length
    · exact .mwait_of_cells f h hl (List.getElem?_eq_getElem hlt) (List.getElem?_eq_getElem (h.length ▸ hlt))
    · rw [State.mwait_of_fault (State.machineHandoff_of_no_cell hl (by simpa using hlt)),
        State.mwait_of_fault (State.machineHandoff_of_no_cell hl' (by simpa [h.length] using hlt))]
      exact .error _

theorem keepsTwins_eload : KeepsTwins State.eload := by
  intro agree s t h
  by_cases hd : s.inData s.sp
  · rw [State.eload_ok hd, State.eload_ok (h.inData_sp.2 hd)]
    exact .ok (h.map (fun u => { u with mag := u.wordOf u.sp, sp := u.sp - 1, phase := .loadSrc }) (fun _ _ _ => rfl)
      rfl rfl)
  · rw [State.eload_error hd, State.eload_error (mt h.inData_sp.1 hd)]
    exact .error _

theorem keepsTwins_loadSrc : KeepsTwins State.loadSrc := by
  intro agree s t h
  by_cases hd : s.inData s.sp
  · rw [State.loadSrc_ok hd, State.loadSrc_ok (h.inData_sp.2 hd)]
    exact .ok (h.map (fun u => { u with src := u.wordOf u.sp, phase := .loadDst }) (fun _ _ _ => rfl) rfl rfl)
  · rw [State.loadSrc_error hd, State.loadSrc_error (mt h.inData_sp.1 hd)]
    exact .error _

theorem keepsTwins_loadDst : KeepsTwins State.loadDst := by
  intro agree s t h
  by_cases hd : s.inData s.dp
  · rw [State.loadDst_ok hd, State.loadDst_ok (h.inData_dp.2 hd)]
    exact .ok (h.map (fun u => { u with dst := u.wordOf u.dp, phase := .exec }) (fun _ _ _ => rfl) rfl rfl)
  · rw [State.loadDst_error hd, State.loadDst_error (mt h.inData_dp.1 hd)]
    exact .error _

theorem Twin.afterStore {agree : Prop} {s t : State} (h : Twin agree s t) : Twin agree s.afterStore t.afterStore := by
  have hstart : t.dp.toNat % t.params.blockWords = s.dp.toNat % s.params.blockWords := by rw [h.dp, h.params]
  rw [State.afterStore_eq, State.afterStore_eq, hstart]
  split
  · exact h.withPhase _
  · exact h.advance

theorem keepsTwins_valueAction : KeepsTwins valueAction := by
  intro agree s t h
  by_cases hd : s.inData s.dp
  · rw [valueAction_ok hd, valueAction_ok (h.inData_dp.2 hd)]
    have hmoved := h.map (fun u => State.moveBoth { u with data := u.data.writeWord u.dp.toNat (u.src + u.mag) })
      (fun _ _ _ => rfl) rfl rfl
    exact .ok hmoved.afterStore
  · rw [valueAction_error hd, valueAction_error (mt h.inData_dp.1 hd)]
    exact .error _

theorem keepsTwins_selectorAction (c : Selector) : KeepsTwins (selectorAction c) := by
  intro agree s t h
  cases c with
  | src => exact .ok (h.map (fun u => { u with sp := u.sp + u.mag }) (fun _ _ _ => rfl) rfl rfl).advance
  | dst => exact .ok (h.map (fun u => { u with dp := u.dp + u.mag }) (fun _ _ _ => rfl) rfl rfl).advance
  | code => exact .ok (h.map (fun u => { u with ip := u.ip + u.mag }) (fun _ _ _ => rfl) rfl rfl).advance
  | value => exact keepsTwins_valueAction h

theorem keepsTwins_execute (f : Flags) {act : State → Except Fault State} (hact : KeepsTwins act) :
    KeepsTwins (State.execute f act) := by
  intro agree s t h
  cases he : eligible f s.src s.dst with
  | true =>
    rw [State.execute_eligible act he, State.execute_eligible act (by rw [h.src, h.dst, he])]
    exact hact (h.map (fun u => { u with mag := appliedMag f u.mag }) (fun _ _ _ => rfl) rfl rfl)
  | false =>
    rw [State.execute_ineligible act he, State.execute_ineligible act (by rw [h.src, h.dst, he])]
    exact .ok h.advance

/-- Where the cells agree the cross-block handoff releases the same claim in both. -/
theorem Twin.crossBlockHandoff_of_agree {agree : Prop} {s t : State} (h : Twin agree s t) (ha : agree) :
    Twin agree s.crossBlockHandoff t.crossBlockHandoff := by
  rcases s.crossBlockHandoff_cases with hs | ⟨l, c, a, hl, hown, hc, hclaim, hne, hs⟩
  · rcases t.crossBlockHandoff_cases with ht | ⟨l, c, a, hl, hown, hc, hclaim, hne, ht⟩
    · rw [hs, ht]; exact h
    · rw [ht, State.crossBlockHandoff_releases (by rw [← hl, h.dp, h.lockFor]) hown (h.cells ha ▸ hc) hclaim hne]
      exact h.setCell l fun _ => rfl
  · rw [hs, State.crossBlockHandoff_releases (by rw [h.dp, h.lockFor, hl]) hown ((h.cells ha).symm ▸ hc) hclaim hne]
    exact h.setCell l fun _ => rfl

/-- It writes nothing but a cell, so where the cells need not agree it may do different things in the two. -/
theorem Twin.crossBlockHandoff_of_not_agree {agree : Prop} {s t : State} (h : Twin agree s t) (ha : ¬agree) :
    Twin agree s.crossBlockHandoff t.crossBlockHandoff := by
  have hleft : Twin agree s.crossBlockHandoff t := by
    rcases s.crossBlockHandoff_cases with hs | ⟨l, c, -, -, -, -, -, -, hs⟩
    · rw [hs]; exact h
    · rw [hs]; exact h.setCell_left ha l _
  rcases t.crossBlockHandoff_cases with ht | ⟨l, c, -, -, -, -, -, -, ht⟩
  · rw [ht]; exact hleft
  · rw [ht]; exact hleft.setCell_right ha l _

theorem keepsTwins_xhandoff : KeepsTwins State.xhandoff := by
  intro agree s t h
  by_cases ha : agree
  · exact .ok (h.crossBlockHandoff_of_agree ha).advance
  · exact .ok (h.crossBlockHandoff_of_not_agree ha).advance

theorem PhaseEffect.keepsTwins {op : Byte} {f : Flags} {c : Selector} {g : State → Except Fault State} {p : Phase}
    (h : PhaseEffect op f (selectorAction c) p g) : KeepsTwins g := by
  cases h with
  | fetch => exact keepsTwins_latch op f
  | mwait => exact keepsTwins_mwait f
  | eload => exact keepsTwins_eload
  | loadSrc => exact keepsTwins_loadSrc
  | loadDst => exact keepsTwins_loadDst
  | exec => exact keepsTwins_execute f (keepsTwins_selectorAction c)
  | xhandoff => exact keepsTwins_xhandoff

theorem KeepsTwins.orFault {g : State → Except Fault State} (hg : KeepsTwins g) {agree : Prop} {s t : State}
    (h : Twin agree s t) : Twin agree (s.orFault (g s)) (t.orFault (g t)) := by
  have hr := hg h
  generalize g s = r at hr ⊢
  generalize g t = r' at hr ⊢
  cases hr with
  | ok h' => exact h'
  | error e => exact h.takeFault e

end Sys2Proof.Machine
end

