-- ==== Sys2Proof/Proofs/ExecutionOrder.lean ====
section
/-! A step as a list of turns (spec/00_scope.md R17, spec/20_memory.md R63): each phase that runs is one turn of the
machine, and what `env` lists after it are turns of the other agents. -/

namespace Sys2Proof.Machine

/-! ## What EXEC and the phases past FETCH write -/

/-- Everything EXEC can do when it does not fault (R110, R113). -/
inductive ExecuteCase (f : Flags) (s : State) : Selector → State → Prop
  | ineligible {c : Selector} (he : eligible f s.src s.dst = false) : ExecuteCase f s c s.advance
  | src (he : eligible f s.src s.dst = true) :
      ExecuteCase f s .src (State.advance { s with mag := appliedMag f s.mag, sp := s.sp + appliedMag f s.mag })
  | dst (he : eligible f s.src s.dst = true) :
      ExecuteCase f s .dst (State.advance { s with mag := appliedMag f s.mag, dp := s.dp + appliedMag f s.mag })
  | code (he : eligible f s.src s.dst = true) :
      ExecuteCase f s .code (State.advance { s with mag := appliedMag f s.mag, ip := s.ip + appliedMag f s.mag })
  | value (he : eligible f s.src s.dst = true) (hd : s.inData s.dp) :
      ExecuteCase f s .value (State.moveBoth { s with
        mag := appliedMag f s.mag
        data := s.data.writeWord s.dp.toNat (s.src + appliedMag f s.mag) }).afterStore

theorem State.execute_cases {s t : State} {f : Flags} {c : Selector} (h : s.execute f (selectorAction c) = .ok t) :
    ExecuteCase f s c t := by
  cases he : eligible f s.src s.dst with
  | false => rw [State.execute_ineligible _ he] at h; cases h; exact .ineligible he
  | true =>
    rw [State.execute_eligible _ he] at h
    cases c with
    | src => cases h; exact .src he
    | dst => cases h; exact .dst he
    | code => cases h; exact .code he
    | value =>
      by_cases hd : s.inData s.dp
      · rw [selectorAction, valueAction_ok (by exact hd)] at h
        cases h
        exact .value he hd
      · rw [selectorAction, valueAction_error (by exact hd)] at h
        cases h

@[simp] theorem State.afterStore_op (s : State) : s.afterStore.op = s.op := by
  unfold State.afterStore; split <;> rfl

@[simp] theorem State.afterStore_writers (s : State) : s.afterStore.writers = s.writers := by
  unfold State.afterStore; split <;> rfl

@[simp] theorem State.crossBlockHandoff_op (s : State) : s.crossBlockHandoff.op = s.op := by
  rcases s.crossBlockHandoff_cases with h | ⟨l, c, -, -, -, -, -, -, h⟩ <;> rw [h]
  rfl

@[simp] theorem State.crossBlockHandoff_writers (s : State) : s.crossBlockHandoff.writers = s.writers := by
  rcases s.crossBlockHandoff_cases with h | ⟨l, c, -, -, -, -, -, -, h⟩ <;> rw [h]
  rfl

/-- Only FETCH writes the latched opcode, and no phase of the machine writes a writer (R102, R234). -/
theorem PhaseEffect.keeps_op_writers {op : Byte} {f : Flags} {c : Selector} {p : Phase}
    {g : State → Except Fault State} (h : PhaseEffect op f (selectorAction c) p g) {s t : State} (ht : g s = .ok t) :
    (p ≠ .fetch → t.op = s.op) ∧ t.writers = s.writers := by
  cases h with
  | fetch => cases ht; exact ⟨fun hne => absurd rfl hne, rfl⟩
  | mwait => obtain ⟨l, d, rfl | rfl⟩ := State.mwait_ok_cases ht <;> exact ⟨fun _ => rfl, rfl⟩
  | eload => rw [State.eq_of_eload_ok ht]; exact ⟨fun _ => rfl, rfl⟩
  | loadSrc => rw [State.eq_of_loadSrc_ok ht]; exact ⟨fun _ => rfl, rfl⟩
  | loadDst => rw [State.eq_of_loadDst_ok ht]; exact ⟨fun _ => rfl, rfl⟩
  | exec =>
    cases State.execute_cases ht with
    | ineligible | src | dst | code => exact ⟨fun _ => rfl, rfl⟩
    | value => simp
  | xhandoff => cases ht; simp

/-! ## The machine's turn does not see `env` -/

section

variable {agree : Prop} {s t : State}

theorem Twin.fetchAct (h : Twin agree s t) : Twin agree s.fetchAct t.fetchAct := by
  have hf := h.fetchAtIp
  cases hs : s.fetchAtIp with
  | halt =>
    rw [State.fetchAct_of_halt hs, State.fetchAct_of_halt (hf.trans hs)]
    exact h.map (fun u => { u with status := .halted }) (fun _ _ _ => rfl) rfl rfl
  | outOfRange =>
    rw [State.fetchAct_of_outOfRange hs, State.fetchAct_of_outOfRange (hf.trans hs)]
    exact h.takeFault _
  | opcode b =>
    rw [State.fetchAct_of_opcode hs, State.fetchAct_of_opcode (hf.trans hs)]
    exact h.map (fun u => u.latch b (decodeByte b).flags) (fun _ _ _ => rfl) rfl rfl

/-- Each phase past FETCH is the effect that the latched opcode asks for. -/
theorem exists_phaseEffect (op : Byte) (f : Flags) (act : State → Except Fault State) (p : Phase) :
    ∃ g, PhaseEffect op f act p g := by
  cases p with
  | fetch => exact ⟨_, .fetch⟩
  | mwait => exact ⟨_, .mwait⟩
  | eload => exact ⟨_, .eload⟩
  | loadSrc => exact ⟨_, .loadSrc⟩
  | loadDst => exact ⟨_, .loadDst⟩
  | exec => exact ⟨_, .exec⟩
  | xhandoff => exact ⟨_, .xhandoff⟩

theorem Twin.machineAct (h : Twin agree s t) : Twin agree s.machineAct t.machineAct := by
  by_cases hs : s.status = .running
  · by_cases hp : s.phase = .fetch
    · rw [State.machineAct_fetch ⟨hs, hp⟩, State.machineAct_fetch ⟨h.status.trans hs, h.phase.trans hp⟩]
      exact h.fetchAct
    · obtain ⟨g, hg⟩ := exists_phaseEffect s.op (decodeByte s.op).flags (selectorAction (decodeByte s.op).selector)
        s.phase
      rw [State.machineAct_of_phase hg hs rfl hp,
        State.machineAct_of_phase (by rw [h.op]; exact hg) (h.status.trans hs) h.phase hp]
      exact hg.keepsTwins.orFault h
  · rw [State.machineAct_stopped hs, State.machineAct_stopped (h.status ▸ hs)]
    exact h

end

/-- The machine's action is the same whatever the other agents are going to do. -/
theorem State.machineAct_withEnv (s : State) (e : List (List EnvAction)) :
    ({ s with env := e } : State).machineAct = { s.machineAct with env := e } := by
  have h : Twin True s { s with env := e } := ⟨rfl, rfl, fun _ => rfl, .inl trivial⟩
  obtain ⟨hrest, -, hcells, -⟩ := h.machineAct
  rw [hrest, hcells trivial, (State.machineAct_kept _).env]

/-! ## The other agents' actions do not see `env` -/

/-- The answer of a writer's action, with another `env` in its state. -/
abbrev withEnvWriter (e : List (List EnvAction)) (r : Writer × State) : Writer × State := (r.1, { r.2 with env := e })

theorem State.setWordAt_withEnv (s : State) (e : List (List EnvAction)) (i : Nat) (v : Word) :
    ({ s with env := e } : State).setWordAt i v = { s.setWordAt i v with env := e } := by
  unfold State.setWordAt
  dsimp only
  split <;> rfl

theorem Writer.act_withEnv (k : AgentId) (w : Writer) (r : SinkReply) (s : State) (e : List (List EnvAction)) :
    w.act k r { s with env := e } = withEnvWriter e (w.act k r s) := by
  have hl : ∀ b, ({ s with env := e } : State).lockOfBlock b = s.lockOfBlock b := fun _ => rfl
  have hw : ∀ i, ({ s with env := e } : State).wordAt i = s.wordAt i := fun _ => rfl
  have hb : ∀ i, ({ s with env := e } : State).blockOf i = s.blockOf i := fun _ => rfl
  have ht : ∀ (v : Writer) b, v.toBlock { s with env := e } b = v.toBlock s b := fun _ _ => rfl
  unfold Writer.act
  split
  · unfold Writer.doHandoff
    dsimp only
    split
    · rfl
    · split <;> rfl
  · unfold Writer.doTestClear
    rw [hw, State.setWordAt_withEnv]
    split
    · rfl
    · split <;> rfl
  · unfold Writer.doReadOff
    rw [hw]
    split <;> rfl
  · unfold Writer.doReadLen
    rw [hw]
    split
    · rfl
    · dsimp only
      split
      · rfl
      · split <;> rfl
  · unfold Writer.doAcquire
    rw [hl]
    dsimp only
    split
    · rfl
    · split
      · rfl
      · split <;> rfl
  · unfold Writer.doCopy
    rw [hw]
    split
    · rfl
    · dsimp only
      split <;> rfl
  · unfold Writer.doRelease
    rw [hl, hb, ht]
    dsimp only
    split
    · rfl
    · split
      · rfl
      · split <;> rfl
  · rfl
  · unfold Writer.doZero
    rw [State.setWordAt_withEnv]

theorem State.writerAct_withEnv (s : State) (e : List (List EnvAction)) (k : AgentId) (r : SinkReply) :
    ({ s with env := e } : State).writerAct k r = { s.writerAct k r with env := e } := by
  have hk : ({ s with env := e } : State).writerAt k = s.writerAt k := rfl
  unfold State.writerAct
  rw [hk]
  split
  · rfl
  · rename_i w _
    split
    · rw [w.act_withEnv k r s e]
      rfl
    · rfl

theorem State.writerHandOver_withEnv (s : State) (e : List (List EnvAction)) (k : AgentId) (n : Nat) :
    ({ s with env := e } : State).writerHandOver k n = { s.writerHandOver k n with env := e } := by
  have hk : ({ s with env := e } : State).writerAt k = s.writerAt k := rfl
  unfold State.writerHandOver
  rw [hk]
  split
  · rfl
  · split <;> rfl

theorem State.portDo_withEnv (s : State) (e : List (List EnvAction)) (a : AgentId) (op : PortOp) :
    (({ s with env := e } : State).portDo a op).2 = { (s.portDo a op).2 with env := e } := by
  have hi : ∀ i, ({ s with env := e } : State).portIndex i = s.portIndex i := fun _ => rfl
  have hlock : ∀ l op,
      (({ s with env := e } : State).portLock a l op).2 = { (s.portLock a l op).2 with env := e } := by
    intro l op
    unfold State.portLock
    dsimp only
    split <;> rfl
  unfold State.portDo
  split
  · rfl
  · cases op with
    | memRead i =>
      dsimp only
      unfold State.portRead
      rw [hi]
      split <;> rfl
    | memWrite i v =>
      dsimp only
      unfold State.portWrite
      rw [hi]
      split
      · rfl
      · exact State.setWordAt_withEnv s e _ v
    | memCas i x n =>
      dsimp only
      unfold State.portCas
      rw [hi]
      split
      · rfl
      · dsimp only
        rw [State.setWordAt_withEnv]
        split <;> rfl
    | lockFor i => rfl
    | tryExcl l => exact hlock l _
    | relExcl l => exact hlock l _
    | acqShared l => exact hlock l _
    | relShared l => exact hlock l _
    | handoffWait l => exact hlock l _

theorem State.envAct_withEnv (s : State) (e : List (List EnvAction)) (a : EnvAction) :
    ({ s with env := e } : State).envAct a = { s.envAct a with env := e } := by
  cases a with
  | writer k r => exact s.writerAct_withEnv e k r
  | handOver k n => exact s.writerHandOver_withEnv e k n
  | port a op => exact s.portDo_withEnv e a op

theorem State.envActs_withEnv (acts : List EnvAction) (s : State) (e : List (List EnvAction)) :
    ({ s with env := e } : State).envActs acts = { s.envActs acts with env := e } := by
  induction acts generalizing s with
  | nil => rfl
  | cons a acts ih =>
    calc ({ s with env := e } : State).envActs (a :: acts)
        = (({ s with env := e } : State).envAct a).envActs acts := rfl
      _ = ({ s.envAct a with env := e } : State).envActs acts := by rw [s.envAct_withEnv e a]
      _ = { (s.envAct a).envActs acts with env := e } := ih _

/-- Without `env` the state after the other agents' turn is what the listed actions make of it (R63). -/
theorem State.interfere_noEnv (s : State) : s.interfere.noEnv = s.noEnv.envActs (s.env.headD []) := by
  unfold State.interfere
  split
  · rename_i he; rw [he]; rfl
  · rename_i acts rest he
    rw [he]
    exact (State.envActs_withEnv acts { s with env := rest } []).symm

/-! ## Turns -/

theorem State.turns_append (s : State) (ts us : List Turn) : s.turns (ts ++ us) = (s.turns ts).turns us :=
  List.foldl_append

theorem State.turns_others (s : State) (acts : List EnvAction) : s.turns (acts.map .other) = s.envActs acts :=
  List.foldl_map

theorem turnsOf_add (m n : Nat) (env : List (List EnvAction)) :
    turnsOf (m + n) env = turnsOf m env ++ turnsOf n (env.drop m) := by
  induction m generalizing env with
  | zero => simp [turnsOf]
  | succ m ih => rw [Nat.succ_add, turnsOf, turnsOf, ih, List.append_assoc, List.drop_tail]

/-- `t` is what `n` turns of the machine, with the actions that `env` lists after each, make of `s`. -/
def TurnsTaken (n : Nat) (s t : State) : Prop := t.env = s.env.drop n ∧ t.noEnv = s.noEnv.turns (turnsOf n s.env)

theorem TurnsTaken.zero (s : State) : TurnsTaken 0 s s := ⟨rfl, rfl⟩

theorem TurnsTaken.one (s : State) : TurnsTaken 1 s s.machineAct.interfere := by
  have henv := s.machineAct_kept.env
  refine ⟨by rw [State.interfere_env, henv, List.drop_one], ?_⟩
  rw [State.interfere_noEnv, henv, turnsOf, turnsOf, List.append_nil, ← State.turns_others]
  exact congrArg (State.turns · _) (s.machineAct_withEnv []).symm

theorem TurnsTaken.trans {m n : Nat} {s t u : State} (h : TurnsTaken m s t) (h' : TurnsTaken n t u) :
    TurnsTaken (m + n) s u := by
  obtain ⟨henv, hturns⟩ := h
  obtain ⟨henv', hturns'⟩ := h'
  refine ⟨by rw [henv', henv, List.drop_drop], ?_⟩
  rw [hturns', hturns, henv, turnsOf_add, State.turns_append]

/-! ## A step in turns -/

/-- A state change made of the phases `ps` of instruction `i`: it takes at most one turn for each, and none only where
the machine is at none of them. -/
def TakesTurns (i : Instr) (ps : List Phase) (F : State → State) : Prop :=
  ∀ s : State, decodeByte s.op = i → decodeByte (F s).op = i ∧
    ∃ m ≤ ps.length, TurnsTaken m s (F s) ∧ (m = 0 → F s = s ∧ ∀ p ∈ ps, ¬s.runsAt p)

theorem TakesTurns.comp {i : Instr} {ps qs : List Phase} {F G : State → State} (hF : TakesTurns i ps F)
    (hG : TakesTurns i qs G) : TakesTurns i (ps ++ qs) fun s => G (F s) := by
  intro s hs
  obtain ⟨hop, m, hm, hturns, hnone⟩ := hF s hs
  obtain ⟨hop', n, hn, hturns', hnone'⟩ := hG _ hop
  refine ⟨hop', m + n, by rw [List.length_append]; omega, hturns.trans hturns', fun hmn => ?_⟩
  obtain ⟨hkept, hps⟩ := hnone (by omega)
  obtain ⟨hkept', hqs⟩ := hnone' (by omega)
  rw [hkept] at hkept' hqs
  refine ⟨(congrArg G hkept).trans hkept', fun p hp => ?_⟩
  rcases List.mem_append.1 hp with hp | hp
  · exact hps p hp
  · exact hqs p hp

theorem PhaseEffect.orFault_op {op : Byte} {f : Flags} {c : Selector} {p : Phase} {g : State → Except Fault State}
    (h : PhaseEffect op f (selectorAction c) p g) (hne : p ≠ .fetch) (s : State) : (s.orFault (g s)).op = s.op := by
  cases hg : g s with
  | ok t => exact (h.keeps_op_writers hg).1 hne
  | error e => rfl

/-- A phase past FETCH is a turn of the machine where it runs, and nothing where it does not. -/
theorem PhaseEffect.takesTurns {op : Byte} {i : Instr} {p : Phase} {g : State → Except Fault State}
    (h : PhaseEffect op i.flags (selectorAction i.selector) p g) (hne : p ≠ .fetch) :
    TakesTurns i [p] fun s => s.atPhase p g := by
  rintro s rfl
  dsimp only
  by_cases hr : s.status = .running ∧ s.phase = p
  · obtain ⟨hs, hp⟩ := hr
    rw [State.atPhase_run g hs hp]
    have heffect : PhaseEffect s.op (decodeByte s.op).flags (selectorAction (decodeByte s.op).selector) p g := by
      cases h with
      | fetch => exact absurd rfl hne
      | mwait => exact .mwait
      | eload => exact .eload
      | loadSrc => exact .loadSrc
      | loadDst => exact .loadDst
      | exec => exact .exec
      | xhandoff => exact .xhandoff
    rw [← State.machineAct_of_phase heffect hs hp hne]
    refine ⟨?_, 1, le_rfl, .one s, fun h0 => by omega⟩
    rw [State.interfere_op, State.machineAct_of_phase heffect hs hp hne, heffect.orFault_op hne]
  · rw [State.atPhase_skip g (not_and_or.1 hr)]
    refine ⟨rfl, 0, Nat.zero_le _, .zero s, fun _ => ⟨rfl, fun q hq => ?_⟩⟩
    rw [List.mem_singleton.1 hq]
    exact hr

/-- The phases of a step past FETCH. -/
def State.pastFetch (s : State) (f : Flags) (act : State → Except Fault State) : State :=
  (((((s.atPhase .mwait (State.mwait f)).atPhase .eload State.eload).atPhase .loadSrc State.loadSrc).atPhase .loadDst
    State.loadDst).atPhase .exec (State.execute f act)).atPhase .xhandoff State.xhandoff

theorem State.runPhases_eq_pastFetch (s : State) (op : Byte) (f : Flags) (act : State → Except Fault State) :
    s.runPhases op f act = (s.atPhase .fetch (fun t => .ok (t.latch op f))).pastFetch f act := rfl

theorem takesTurns_pastFetch (i : Instr) :
    TakesTurns i [.mwait, .eload, .loadSrc, .loadDst, .exec, .xhandoff] fun s =>
      s.pastFetch i.flags (selectorAction i.selector) :=
  have phase {p : Phase} {g : State → Except Fault State}
      (h : PhaseEffect (encodeByte i) i.flags (selectorAction i.selector) p g) (hne : p ≠ .fetch) :
      TakesTurns i [p] fun s => s.atPhase p g := h.takesTurns hne
  have hmwait := phase .mwait (by decide)
  have heload := hmwait.comp (phase .eload (by decide))
  have hsrc := heload.comp (phase .loadSrc (by decide))
  have hdst := hsrc.comp (phase .loadDst (by decide))
  have hexec := hdst.comp (phase .exec (by decide))
  hexec.comp (phase .xhandoff (by decide))

/-- A step that fetches takes its FETCH as one turn and at most six more. -/
theorem turnsTaken_of_fetch {s t : State} {b : Byte} (hs : s.ready) (hf : s.fetchAtIp = .opcode b)
    (h : exec (decodeByte b) s = .next t) : ∃ n, 1 ≤ n ∧ n ≤ 7 ∧ TurnsTaken n s t := by
  rw [exec_eq, State.runPhases_eq_pastFetch, State.atPhase_fetch hs, encodeByte_decodeByte] at h
  cases h
  have hact : s.machineAct = s.latch b (decodeByte b).flags := by
    rw [State.machineAct_fetch hs, State.fetchAct_of_opcode hf]
  obtain ⟨-, m, hm, hturns, -⟩ := takesTurns_pastFetch (decodeByte b) s.machineAct.interfere (by simp [hact])
  rw [hact] at hturns
  exact ⟨1 + m, by omega, by simp at hm; omega, (hact ▸ TurnsTaken.one s).trans hturns⟩

/-- A step that goes on with the latched instruction takes at least the turn of its phase. -/
theorem turnsTaken_of_resume {s t : State} (hs : s.status = .running) (hp : s.phase ≠ .fetch)
    (h : exec (decodeByte s.op) s = .next t) : ∃ n, 1 ≤ n ∧ n ≤ 7 ∧ TurnsTaken n s t := by
  rw [exec_eq, State.runPhases_eq_pastFetch, State.atPhase_skip _ (.inr hp)] at h
  cases h
  obtain ⟨-, m, hm, hturns, hnone⟩ := takesTurns_pastFetch (decodeByte s.op) s rfl
  have hmem : s.phase ∈ [Phase.mwait, .eload, .loadSrc, .loadDst, .exec, .xhandoff] := by
    cases hphase : s.phase <;> simp_all
  have hpos : m ≠ 0 := fun h0 => (hnone h0).2 s.phase hmem ⟨hs, rfl⟩
  exact ⟨m, by omega, by simp at hm; omega, hturns⟩

theorem step_turnsTaken {s t : State} (h : step s = .next t) : ∃ n, 1 ≤ n ∧ n ≤ 7 ∧ TurnsTaken n s t := by
  have single : ∀ u, s.machineAct = u → ∃ n, 1 ≤ n ∧ n ≤ 7 ∧ TurnsTaken n s u.interfere := by
    rintro u rfl
    exact ⟨1, le_rfl, by decide, .one s⟩
  cases step_cases h with
  | stopped hs => exact single _ (State.machineAct_stopped hs)
  | halts hs hp hf => exact single _ ((State.machineAct_fetch ⟨hs, hp⟩).trans (State.fetchAct_of_halt hf))
  | codeFault hs hp hf => exact single _ ((State.machineAct_fetch ⟨hs, hp⟩).trans (State.fetchAct_of_outOfRange hf))
  | fetches hs hp hf he => exact turnsTaken_of_fetch ⟨hs, hp⟩ hf he
  | resumes hs hp he => exact turnsTaken_of_resume hs hp he

/-- Settles O50, by the branches of `step`: each phase that runs is one turn of the machine and its `env` entry. -/
theorem stepIsExecutionOrder : Obligations.StepIsExecutionOrder := by
  intro s t h
  obtain ⟨n, hpos, hle, henv, hturns⟩ := step_turnsTaken h
  exact ⟨n, hpos, hle, henv, hturns⟩

/-! ## A machine that has stopped -/

theorem State.envActs_append (s : State) (as bs : List EnvAction) :
    s.envActs (as ++ bs) = (s.envActs as).envActs bs := List.foldl_append

/-- Settles O12, by induction on the number of steps: each is the other agents' turn, which keeps all the machine has of
its own. -/
theorem stoppedMachineIsFrozen : Obligations.StoppedMachineIsFrozen := by
  intro n
  induction n with
  | zero => exact fun s _ => ⟨s, rfl, s.samePrivate_refl, rfl, rfl⟩
  | succ n ih =>
    intro s hs
    obtain ⟨t, hrun, hpriv, henv, hacts⟩ := ih s.interfere (by rw [State.interfere_status]; exact hs)
    refine ⟨t, (coreRun_succ core n (step_of_case (.stopped hs))).trans hrun,
      State.samePrivate_trans s.interfere_private hpriv, ?_, ?_⟩
    · rw [henv, State.interfere_env, List.drop_tail]
    · rw [hacts, State.interfere_noEnv, State.interfere_env, ← State.envActs_append]
      cases s.env <;> simp

/-! ## What each agent has of its own -/

theorem State.fetchAct_writers (s : State) : s.fetchAct.writers = s.writers := by
  unfold State.fetchAct
  split <;> rfl

/-- No action of the machine writes a writer (R234). -/
theorem State.machineAct_writers (s : State) : s.machineAct.writers = s.writers := by
  by_cases hs : s.status = .running
  · by_cases hp : s.phase = .fetch
    · rw [State.machineAct_fetch ⟨hs, hp⟩, State.fetchAct_writers]
    · obtain ⟨g, hg⟩ := exists_phaseEffect s.op (decodeByte s.op).flags (selectorAction (decodeByte s.op).selector)
        s.phase
      rw [State.machineAct_of_phase hg hs rfl hp]
      cases hr : g s with
      | ok t => exact (hg.keeps_op_writers hr).2
      | error e => rfl
  · rw [State.machineAct_stopped hs]

theorem State.writerAt_eq_some {s : State} {k : AgentId} {w : Writer} :
    s.writerAt k = some w ↔ k ≠ 0 ∧ s.writers[k - 1]? = some w := by
  unfold State.writerAt
  split <;> simp_all

theorem State.writerAt_setWriter_ne {s : State} {j k : AgentId} {w v : Writer} (hj : s.writerAt j = some w)
    (hne : k ≠ j) : (s.setWriter j v).writerAt k = s.writerAt k := by
  obtain ⟨hj0, -⟩ := State.writerAt_eq_some.1 hj
  unfold State.writerAt
  split
  · rfl
  · rename_i hk0
    have hidx : j - 1 ≠ k - 1 := by
      intro h
      exact hne (Nat.pred_inj (Nat.pos_of_ne_zero hk0) (Nat.pos_of_ne_zero hj0) h.symm)
    exact List.getElem?_set_ne hidx

theorem State.writerAct_writerAt_ne (s : State) {j k : AgentId} (r : SinkReply) (hne : k ≠ j) :
    (s.writerAct j r).writerAt k = s.writerAt k := by
  unfold State.writerAct
  split
  · rfl
  · rename_i w hw
    split
    · obtain ⟨-, -, hwriters⟩ := w.act_change j r s
      have hw' : (w.act j r s).2.writerAt j = some w := by rw [State.writerAt_congr hwriters, hw]
      exact (State.writerAt_setWriter_ne hw' hne).trans (State.writerAt_congr hwriters k)
    · rfl

theorem State.writerHandOver_writerAt_ne (s : State) {j k : AgentId} (n : Nat) (hne : k ≠ j) :
    (s.writerHandOver j n).writerAt k = s.writerAt k := by
  unfold State.writerHandOver
  split
  · rfl
  · rename_i w hw
    split
    · exact State.writerAt_setWriter_ne hw hne
    · rfl

@[simp] theorem State.setWordAt_writers (s : State) (i : Nat) (v : Word) : (s.setWordAt i v).writers = s.writers := by
  unfold State.setWordAt; split <;> rfl

theorem State.portDo_writers (s : State) (a : AgentId) (op : PortOp) : (s.portDo a op).2.writers = s.writers := by
  have hlock : ∀ l op, (s.portLock a l op).2.writers = s.writers := by
    intro l op; unfold State.portLock; split <;> rfl
  unfold State.portDo
  split
  · rfl
  · cases op with
    | memRead i => dsimp only; unfold State.portRead; split <;> rfl
    | memWrite i v => dsimp only; unfold State.portWrite; split <;> simp
    | memCas i x n =>
      dsimp only
      unfold State.portCas
      split
      · rfl
      · dsimp only; split <;> simp
    | lockFor i => rfl
    | tryExcl l => exact hlock l _
    | relExcl l => exact hlock l _
    | acqShared l => exact hlock l _
    | relShared l => exact hlock l _
    | handoffWait l => exact hlock l _

/-- Settles O52: whose action it is decides whose own state it can touch. -/
theorem agentsKeepEachOthersPrivateState : Obligations.AgentsKeepEachOthersPrivateState := by
  refine ⟨fun s a => (s.envAct_change a).priv, State.machineAct_writers, fun s a k hact hover => ?_⟩
  cases a with
  | writer j r => exact s.writerAct_writerAt_ne r fun h => hact r (h ▸ rfl)
  | handOver j n => exact s.writerHandOver_writerAt_ne n fun h => hover n (h ▸ rfl)
  | port b op => exact State.writerAt_congr (s.portDo_writers b op) k

end Sys2Proof.Machine
end

