-- ==== Sys2Proof/Proofs/LocksAndData.lean ====
section
/-! Locks never reach data (spec/44_lock_handoff.md section 1, spec/70_reset_and_hazards.md section 3): with the default
parameters undisturbed twins stay twins, step by step. -/

namespace Sys2Proof.Machine

/-- Two undisturbed machines with the default parameters that differ in their lock cells alone. -/
structure AloneTwins (s t : State) : Prop where
  twin : Twin False s t
  left : s.alone
  right : t.alone

namespace AloneTwins

variable {s t : State}

theorem of_kept (h : Twin False s t) {u v : State} (hu : MachineKept u s) (hv : MachineKept v t) (hl : u.alone)
    (hr : v.alone) : AloneTwins s t := ⟨h, hu.env.trans hl, hv.env.trans hr⟩

theorem interfere (h : AloneTwins s t) : AloneTwins s.interfere t.interfere := by
  rwa [State.interfere_alone h.left, State.interfere_alone h.right]

theorem atPhase (h : AloneTwins s t) {op : Byte} {f : Flags} {c : Selector} {p : Phase}
    {g : State → Except Fault State} (hg : PhaseEffect op f (selectorAction c) p g) :
    AloneTwins (s.atPhase p g) (t.atPhase p g) := by
  by_cases hr : s.status = .running ∧ s.phase = p
  · have hk := hg.keepsLaunch (keepsLaunch_selectorAction c)
    rw [State.atPhase_run g hr.1 hr.2, State.atPhase_run g (h.twin.status.trans hr.1) (h.twin.phase.trans hr.2)]
    exact (of_kept (hg.keepsTwins.orFault h.twin) (hk.orFault s) (hk.orFault t) h.left h.right).interfere
  · have hr' : ¬(t.status = .running ∧ t.phase = p) := by rwa [h.twin.status, h.twin.phase]
    rwa [State.atPhase_skip g (not_and_or.1 hr), State.atPhase_skip g (not_and_or.1 hr')]

theorem runPhases (h : AloneTwins s t) (op : Byte) (f : Flags) (c : Selector) :
    AloneTwins (s.runPhases op f (selectorAction c)) (t.runPhases op f (selectorAction c)) :=
  State.runPhases_of_phases (P := fun F => ∀ {s t}, AloneTwins s t → AloneTwins (F s) (F t))
    (fun hF hG _ _ h => hG (hF h)) (fun hp _ _ h => h.atPhase hp) h

theorem exec {i : Instr} {u : State} (h : AloneTwins s t) (hu : exec i s = .next u) :
    ∃ v, Machine.exec i t = .next v ∧ AloneTwins u v := by
  rw [exec_eq] at hu
  cases hu
  exact ⟨_, exec_eq i t, h.runPhases _ _ _⟩

/-- Undisturbed twins take the same branch of `step` and stay twins. -/
theorem step {u : State} (h : AloneTwins s t) (hu : StepCase s u) : ∃ v, StepCase t v ∧ AloneTwins u v := by
  obtain ⟨htwin, hl, hr⟩ := h
  cases hu with
  | stopped hs => exact ⟨_, .stopped (htwin.status ▸ hs), interfere ⟨htwin, hl, hr⟩⟩
  | halts hs hp hf =>
    exact ⟨_, .halts (htwin.status.trans hs) (htwin.phase.trans hp) (htwin.fetchAtIp.trans hf),
      interfere ⟨htwin.map (fun u => { u with status := .halted }) (fun _ _ _ => rfl) rfl rfl, hl, hr⟩⟩
  | codeFault hs hp hf =>
    exact ⟨_, .codeFault (htwin.status.trans hs) (htwin.phase.trans hp) (htwin.fetchAtIp.trans hf),
      interfere ⟨htwin.takeFault _, hl, hr⟩⟩
  | fetches hs hp hf he =>
    obtain ⟨v, hv, htwins⟩ := exec ⟨htwin, hl, hr⟩ he
    exact ⟨v, .fetches (htwin.status.trans hs) (htwin.phase.trans hp) (htwin.fetchAtIp.trans hf) hv, htwins⟩
  | resumes hs hp he =>
    obtain ⟨v, hv, htwins⟩ := exec ⟨htwin, hl, hr⟩ he
    rw [← htwin.op] at hv
    exact ⟨v, .resumes (htwin.status.trans hs) (htwin.phase ▸ hp) hv, htwins⟩

theorem run (n : Nat) {s t : State} (h : AloneTwins s t) :
    ∃ u v, core.run n s = .next u ∧ core.run n t = .next v ∧ AloneTwins u v := by
  induction n generalizing s t with
  | zero => exact ⟨s, t, rfl, rfl, h⟩
  | succ n ih =>
    obtain ⟨s', hs'⟩ := exists_stepCase s
    obtain ⟨t', ht', h'⟩ := h.step hs'
    obtain ⟨u, v, hu, hv, huv⟩ := ih h'
    exact ⟨u, v, (coreRun_succ core n (step_of_case hs')).trans hu,
      (coreRun_succ core n (step_of_case ht')).trans hv, huv⟩

end AloneTwins

/-- Settles O51, by induction on the number of steps: undisturbed twins stay twins. -/
theorem lockStateNeverReachesData : Obligations.LockStateNeverReachesData := by
  intro n s cs halone hretry hrel hlength
  have htwin : Twin False s { s with cells := cs } := ⟨rfl, hlength, False.elim, .inr ⟨hretry, hrel⟩⟩
  obtain ⟨t, u, ht, hu, htu⟩ := AloneTwins.run n ⟨htwin, halone, halone⟩
  refine ⟨t, u.cells, ht, ?_⟩
  have henv : u.env = t.env := htu.right.trans htu.left.symm
  rw [hu, htu.twin.rest, henv]

end Sys2Proof.Machine
end

