-- ==== Sys2Proof/Proofs/GoodStates.lean ====
section
/-! The invariant (spec/10_state.md sections 2 to 8): every turn of any agent keeps a good state good, and a step is a
list of turns. -/

namespace Sys2Proof.Machine

/-! ## The parts of the invariant -/

/-- The parts of `State.good`, by name. -/
structure GoodState (s : State) : Prop where
  memory : s.memoryOk = true
  cells : s.cellsOk = true
  cause : s.causeOk = true
  halt : s.haltOk = true
  table : s.tableOk = true
  writers : s.writersOk = true
  positions : s.positionsOk = true
  step : s.stepOk = true

theorem State.good_iff (s : State) : s.good = true ↔ GoodState s := by
  simp only [State.good, Bool.and_eq_true]
  exact ⟨fun ⟨⟨⟨⟨⟨⟨⟨h1, h2⟩, h3⟩, h4⟩, h5⟩, h6⟩, h7⟩, h8⟩ => ⟨h1, h2, h3, h4, h5, h6, h7, h8⟩,
    fun ⟨h1, h2, h3, h4, h5, h6, h7, h8⟩ => ⟨⟨⟨⟨⟨⟨⟨h1, h2⟩, h3⟩, h4⟩, h5⟩, h6⟩, h7⟩, h8⟩⟩

theorem State.memoryOk_iff (s : State) :
    s.memoryOk = true ↔ s.data.wf = true ∧ ∀ c ∈ s.data, c.1 < 8 * s.dataLen := by
  simp [State.memoryOk]

theorem State.causeOk_iff (s : State) : s.causeOk = true ↔ (s.cause = .bfNone ↔ s.status ≠ .faulted) := by
  unfold State.causeOk
  rw [beq_iff_eq, Bool.eq_iff_iff, beq_iff_eq, bne_iff_ne]

theorem State.haltOk_iff (s : State) :
    s.haltOk = true ↔ (s.status = .halted → s.phase = .fetch ∧ s.ip.toInt = s.code.length) := by
  unfold State.haltOk
  rw [Bool.or_eq_true, Bool.and_eq_true, bne_iff_ne, beq_iff_eq, decide_eq_true_iff, ne_eq, Decidable.imp_iff_not_or]

theorem State.positionsOk_iff (s : State) :
    s.positionsOk = true ↔ ∀ w ∈ s.writers, w.posOk s.params.blockWords = true := List.all_eq_true

/-- What R100 and R151 ask of a state whose next phase is this one, under the latched opcode. -/
def State.phaseFits (s : State) : Phase → Prop
  | .mwait => (decodeByte s.op).flags.mutexWait = true
  | .eload => (decodeByte s.op).flags.extend = true
  | .exec => s.inData s.dp
  | .xhandoff => (decodeByte s.op).selector = .value ∧ s.atBlockStart s.dp = true
  | .fetch | .loadSrc | .loadDst => True

theorem State.index?_isSome_iff (s : State) (c : Word) : (index? s.dataLen c).isSome = true ↔ s.inData c := by
  unfold index?
  split
  · rename_i h; exact iff_of_true rfl h
  · rename_i h; exact iff_of_false (by simp) h

theorem State.stepOk_iff (s : State) :
    s.stepOk = true ↔ (s.phase ≠ .fetch → s.fetchAtIp = .opcode s.op) ∧ s.phaseFits s.phase := by
  unfold State.stepOk
  cases hp : s.phase <;> simp [State.phaseFits, State.index?_isSome_iff, and_assoc]

/-! ## Everything one action of the machine can do -/

/-- The cases of the machine's action (R100): it takes none, halts, faults, or performs its phase. -/
inductive MachineCase (s : State) : State → Prop
  | stopped (hs : s.status ≠ .running) : MachineCase s s
  | halts (hr : s.ready) (hf : s.fetchAtIp = .halt) : MachineCase s { s with status := .halted }
  | faults (e : Fault) : MachineCase s (s.takeFault e)
  | latches {b : Byte} (hr : s.ready) (hf : s.fetchAtIp = .opcode b) : MachineCase s (s.latch b (decodeByte b).flags)
  | waits (hs : s.status = .running) (hp : s.phase = .mwait) (l : LockId) (c : LockCell) : MachineCase s (s.setCell l c)
  | leavesMwait (hs : s.status = .running) (hp : s.phase = .mwait) (l : LockId) (c : LockCell) :
      MachineCase s { s.setCell l c with phase := phaseAfterMwait (decodeByte s.op).flags }
  | eload (hs : s.status = .running) (hp : s.phase = .eload) :
      MachineCase s { s with mag := s.wordOf s.sp, sp := s.sp - 1, phase := .loadSrc }
  | loadSrc (hs : s.status = .running) (hp : s.phase = .loadSrc) :
      MachineCase s { s with src := s.wordOf s.sp, phase := .loadDst }
  | loadDst (hs : s.status = .running) (hp : s.phase = .loadDst) (hd : s.inData s.dp) :
      MachineCase s { s with dst := s.wordOf s.dp, phase := .exec }
  | exec (hs : s.status = .running) (hp : s.phase = .exec) {t : State}
      (h : ExecuteCase (decodeByte s.op).flags s (decodeByte s.op).selector t) : MachineCase s t
  | xhandoff (hs : s.status = .running) (hp : s.phase = .xhandoff) : MachineCase s s.crossBlockHandoff.advance

theorem State.inData_of_loadDst_ok {s t : State} (h : s.loadDst = .ok t) : s.inData s.dp := by
  by_contra hd
  rw [State.loadDst_error hd] at h
  cases h

theorem State.machineAct_fetch_case {s : State} (hr : s.ready) : MachineCase s s.machineAct := by
  rw [State.machineAct_fetch hr]
  cases hf : s.fetchAtIp with
  | halt => rw [State.fetchAct_of_halt hf]; exact .halts hr hf
  | outOfRange => rw [State.fetchAct_of_outOfRange hf]; exact .faults _
  | opcode b => rw [State.fetchAct_of_opcode hf]; exact .latches hr hf

theorem State.machineAct_cases (s : State) : MachineCase s s.machineAct := by
  by_cases hs : s.status = .running
  · by_cases hp : s.phase = .fetch
    · exact State.machineAct_fetch_case ⟨hs, hp⟩
    · obtain ⟨g, hg⟩ := exists_phaseEffect s.op (decodeByte s.op).flags (selectorAction (decodeByte s.op).selector)
        s.phase
      rw [State.machineAct_of_phase hg hs rfl hp]
      cases hr : g s with
      | error e => exact .faults e
      | ok t =>
        rw [State.orFault_ok]
        generalize hq : s.phase = q at hg hp
        cases hg with
        | fetch => exact absurd rfl hp
        | mwait =>
          obtain ⟨l, c, rfl | rfl⟩ := State.mwait_ok_cases hr
          · exact .waits hs hq l c
          · exact .leavesMwait hs hq l c
        | eload => rw [State.eq_of_eload_ok hr]; exact .eload hs hq
        | loadSrc => rw [State.eq_of_loadSrc_ok hr]; exact .loadSrc hs hq
        | loadDst => rw [State.eq_of_loadDst_ok hr]; exact .loadDst hs hq (State.inData_of_loadDst_ok hr)
        | exec => exact .exec hs hq (State.execute_cases hr)
        | xhandoff => cases hr; exact .xhandoff hs hq
  · rw [State.machineAct_stopped hs]
    exact .stopped hs

/-! ## Memory -/

/-- The data array after an action: as before, or with one Word of it stored. -/
def DataChange (s t : State) : Prop :=
  t.data = s.data ∨ ∃ i v, i < s.dataLen ∧ t.data = s.data.writeWord i v

theorem DataChange.setWordAt (s : State) (i : Nat) (v : Word) : DataChange s (s.setWordAt i v) := by
  by_cases hi : i < s.dataLen
  · exact .inr ⟨i, v, hi, by rw [State.setWordAt_data, if_pos hi]⟩
  · exact .inl (by rw [State.setWordAt_data, if_neg hi])

theorem State.toNat_lt_of_inData {s : State} {c : Word} (h : s.inData c) : c.toNat < s.dataLen :=
  index?_lt (index?_some h)

@[simp] theorem State.afterStore_data (s : State) : s.afterStore.data = s.data := by
  unfold State.afterStore; split <;> rfl

@[simp] theorem State.crossBlockHandoff_data (s : State) : s.crossBlockHandoff.data = s.data := by
  rcases s.crossBlockHandoff_cases with h | ⟨l, c, -, -, -, -, -, -, h⟩ <;> rw [h]
  rfl

theorem ExecuteCase.data {f : Flags} {s t : State} {c : Selector} (h : ExecuteCase f s c t) : DataChange s t := by
  cases h with
  | ineligible | src | dst | code => exact .inl rfl
  | value _ hd => exact .inr ⟨_, _, State.toNat_lt_of_inData hd, by simp; rfl⟩

theorem MachineCase.data {s t : State} (h : MachineCase s t) : DataChange s t := by
  cases h with
  | exec _ _ h => exact h.data
  | xhandoff => exact .inl (by simp)
  | stopped | halts | faults | latches | waits | leavesMwait | eload | loadSrc | loadDst => exact .inl rfl

theorem State.writerAct_data (s : State) (k : AgentId) (r : SinkReply) : DataChange s (s.writerAct k r) := by
  unfold State.writerAct
  split
  · exact .inl rfl
  · rename_i w _
    split
    · rcases w.act_data k r s with h | ⟨i, hi, h, -⟩
      · exact .inl h
      · exact .inr ⟨i, 0, hi, h⟩
    · exact .inl rfl

theorem State.writerHandOver_data (s : State) (k : AgentId) (n : Nat) : (s.writerHandOver k n).data = s.data := by
  unfold State.writerHandOver
  split
  · rfl
  · split <;> rfl

theorem State.portDo_data (s : State) (a : AgentId) (op : PortOp) : DataChange s (s.portDo a op).2 := by
  have hlock : ∀ l op, DataChange s (s.portLock a l op).2 := by
    intro l op; unfold State.portLock; split <;> exact .inl rfl
  unfold State.portDo
  split
  · exact .inl rfl
  · cases op with
    | memRead i => dsimp only; unfold State.portRead; split <;> exact .inl rfl
    | memWrite i v =>
      dsimp only
      unfold State.portWrite
      split
      · exact .inl rfl
      · exact .setWordAt s _ v
    | memCas i x n =>
      dsimp only
      unfold State.portCas
      split
      · exact .inl rfl
      · dsimp only
        split
        · exact .setWordAt s _ n
        · exact .inl rfl
    | lockFor i => exact .inl rfl
    | tryExcl l => exact hlock l _
    | relExcl l => exact hlock l _
    | acqShared l => exact hlock l _
    | relShared l => exact hlock l _
    | handoffWait l => exact hlock l _

/-- One turn of any agent stores at most one Word (R51, R61). -/
theorem State.turn_data (s : State) (m : Turn) : DataChange s (s.turn m) := by
  cases m with
  | machine => exact s.machineAct_cases.data
  | other e =>
    cases e with
    | writer k r => exact s.writerAct_data k r
    | handOver k n => exact .inl (s.writerHandOver_data k n)
    | port a op => exact s.portDo_data a op

theorem DataChange.memoryOk {s t : State} (h : DataChange s t) (hlen : t.dataLen = s.dataLen)
    (hs : s.memoryOk = true) : t.memoryOk = true := by
  rw [State.memoryOk_iff] at hs ⊢
  rw [hlen]
  obtain ⟨hwf, hbound⟩ := hs
  rcases h with h | ⟨i, v, hi, h⟩
  · rw [h]; exact ⟨hwf, hbound⟩
  · rw [h]; exact ⟨Memory.wf_writeWord hwf i v, Memory.bounded_writeWord hbound hi v⟩

/-! ## Lock cells -/

theorem CellTurn.cellOk {s : State} {m : Turn} {l : LockId} {c c' : LockCell} (h : CellTurn s l c m c')
    (hc : cellOk c) : cellOk c' := by
  cases h with
  | kept => exact hc
  | handoff _ hw => exact cellOk_handoffWait hc hw
  | crossBlock => exact .inl rfl
  | tryExcl => exact cellOk_portOp hc .noop _ (.tryExcl l)
  | relExcl _ hr =>
    rcases LockCell.relExcl_ok hr with ⟨-, rfl⟩ | ⟨-, -, rfl⟩
    · exact .inl rfl
    · exact hc
  | acqShared hr => obtain ⟨hfree, rfl⟩ := LockCell.acqShared_some hr; exact .inl hfree
  | relShared hr =>
    obtain ⟨hpos, rfl⟩ := LockCell.relShared_some hr
    exact .inl (hc.resolve_right (Nat.ne_of_gt hpos))

theorem State.turn_cellsOk {s : State} (h : s.cellsOk = true) (m : Turn) : (s.turn m).cellsOk = true := by
  rw [cellsOk_iff] at h ⊢
  intro c' hc'
  obtain ⟨l, hl⟩ := List.mem_iff_getElem?.1 hc'
  obtain ⟨-, -, -, -, hlength, -⟩ := s.turn_sameLaunch m
  have hlt : l < s.cells.length := hlength ▸ (List.getElem?_eq_some_iff.1 hl).1
  exact (State.turn_cell (List.getElem?_eq_getElem hlt) hl).cellOk (h _ (List.getElem_mem hlt))

/-! ## `status` and `cause` -/

@[simp] theorem State.afterStore_status (s : State) : s.afterStore.status = s.status := by
  unfold State.afterStore; split <;> rfl

@[simp] theorem State.afterStore_cause (s : State) : s.afterStore.cause = s.cause := by
  unfold State.afterStore; split <;> rfl

@[simp] theorem State.crossBlockHandoff_status (s : State) : s.crossBlockHandoff.status = s.status :=
  (keepsStatus_xhandoff (s := s) rfl).1

@[simp] theorem State.crossBlockHandoff_cause (s : State) : s.crossBlockHandoff.cause = s.cause :=
  (keepsStatus_xhandoff (s := s) rfl).2

theorem ExecuteCase.sameStatus {f : Flags} {s t : State} {c : Selector} (h : ExecuteCase f s c t) :
    s.sameStatus t := by
  cases h with
  | ineligible | src | dst | code => exact ⟨rfl, rfl⟩
  | value => exact ⟨by simp, by simp⟩

/-- The machine's action keeps `status` and `cause`, faults with a cause, or is the normal halt. -/
theorem MachineCase.statusCases {s t : State} (h : MachineCase s t) :
    s.keptOrFaulted t ∨ (s.ready ∧ s.fetchAtIp = .halt ∧ t = { s with status := .halted }) := by
  cases h with
  | halts hr hf => exact .inr ⟨hr, hf, rfl⟩
  | faults e => exact .inl (.inr ⟨rfl, e.toCause_ne_bfNone⟩)
  | exec _ _ h => exact .inl (.inl h.sameStatus)
  | xhandoff => exact .inl (.inl ⟨by simp, by simp⟩)
  | stopped | latches | waits | leavesMwait | eload | loadSrc | loadDst => exact .inl (.inl ⟨rfl, rfl⟩)

theorem MachineCase.causeOk {s t : State} (h : MachineCase s t) (hs : s.causeOk = true) : t.causeOk = true := by
  rw [State.causeOk_iff] at hs ⊢
  rcases h.statusCases with (⟨hstatus, hcause⟩ | ⟨hstatus, hcause⟩) | ⟨⟨hrun, -⟩, -, rfl⟩
  · rw [hstatus, hcause]; exact hs
  · simp [hstatus, hcause]
  · simpa [hrun] using hs

theorem MachineCase.haltOk {s t : State} (h : MachineCase s t) (hs : s.haltOk = true) : t.haltOk = true := by
  rw [State.haltOk_iff] at hs ⊢
  intro hhalted
  rcases h.statusCases with (⟨hstatus, -⟩ | ⟨hstatus, -⟩) | ⟨⟨-, hphase⟩, hf, rfl⟩
  · have hne : s.status ≠ .running := by rw [← hstatus, hhalted]; decide
    have hkept : t = s := by
      cases h with
      | stopped => rfl
      | faults => cases hhalted
      | halts hr | latches hr => exact absurd hr.1 hne
      | waits hr | leavesMwait hr | eload hr | loadSrc hr | loadDst hr | exec hr | xhandoff hr => exact absurd hr hne
    rw [hkept] at hhalted ⊢
    exact hs hhalted
  · rw [hstatus] at hhalted; cases hhalted
  · exact ⟨hphase, s.fetchAtIp_eq_halt_iff.1 hf⟩

/-! ## Inside a step -/

/-- Where a phase comes next that asks nothing of `dp`, the invariant of a step is the latched opcode at `ip` and the
phase one that its flags ask for. -/
theorem State.stepOk_of_phaseAsked {s : State} (hf : s.fetchAtIp = .opcode s.op)
    (hp : phaseAsked (decodeByte s.op).flags s.phase) (hne : s.phase ≠ .exec) : s.stepOk = true := by
  rw [State.stepOk_iff]
  refine ⟨fun _ => hf, ?_⟩
  cases hq : s.phase with
  | mwait | eload => rw [hq] at hp; exact hp
  | loadSrc | loadDst | fetch => trivial
  | exec => exact absurd hq hne
  | xhandoff => rw [hq] at hp; exact hp.elim

theorem State.stepOk_of_fetch {s : State} (hp : s.phase = .fetch) : s.stepOk = true := by
  rw [State.stepOk_iff, hp]
  exact ⟨fun h => absurd rfl h, trivial⟩

theorem phaseAfterMwait_ne_exec (f : Flags) : phaseAfterMwait f ≠ .exec := by
  unfold phaseAfterMwait; split <;> decide

theorem phaseAfterFetch_ne_exec (f : Flags) : phaseAfterFetch f ≠ .exec := by
  unfold phaseAfterFetch
  split
  · decide
  · exact phaseAfterMwait_ne_exec f

theorem State.stepOk_afterStore {s : State} (hf : s.fetchAtIp = .opcode s.op)
    (hv : (decodeByte s.op).selector = .value) : s.afterStore.stepOk = true := by
  unfold State.afterStore
  split
  · rename_i hb
    exact (State.stepOk_iff _).2 ⟨fun _ => hf, hv, hb⟩
  · exact State.stepOk_of_fetch rfl

theorem ExecuteCase.stepOk {f : Flags} {s t : State} (h : ExecuteCase f s (decodeByte s.op).selector t)
    (hf : s.fetchAtIp = .opcode s.op) : t.stepOk = true := by
  generalize hc : (decodeByte s.op).selector = c at h
  cases h with
  | ineligible | src | dst | code => exact State.stepOk_of_fetch rfl
  | value => exact State.stepOk_afterStore hf hc

theorem MachineCase.stepOk {s t : State} (h : MachineCase s t) (hs : s.stepOk = true) : t.stepOk = true := by
  obtain ⟨hf, hfits⟩ := (State.stepOk_iff s).1 hs
  cases h with
  | stopped | halts | faults | waits => exact hs
  | latches _ hb => exact State.stepOk_of_phaseAsked hb (phaseAsked_phaseAfterFetch _) (phaseAfterFetch_ne_exec _)
  | leavesMwait _ hp =>
    exact State.stepOk_of_phaseAsked (hf (by simp [hp])) (phaseAsked_phaseAfterMwait _) (phaseAfterMwait_ne_exec _)
  | eload _ hp | loadSrc _ hp => exact State.stepOk_of_phaseAsked (hf (by simp [hp])) trivial nofun
  | loadDst _ hp hd => exact (State.stepOk_iff _).2 ⟨fun _ => hf (by simp [hp]), hd⟩
  | exec _ hp h => exact h.stepOk (hf (by simp [hp]))
  | xhandoff => exact State.stepOk_of_fetch rfl

/-! ## Where the writers are -/

/-- Block `b` belongs to the writer's latched range (R196). -/
def Writer.coversBlock (w : Writer) (bw b : Nat) : Prop :=
  w.rangeOk = true ∧ w.len ≠ 0 ∧ w.first / bw ≤ b ∧ b ≤ w.last / bw

theorem Writer.posOk_readOff {w : Writer} (bw : Nat) (hp : w.pos = .readOff) :
    w.posOk bw = true ↔ 2 * w.pair + 2 < w.cfg.ctrlLen := by
  simp [Writer.posOk, hp]

theorem Writer.posOk_acquire {w : Writer} {bw b : Nat} (hp : w.pos = .acquire b) :
    w.posOk bw = true ↔ w.coversBlock bw b := by
  simp [Writer.posOk, hp, Writer.coversBlock, and_assoc]

theorem Writer.posOk_release {w : Writer} {bw b : Nat} (hp : w.pos = .release b) :
    w.posOk bw = true ↔ w.coversBlock bw b := by
  simp [Writer.posOk, hp, Writer.coversBlock, and_assoc]

theorem Writer.posOk_copy {w : Writer} {bw b a : Nat} (hp : w.pos = .copy b a) :
    w.posOk bw = true ↔ w.coversBlock bw b ∧ max w.first (b * bw) ≤ a ∧ a ≤ min w.last ((b + 1) * bw - 1) := by
  simp only [Writer.posOk, hp, Writer.coversBlock, Bool.and_eq_true, bne_iff_ne, decide_eq_true_eq, and_assoc]

theorem Writer.posOk_zero {w : Writer} {bw i : Nat} (hp : w.pos = .zero i) :
    w.posOk bw = true ↔ i < w.cfg.ctrlLen := by
  simp [Writer.posOk, hp]

theorem Writer.posOk_toPair (w : Writer) (bw j : Nat) : (w.toPair j).posOk bw = true := by
  by_cases hj : 2 * j + 2 < w.cfg.ctrlLen <;> simp [Writer.posOk, Writer.toPair, hj]

/-- A range of a length that is not 0 ends no earlier than it begins. -/
theorem Writer.first_le_last {w : Writer} (h : w.len ≠ 0) : w.first ≤ w.last := by
  have hpos : w.len.toNat ≠ 0 := fun h0 => h (BitVec.eq_of_toNat_eq h0)
  unfold Writer.first Writer.last
  omega

/-- The part of the range in a block of the range is not empty. -/
theorem Writer.copy_start_le {w : Writer} {bw b : Nat} (hbw : 0 < bw) (h : w.coversBlock bw b) :
    max w.first (b * bw) ≤ min w.last ((b + 1) * bw - 1) := by
  obtain ⟨-, hlen, hfirst, hlast⟩ := h
  have hle := Writer.first_le_last hlen
  have hblock : b * bw ≤ w.last := (Nat.le_div_iff_mul_le hbw).1 hlast
  have hnext : w.first < (b + 1) * bw := (Nat.div_lt_iff_lt_mul hbw).1 (Nat.lt_succ_of_le hfirst)
  have hmul : (b + 1) * bw = b * bw + bw := Nat.succ_mul b bw
  omega

theorem State.blockWords_pos (s : State) : 0 < s.params.blockWords := Nat.two_pow_pos _

theorem Writer.posOk_toBlock {w : Writer} {s : State} {b : Nat} (hfail : w.posOk s.params.blockWords = true)
    (h : w.coversBlock s.params.blockWords b) : (w.toBlock s b).posOk s.params.blockWords = true := by
  unfold Writer.toBlock
  split
  · exact hfail
  · exact (Writer.posOk_acquire rfl).2 h

/-- Every action of a writer leaves it where its protocol can put it (R193 to R199). -/
theorem Writer.act_posOk (k : AgentId) {w : Writer} (r : SinkReply) {s : State} (hc : 1 ≤ w.cfg.ctrlLen)
    (h : w.posOk s.params.blockWords = true) : (w.act k r s).1.posOk s.params.blockWords = true := by
  have hbw := s.blockWords_pos
  unfold Writer.act
  split
  · unfold Writer.doHandoff
    split
    · exact h
    · split
      · exact h
      · rfl
  · unfold Writer.doTestClear
    split
    · exact h
    · split
      · exact w.posOk_toPair _ 0
      · rfl
  · rename_i hp
    unfold Writer.doReadOff
    split
    · exact h
    · exact decide_eq_true ((Writer.posOk_readOff _ hp).1 h)
  · rename_i hp
    unfold Writer.doReadLen
    have hread : ∀ v, ({ w with len := v } : Writer).posOk s.params.blockWords = true := fun v => by
      simpa [Writer.posOk, hp] using h
    split
    · exact h
    · rename_i v _
      dsimp only
      split
      · rfl
      · rename_i hv
        split
        · rename_i hrange
          have hle := Nat.div_le_div_right (c := s.params.blockWords)
            (Writer.first_le_last (w := { w with len := v }) hv)
          exact Writer.posOk_toBlock (hread v) ⟨hrange, hv, le_rfl, hle⟩
        · exact hread v
  · rename_i b hp
    have hcovers := (Writer.posOk_acquire hp).1 h
    unfold Writer.doAcquire
    split
    · exact h
    · split
      · exact h
      · split
        · exact h
        · exact (Writer.posOk_copy rfl).2 ⟨hcovers, le_rfl, Writer.copy_start_le hbw hcovers⟩
  · rename_i b a hp
    obtain ⟨hcovers, hlow, hhigh⟩ := (Writer.posOk_copy hp).1 h
    unfold Writer.doCopy
    split
    · exact h
    · dsimp only
      split
      · rename_i hlt
        exact (Writer.posOk_copy rfl).2 ⟨hcovers, Nat.le_succ_of_le hlow, hlt⟩
      · exact (Writer.posOk_release rfl).2 hcovers
  · rename_i b hp
    have hcovers := (Writer.posOk_release hp).1 h
    unfold Writer.doRelease
    split
    · exact h
    · split
      · exact h
      · split
        · exact h
        · dsimp only
          split
          · rename_i hlt
            obtain ⟨hrange, hlen, hfirst, -⟩ := hcovers
            exact Writer.posOk_toBlock h ⟨hrange, hlen, Nat.le_succ_of_le hfirst, hlt⟩
          · exact w.posOk_toPair _ _
  · rename_i hp
    cases r with
    | accepted => exact (Writer.posOk_zero rfl).2 hc
    | failedAfter n => simp [Writer.posOk, Writer.doFlush, hp]
  · unfold Writer.doZero
    dsimp only
    split
    · rename_i hi; exact (Writer.posOk_zero rfl).2 hi
    · rfl

theorem State.positionsOk_setWriter {s t : State} {k : AgentId} {w : Writer} (h : s.positionsOk = true)
    (hparams : t.params = s.params) (hwriters : t.writers = s.writers)
    (hw : w.posOk s.params.blockWords = true) : (t.setWriter k w).positionsOk = true := by
  rw [State.positionsOk_iff] at h ⊢
  rw [State.setWriter_params, State.setWriter_writers, hparams, hwriters]
  intro v hv
  rcases List.mem_or_eq_of_mem_set hv with hv | rfl
  · exact h v hv
  · exact hw

theorem State.mem_of_writerAt {s : State} {k : AgentId} {w : Writer} (h : s.writerAt k = some w) : w ∈ s.writers :=
  List.mem_of_getElem? (State.writerAt_eq_some.1 h).2

theorem State.cfg_ok_of_writersOk {s : State} (h : s.writersOk = true) {w : Writer} (hw : w ∈ s.writers) :
    w.cfg.lock < s.cells.length ∧ 1 ≤ w.cfg.ctrlLen ∧ w.cfg.ctrlBase + w.cfg.ctrlLen ≤ s.dataLen ∧
      w.cfg.payBase + w.cfg.payLen ≤ s.dataLen := by
  simp only [State.writersOk, Bool.and_eq_true, List.all_eq_true, List.mem_map] at h
  exact of_decide_eq_true (h.1 w.cfg ⟨w, hw, rfl⟩)

theorem State.writerAct_positionsOk {s : State} (hcfg : s.writersOk = true) (h : s.positionsOk = true) (k : AgentId)
    (r : SinkReply) : (s.writerAct k r).positionsOk = true := by
  unfold State.writerAct
  split
  · exact h
  · rename_i w hw
    split
    · have hmem := State.mem_of_writerAt hw
      obtain ⟨-, hlen, -⟩ := State.cfg_ok_of_writersOk hcfg hmem
      obtain ⟨-, ⟨-, ⟨-, -, -, hparams, -⟩, -⟩, hwriters⟩ := w.act_change k r s
      exact State.positionsOk_setWriter h hparams hwriters (Writer.act_posOk k r hlen (s.positionsOk_iff.1 h w hmem))
    · exact h

theorem State.writerHandOver_positionsOk {s : State} (h : s.positionsOk = true) (k : AgentId) (n : Nat) :
    (s.writerHandOver k n).positionsOk = true := by
  unfold State.writerHandOver
  split
  · exact h
  · rename_i w hw
    split
    · exact State.positionsOk_setWriter h rfl rfl (s.positionsOk_iff.1 h w (State.mem_of_writerAt hw))
    · exact h

theorem State.positionsOk_congr {s t : State} (hparams : t.params = s.params) (hwriters : t.writers = s.writers) :
    t.positionsOk = s.positionsOk := by
  rw [State.positionsOk, State.positionsOk, hparams, hwriters]

theorem State.turn_positionsOk {s : State} (hcfg : s.writersOk = true) (h : s.positionsOk = true) (m : Turn) :
    (s.turn m).positionsOk = true := by
  obtain ⟨-, -, -, hparams, -⟩ := s.turn_sameLaunch m
  cases m with
  | machine => rwa [State.positionsOk_congr hparams s.machineAct_writers]
  | other e =>
    cases e with
    | writer k r => exact State.writerAct_positionsOk hcfg h k r
    | handOver k n => exact State.writerHandOver_positionsOk h k n
    | port a op => rwa [State.positionsOk_congr hparams (s.portDo_writers a op)]

/-! ## The invariant, turn by turn -/

theorem State.tableOk_congr {s t : State} (h : s.sameLaunch t) : t.tableOk = s.tableOk := by
  obtain ⟨hcode, hlen, htable, hparams, hcells, -⟩ := h
  simp only [State.tableOk, hcode, hlen, htable, hparams, hcells]

theorem State.writersOk_congr {s t : State} (h : s.sameLaunch t) : t.writersOk = s.writersOk := by
  obtain ⟨-, hlen, -, -, hcells, hcfg⟩ := h
  simp only [State.writersOk, hlen, hcells, hcfg]

theorem State.causeOk_congr {s t : State} (h : s.samePrivate t) : t.causeOk = s.causeOk := by
  obtain ⟨-, -, -, hstatus, hcause, -⟩ := h
  simp only [State.causeOk, hstatus, hcause]

theorem State.haltOk_congr {s t : State} (h : s.samePrivate t) (hl : s.sameLaunch t) : t.haltOk = s.haltOk := by
  obtain ⟨hip, -, -, hstatus, -, -, -, -, -, hphase⟩ := h
  simp only [State.haltOk, hip, hstatus, hphase, hl.1]

theorem State.fetchAtIp_congr {s t : State} (hip : t.ip = s.ip) (hcode : t.code = s.code) :
    t.fetchAtIp = s.fetchAtIp := by
  simp only [State.fetchAtIp, hip, hcode]

theorem State.stepOk_congr {s t : State} (h : s.samePrivate t) (hl : s.sameLaunch t) : t.stepOk = s.stepOk := by
  obtain ⟨hip, -, hdp, -, -, hop, -, -, -, hphase⟩ := h
  obtain ⟨hcode, hlen, -, hparams, -⟩ := hl
  simp only [State.stepOk, State.fetchAtIp_congr hip hcode, State.atBlockStart, hdp, hop, hphase, hlen, hparams]

theorem GoodState.turn {s : State} (h : GoodState s) (m : Turn) : GoodState (s.turn m) := by
  have hl := s.turn_sameLaunch m
  have hmachine : s.turn m = s.machineAct ∨ s.samePrivate (s.turn m) := by
    cases m with
    | machine => exact .inl rfl
    | other e => exact .inr (s.envAct_change e).priv
  have hprivate : (s.turn m).causeOk = true ∧ (s.turn m).haltOk = true ∧ (s.turn m).stepOk = true := by
    rcases hmachine with hm | hp
    · rw [hm]
      have hcase := s.machineAct_cases
      exact ⟨hcase.causeOk h.cause, hcase.haltOk h.halt, hcase.stepOk h.step⟩
    · rw [State.causeOk_congr hp, State.haltOk_congr hp hl, State.stepOk_congr hp hl]
      exact ⟨h.cause, h.halt, h.step⟩
  obtain ⟨hcause, hhalt, hstep⟩ := hprivate
  exact {
    memory := (s.turn_data m).memoryOk hl.2.1 h.memory
    cells := State.turn_cellsOk h.cells m
    cause := hcause
    halt := hhalt
    table := (State.tableOk_congr hl).trans h.table
    writers := (State.writersOk_congr hl).trans h.writers
    positions := State.turn_positionsOk h.writers h.positions m
    step := hstep }

theorem GoodState.turns {s : State} (h : GoodState s) (ms : List Turn) : GoodState (s.turns ms) := by
  induction ms generalizing s with
  | nil => exact h
  | cons m ms ih => exact ih (h.turn m)

/-- The invariant does not see `env`. -/
theorem State.good_noEnv (s : State) : s.noEnv.good = s.good := rfl

/-- Settles O41: a step is a list of turns, and each turn keeps the invariant. -/
theorem goodIsInvariant : Obligations.GoodIsInvariant := by
  intro s t hs h
  obtain ⟨n, -, -, -, hturns⟩ := step_turnsTaken h
  rw [← State.good_noEnv, State.good_iff] at hs ⊢
  rw [hturns]
  exact hs.turns _

/-- Settles O42: State.reset is a fixed state with no code, no data and no writer. -/
theorem resetIsGood : Obligations.ResetIsGood := by
  unfold Obligations.ResetIsGood
  decide

/-! ## The data Words a writer stores -/

/-- A writer's next store is a control Word of its own (R192, R199). -/
theorem Writer.act_data_control {k : AgentId} {w : Writer} {r : SinkReply} {s : State} (hc : 1 ≤ w.cfg.ctrlLen)
    (h : w.posOk s.params.blockWords = true) :
    (w.act k r s).2.data = s.data ∨ ∃ i, w.cfg.ctrlBase ≤ i ∧ i < w.cfg.ctrlBase + w.cfg.ctrlLen ∧
      (w.act k r s).2.data = s.data.writeWord i 0 := by
  rcases w.act_data k r s with hx | ⟨i, -, hx, ⟨-, hi⟩ | ⟨j, hp, hi⟩⟩
  · exact .inl hx
  · rw [flagIndex] at hi
    exact .inr ⟨i, by omega, by omega, hx⟩
  · have hj := (Writer.posOk_zero hp).1 h
    exact .inr ⟨i, by omega, by omega, hx⟩

/-- Settles O59: where a good writer is decides which Word it can store. -/
theorem writerStoresOnlyInControl : Obligations.WriterStoresOnlyInControl := by
  intro s k w r hs hw i
  have hgood := s.good_iff.1 hs
  obtain ⟨hwf, -⟩ := s.memoryOk_iff.1 hgood.memory
  have hmem := State.mem_of_writerAt hw
  obtain ⟨-, hlen, -⟩ := State.cfg_ok_of_writersOk hgood.writers hmem
  by_cases hrun : w.status = .running
  · rw [State.writerAct_running r hw hrun, State.setWriter_data]
    rcases Writer.act_data_control (k := k) (r := r) hlen (s.positionsOk_iff.1 hgood.positions w hmem) with
      hx | ⟨j, hlow, hhigh, hx⟩
    · exact .inl (by rw [hx])
    · rw [hx, Memory.readWord_writeWord hwf]
      by_cases hij : i = j
      · rw [if_pos hij, hij]; exact .inr ⟨rfl, hlow, hhigh⟩
      · exact .inl (if_neg hij)
  · exact .inl (by simp [State.writerAct, hw, hrun])

end Sys2Proof.Machine
end

