-- ==== Sys2Proof/Proofs/AloneStep.lean ====
section
/-! The whole next state of an instruction that no other agent disturbs (spec/40_step_common.md, spec/41_src_dst.md,
spec/42_code.md, spec/43_value.md): it faults or waits at MWAIT, faults at a load, or completes. -/

namespace Sys2Proof.Machine

/-! ## MWAIT -/

@[simp] theorem State.latch_lockFor (s : State) (op : Byte) (f : Flags) (i : Word) :
    (s.latch op f).lockFor i = s.lockFor i := State.lockFor_congr rfl rfl i

theorem State.machineHandoff_latch_error {s : State} {i : Word} {e : Fault} (op : Byte) (f : Flags)
    (h : s.machineHandoff i = .error e) : (s.latch op f).machineHandoff i = .error e := by
  cases hl : s.lockFor i with
  | none =>
    rw [State.machineHandoff_of_no_lock hl] at h
    rw [State.machineHandoff_of_no_lock (by simpa using hl), h]
  | some l =>
    have hl' : (s.latch op f).lockFor i = some l := by simpa using hl
    cases hc : s.cells[l]? with
    | none =>
      rw [State.machineHandoff_of_no_cell hl hc] at h
      rw [State.machineHandoff_of_no_cell hl' hc, h]
    | some c =>
      cases hw : c.handoffWait s.params.relFree machineId with
      | error e' =>
        rw [State.machineHandoff_of_error hl hc hw] at h
        rw [State.machineHandoff_of_error hl' hc hw, h]
      | ok r =>
        obtain ⟨got, c'⟩ := r
        rw [State.machineHandoff_eq hl hc hw] at h
        cases h

/-- An undisturbed step whose MWAIT faults (R104). -/
theorem exec_of_mwait_fault {i : Instr} {s : State} {e : Fault} (hs : s.ready) (halone : s.alone)
    (hm : i.flags.mutexWait = true) (hh : s.machineHandoff s.dp = .error e) :
    exec i s = .next ((s.latch (encodeByte i) i.flags).takeFault e) := by
  have hfetch : s.atPhase .fetch (fun t => .ok (t.latch (encodeByte i) i.flags)) = s.latch (encodeByte i) i.flags :=
    State.atPhase_ok hs.1 hs.2 rfl halone
  have hmwait : (s.latch (encodeByte i) i.flags).atPhase .mwait (State.mwait i.flags) =
      (s.latch (encodeByte i) i.flags).takeFault e :=
    State.atPhase_fault hs.1 (by simp [phaseAfterFetch, hm])
      (State.mwait_of_fault (State.machineHandoff_latch_error _ _ hh)) halone
  rw [exec_eq, State.runPhases, hfetch, hmwait]
  iterate 5 rw [State.atPhase_skip (s := State.takeFault _ _) _ (.inl (by simp))]

/-! ## The loads -/

/-- Up to ELOAD (R105): the magnitude is loaded and `sp` lowered if Extend asks for it. -/
theorem State.chain_eload {s : State} {i : Instr} {cs : List LockCell} (hs : s.ready) (halone : s.alone)
    (hcs : s.cellsPastMwait i.flags = some cs) (hmag : i.flags.extend = true → s.inData s.sp) :
    ((s.atPhase .fetch (fun t => .ok (t.latch (encodeByte i) i.flags))).atPhase .mwait
      (State.mwait i.flags)).atPhase .eload State.eload = s.beforeLoad i cs .loadSrc := by
  rw [State.chain_mwait hs halone hcs]
  by_cases he : i.flags.extend = true
  · rw [State.atPhase_eload (by exact hs.1) (by simp [phaseAfterMwait, he]) (by exact halone) (by exact hmag he)]
    simp only [State.beforeLoad, State.loadedMag, State.operandSp, he, if_true]
    rfl
  · rw [State.atPhase_skip State.eload (.inr (by simp [phaseAfterMwait, he]))]
    simp only [State.beforeLoad, State.loadedMag, State.operandSp, phaseAfterMwait, he]
    rfl

/-- Where an undisturbed step faults at a load, with the fault (R105 to R107). -/
inductive LoadFault (s : State) (f : Flags) : Phase → Fault → Prop
  | mag (he : f.extend = true) (hd : ¬s.inData s.sp) : LoadFault s f .eload .spRange
  | src (hmag : f.extend = true → s.inData s.sp) (hd : ¬s.inData (s.operandSp f)) : LoadFault s f .loadSrc .spRange
  | dst (hmag : f.extend = true → s.inData s.sp) (hsrc : s.inData (s.operandSp f)) (hd : ¬s.inData s.dp) :
      LoadFault s f .loadDst .dpRange

theorem exec_of_loadFault {i : Instr} {s : State} {cs : List LockCell} {p : Phase} {e : Fault} (hs : s.ready)
    (halone : s.alone) (hcs : s.cellsPastMwait i.flags = some cs) (h : LoadFault s i.flags p e) :
    exec i s = .next ((s.beforeLoad i cs p).takeFault e) := by
  rw [exec_eq, State.runPhases]
  cases h with
  | mag he hd =>
    have heload : ({ s with op := encodeByte i, mag := 1, cells := cs, phase := phaseAfterMwait i.flags } : State).atPhase
        .eload State.eload = (s.beforeLoad i cs .eload).takeFault .spRange := by
      rw [phaseAfterMwait, if_pos he]
      exact State.atPhase_fault hs.1 rfl (State.eload_error hd) halone
    rw [State.chain_mwait hs halone hcs, heload]
    iterate 4 rw [State.atPhase_skip (s := State.takeFault _ _) _ (.inl (by simp))]
  | src hmag hd =>
    have hload : (s.beforeLoad i cs .loadSrc).atPhase .loadSrc State.loadSrc =
        (s.beforeLoad i cs .loadSrc).takeFault .spRange :=
      State.atPhase_fault hs.1 rfl (State.loadSrc_error hd) halone
    rw [State.chain_eload hs halone hcs hmag, hload]
    iterate 3 rw [State.atPhase_skip (s := State.takeFault _ _) _ (.inl (by simp))]
  | dst hmag hsrc hd =>
    have hload : (s.beforeLoad i cs .loadSrc).atPhase .loadSrc State.loadSrc = s.beforeLoad i cs .loadDst :=
      State.atPhase_loadSrc hs.1 rfl halone hsrc
    have hload' : (s.beforeLoad i cs .loadDst).atPhase .loadDst State.loadDst =
        (s.beforeLoad i cs .loadDst).takeFault .dpRange :=
      State.atPhase_fault hs.1 rfl (State.loadDst_error hd) halone
    rw [State.chain_eload hs halone hcs hmag, hload, hload']
    iterate 2 rw [State.atPhase_skip (s := State.takeFault _ _) _ (.inl (by simp))]

/-- Settles O21: each load that names no Word, in the order of the phases. -/
theorem loadFaultsFreezeStep : Obligations.LoadFaultsFreezeStep := fun _ _ _ hs halone hcs =>
  ⟨fun he hd => exec_of_loadFault hs halone hcs (.mag he hd),
    fun hmag hd => exec_of_loadFault hs halone hcs (.src hmag hd),
    fun hmag hsrc hd => exec_of_loadFault hs halone hcs (.dst hmag hsrc hd)⟩

/-! ## Completion -/

section

variable {s : State} {cs : List LockCell}

theorem State.atExec_eq {i : Instr} : (s.atExec (encodeByte i) i.flags cs).advance =
    ({ s.latched i cs with mag := s.loadedMag i.flags } : State).advance := rfl

/-- An instruction whose guard fails only advances, whatever its selector (R110). -/
theorem exec_of_ineligible {i : Instr} (hs : s.ready) (halone : s.alone) (hcs : s.cellsPastMwait i.flags = some cs)
    (hl : s.loadsOk i.flags) (he : s.operandsEligible i.flags = false) :
    exec i s = .next (s.latched i cs).advance := by
  rw [exec_eq, State.runPhases_chain _ hs halone hcs hl, State.atExec_ineligible _ hs halone he, State.atExec_eq]
  simp [State.latched, he]

/-- An eligible instruction is its selector's action on the latched state (R113). -/
theorem exec_of_eligible {i : Instr} {t : State} (hs : s.ready) (halone : s.alone)
    (hcs : s.cellsPastMwait i.flags = some cs) (hl : s.loadsOk i.flags) (he : s.operandsEligible i.flags = true)
    (ht : selectorAction i.selector { s.latched i cs with phase := .exec } = .ok t) (halone' : t.alone) :
    exec i s = .next (t.atPhase .xhandoff State.xhandoff) := by
  rw [exec_eq, State.runPhases_chain _ hs halone hcs hl, State.atExec_eligible hs he _ halone']
  rw [← ht]
  simp [State.latched, State.atExec, he]

theorem State.atPhase_xhandoff_of_fetch {t : State} (h : t.phase = .fetch) :
    t.atPhase .xhandoff State.xhandoff = t := State.atPhase_skip _ (.inr (by simp [h]))

theorem State.appliedDelta_of_eligible {f : Flags} (he : s.operandsEligible f = true) :
    s.appliedDelta f = appliedMag f (s.loadedMag f) := if_pos he

theorem State.appliedDelta_of_ineligible {f : Flags} (he : s.operandsEligible f = false) : s.appliedDelta f = 0 := by
  simp [State.appliedDelta, he]

theorem State.latched_mag_of_eligible {i : Instr} (he : s.operandsEligible i.flags = true) :
    (s.latched i cs).mag = s.appliedDelta i.flags := by
  rw [State.appliedDelta_of_eligible he]
  exact if_pos he

/-- The next state of an instruction that completes undisturbed, with the lock cells `cs` past MWAIT. -/
def State.completed (s : State) (cs : List LockCell) : Instr → State
  | .src f => { s.latched (.src f) cs with sp := s.operandSp f + s.appliedDelta f, ip := s.ip + 1 }
  | .dst f => { s.latched (.dst f) cs with dp := s.dp + s.appliedDelta f, ip := s.ip + 1 }
  | .code f => { s.latched (.code f) cs with ip := s.ip + s.appliedDelta f + 1 }
  | .value f =>
    if s.operandsEligible f = false then (s.latched (.value f) cs).advance
    else if s.atBlockStart (s.dp + 1) then (s.stored f cs).crossBlockHandoff.advance
    else (s.stored f cs).advance

/-- Where the guard fails every selector's next state is the advance alone (R110). -/
theorem State.completed_of_ineligible {i : Instr} (hp : s.phase = .fetch) (he : s.operandsEligible i.flags = false) :
    s.completed cs i = (s.latched i cs).advance := by
  cases i with
  | src f | dst f | code f =>
    have hd : s.appliedDelta f = 0 := State.appliedDelta_of_ineligible he
    simp [State.completed, hd, State.latched, State.advance, hp, Instr.flags]
  | value f => exact if_pos he

/-! ## The cross-block handoff at the end of a step -/

/-- The cross-block handoff writes the lock cells alone. -/
theorem State.crossBlockHandoff_eq (s : State) : s.crossBlockHandoff = { s with cells := s.crossBlockHandoff.cells } := by
  rcases s.crossBlockHandoff_cases with h | ⟨l, c, -, -, -, -, -, -, h⟩
  · rw [h]
  · rw [h]; rfl

/-- What it makes of them is decided by the lock table, `dp` and the cells. -/
theorem State.crossBlockHandoff_cells_congr {s t : State} (hlt : t.lt = s.lt) (hparams : t.params = s.params)
    (hdp : t.dp = s.dp) (hcells : t.cells = s.cells) : t.crossBlockHandoff.cells = s.crossBlockHandoff.cells := by
  have hl : t.lockFor t.dp = s.lockFor s.dp := by rw [State.lockFor_congr hlt hparams, hdp]
  rcases s.crossBlockHandoff_cases with hs | ⟨l, c, a, h1, h2, h3, h4, h5, hs⟩
  · rcases t.crossBlockHandoff_cases with ht | ⟨l, c, a, h1, h2, h3, h4, h5, ht⟩
    · rw [hs, ht, hcells]
    · rw [ht, State.crossBlockHandoff_releases (hl.symm.trans h1) h2 (hcells ▸ h3) h4 h5, State.setCell_cells,
        State.setCell_cells, hcells]
  · rw [hs, State.crossBlockHandoff_releases (hl.trans h1) h2 (hcells.symm ▸ h3) h4 h5, State.setCell_cells,
      State.setCell_cells, hcells]

theorem State.crossBlockHandoff_advance_withPhase (s : State) (p : Phase) :
    ({ s with phase := p } : State).crossBlockHandoff.advance = s.crossBlockHandoff.advance := by
  rw [State.crossBlockHandoff_eq, s.crossBlockHandoff_eq,
    State.crossBlockHandoff_cells_congr (s := s) (t := { s with phase := p }) rfl rfl rfl rfl]
  rfl

theorem State.crossBlockHandoff_advance_alone {s : State} (halone : s.alone) : s.crossBlockHandoff.advance.alone :=
  (keepsLaunch_xhandoff (s := s) rfl).env.trans halone

/-- After its store a VALUE is over if it stays in its block, and has XHANDOFF left if it enters one (R152). -/
theorem State.atPhase_xhandoff_afterStore {t : State} (hs : t.status = .running) (halone : t.alone) :
    t.afterStore.atPhase .xhandoff State.xhandoff =
      if t.atBlockStart t.dp then t.crossBlockHandoff.advance else t.advance := by
  unfold State.afterStore
  split
  · rw [← t.crossBlockHandoff_advance_withPhase .xhandoff]
    exact State.atPhase_ok hs rfl rfl (State.crossBlockHandoff_advance_alone halone)
  · exact State.atPhase_xhandoff_of_fetch rfl

/-- The store and the cursor moves of an eligible VALUE, on the latched state (R150). -/
theorem State.latched_moveBoth {f : Flags} (he : s.operandsEligible f = true) :
    State.moveBoth { s.latched (.value f) cs with
      data := s.data.writeWord s.dp.toNat ((s.latched (.value f) cs).src + (s.latched (.value f) cs).mag)
      phase := .exec } = { s.stored f cs with phase := .exec } := by
  rw [State.latched_mag_of_eligible he]
  rfl

theorem exec_value_of_eligible {f : Flags} (hs : s.ready) (halone : s.alone) (hcs : s.cellsPastMwait f = some cs)
    (hl : s.loadsOk f) (he : s.operandsEligible f = true) :
    exec (.value f) s =
      .next (if s.atBlockStart (s.dp + 1) then (s.stored f cs).crossBlockHandoff.advance
        else (s.stored f cs).advance) := by
  have hd : s.inData s.dp := hl.2.2
  have hact : valueAction { s.latched (.value f) cs with phase := .exec } =
      .ok ({ s.stored f cs with phase := .exec } : State).afterStore := by
    rw [valueAction_ok (by exact hd), ← State.latched_moveBoth he]
    rfl
  have halone' : ({ s.stored f cs with phase := .exec } : State).afterStore.alone := by
    unfold State.afterStore
    split <;> exact halone
  rw [exec_of_eligible (i := .value f) hs halone hcs hl he hact halone',
    State.atPhase_xhandoff_afterStore (t := { s.stored f cs with phase := .exec }) hs.1 halone,
    State.crossBlockHandoff_advance_withPhase]
  rfl

/-- An undisturbed instruction that MWAIT lets go on and whose loads are in range completes: by the guard, and then by
the selector's action. -/
theorem exec_completes {i : Instr} (hs : s.ready) (halone : s.alone) (hcs : s.cellsPastMwait i.flags = some cs)
    (hl : s.loadsOk i.flags) : exec i s = .next (s.completed cs i) := by
  have hp : s.phase = .fetch := hs.2
  cases he : s.operandsEligible i.flags with
  | false => rw [exec_of_ineligible hs halone hcs hl he, State.completed_of_ineligible hp he]
  | true =>
    cases i with
    | src f | dst f | code f =>
      have he' : s.operandsEligible f = true := he
      rw [exec_of_eligible hs halone hcs hl he rfl halone, State.atPhase_xhandoff_of_fetch rfl]
      simp [State.completed, State.latched, State.advance, State.appliedDelta, Instr.flags, he', hp]
    | value f =>
      have he' : s.operandsEligible f = true := he
      rw [exec_value_of_eligible (f := f) hs halone hcs hl he]
      simp [State.completed, he']

end

/-- Settles O13: the completion of SRC. -/
theorem srcCompletes : Obligations.SrcCompletes := fun f _ _ => exec_completes (i := .src f)

/-- Settles O14: the completion of DST. -/
theorem dstCompletes : Obligations.DstCompletes := fun f _ _ => exec_completes (i := .dst f)

/-- Settles O15: the completion of CODE. -/
theorem codeCompletes : Obligations.CodeCompletes := fun f _ _ => exec_completes (i := .code f)

/-- Settles O16: the completion of VALUE. -/
theorem valueCompletes : Obligations.ValueCompletes := fun f _ _ => exec_completes (i := .value f)

end Sys2Proof.Machine
end

