-- ==== Sys2Proof/Proofs/AloneOutcomes.lean ====
section
/-! Everything an instruction that no other agent disturbs can end as, and what follows from it: what it leaves alone
(spec/20_memory.md section 4), what MutexWait does to its lock (spec/40_step_common.md section 2, spec/44_lock_handoff.md
sections 4 to 7), and the inversion law (spec/40_step_common.md section 9). -/

namespace Sys2Proof.Machine

/-! ## The outcomes -/

/-- The ends of an undisturbed instruction begun in `s`, each with its whole next state. -/
inductive AloneOutcome (i : Instr) (s : State) : State → Prop
  | mwaitFaults {e : Fault} (hm : i.flags.mutexWait = true) (hh : s.machineHandoff s.dp = .error e) :
      AloneOutcome i s ((s.latch (encodeByte i) i.flags).takeFault e)
  | waits {l : LockId} {c c' : LockCell} (hm : i.flags.mutexWait = true) (hr : s.params.mwaitRetry = true)
      (hl : s.lockFor s.dp = some l) (hc : s.cells[l]? = some c)
      (hw : c.handoffWait s.params.relFree machineId = .ok (false, c')) :
      AloneOutcome i s ((s.latch (encodeByte i) i.flags).setCell l c')
  | loadFaults {cs : List LockCell} {p : Phase} {e : Fault} (hcs : s.cellsPastMwait i.flags = some cs)
      (hp : LoadFault s i.flags p e) : AloneOutcome i s ((s.beforeLoad i cs p).takeFault e)
  | completes {cs : List LockCell} (hcs : s.cellsPastMwait i.flags = some cs) (hl : s.loadsOk i.flags) :
      AloneOutcome i s (s.completed cs i)

theorem exec_of_wait {i : Instr} {s : State} {l : LockId} {c c' : LockCell} (hs : s.ready) (halone : s.alone)
    (hm : i.flags.mutexWait = true) (hr : s.params.mwaitRetry = true) (hl : s.lockFor s.dp = some l)
    (hc : s.cells[l]? = some c) (hw : c.handoffWait s.params.relFree machineId = .ok (false, c')) :
    exec i s = .next ((s.latch (encodeByte i) i.flags).setCell l c') := by
  rw [exec_eq, State.runPhases_retry _ hs halone hm hr hl hc hw]

/-- MWAIT stops a step only by a fault or by an attempt to be repeated (R104, R168). -/
theorem State.cellsPastMwait_none {s : State} {f : Flags} (h : s.cellsPastMwait f = none) :
    f.mutexWait = true ∧
      ((∃ e, s.machineHandoff s.dp = .error e) ∨
        (s.params.mwaitRetry = true ∧ ∃ t, s.machineHandoff s.dp = .ok (false, t))) := by
  unfold State.cellsPastMwait at h
  split at h
  · rename_i hm
    refine ⟨hm, ?_⟩
    split at h
    · rename_i got t hh
      split at h
      · rename_i hr
        obtain ⟨hretry, hgot⟩ := Bool.and_eq_true_iff.1 hr
        rw [Bool.not_eq_true'] at hgot
        exact .inr ⟨hretry, t, hgot ▸ hh⟩
      · cases h
    · rename_i e hh; exact .inl ⟨e, hh⟩
  · cases h

/-- The cells past MWAIT: as before, or with the handoff wait's change to the cell of `dp`'s lock. -/
theorem State.cellsPastMwait_some {s : State} {f : Flags} {cs : List LockCell} (h : s.cellsPastMwait f = some cs) :
    (f.mutexWait = false ∧ cs = s.cells) ∨
      (f.mutexWait = true ∧ ∃ l c, s.lockFor s.dp = some l ∧ cs = s.cells.set l c) := by
  unfold State.cellsPastMwait at h
  split at h
  · rename_i hm
    split at h
    · rename_i got t hh
      obtain ⟨l, c, c', hl, -, -, rfl⟩ := State.machineHandoff_ok hh
      split at h
      · cases h
      · cases h; exact .inr ⟨hm, l, c', hl, rfl⟩
    · cases h
  · rename_i hm
    cases h
    exact .inl ⟨by simpa using hm, rfl⟩

theorem State.cellsPastMwait_of_handoff {s : State} {f : Flags} {l : LockId} {c c' : LockCell} {got : Bool}
    (hm : f.mutexWait = true) (hl : s.lockFor s.dp = some l) (hc : s.cells[l]? = some c)
    (hw : c.handoffWait s.params.relFree machineId = .ok (got, c'))
    (hgo : ¬(s.params.mwaitRetry = true ∧ got = false)) : s.cellsPastMwait f = some (s.cells.set l c') := by
  rw [State.cellsPastMwait, if_pos hm, State.machineHandoff_eq hl hc hw]
  exact if_neg (by simpa using hgo)

theorem State.loadsOk_or_loadFault (s : State) (f : Flags) : s.loadsOk f ∨ ∃ p e, LoadFault s f p e := by
  by_cases hmag : f.extend = true → s.inData s.sp
  · by_cases hsrc : s.inData (s.operandSp f)
    · by_cases hdst : s.inData s.dp
      · exact .inl ⟨hmag, hsrc, hdst⟩
      · exact .inr ⟨_, _, .dst hmag hsrc hdst⟩
    · exact .inr ⟨_, _, .src hmag hsrc⟩
  · obtain ⟨he, hd⟩ := Classical.not_imp.1 hmag
    exact .inr ⟨_, _, .mag he hd⟩

/-- Everything an undisturbed instruction can end as. -/
theorem exec_alone {i : Instr} {s t : State} (hs : s.ready) (halone : s.alone) (h : exec i s = .next t) :
    AloneOutcome i s t := by
  have conclude : ∀ u, exec i s = .next u → AloneOutcome i s u → AloneOutcome i s t := by
    intro u hu hout
    rw [hu] at h
    cases h
    exact hout
  cases hcs : s.cellsPastMwait i.flags with
  | none =>
    obtain ⟨hm, ⟨e, hh⟩ | ⟨hr, u, hh⟩⟩ := State.cellsPastMwait_none hcs
    · exact conclude _ (exec_of_mwait_fault hs halone hm hh) (.mwaitFaults hm hh)
    · obtain ⟨l, c, c', hl, hc, hw, -⟩ := State.machineHandoff_ok hh
      exact conclude _ (exec_of_wait hs halone hm hr hl hc hw) (.waits hm hr hl hc hw)
  | some cs =>
    rcases s.loadsOk_or_loadFault i.flags with hl | ⟨p, e, hp⟩
    · exact conclude _ (exec_completes hs halone hcs hl) (.completes hcs hl)
    · exact conclude _ (exec_of_loadFault hs halone hcs hp) (.loadFaults hcs hp)

/-! ## The fields of a completed instruction -/

theorem State.completed_value_ineligible {s : State} {f : Flags} (cs : List LockCell)
    (he : s.operandsEligible f = false) : s.completed cs (.value f) = (s.latched (.value f) cs).advance := if_pos he

/-- A completed eligible VALUE is its store and its moves, with the cells that the cross-block handoff leaves if it
enters a block (R152). -/
theorem State.completed_value_eligible {s : State} {f : Flags} (cs : List LockCell)
    (he : s.operandsEligible f = true) :
    s.completed cs (.value f) = State.advance { s.stored f cs with
      cells := if s.atBlockStart (s.dp + 1) then (s.stored f cs).crossBlockHandoff.cells else cs } := by
  rw [State.completed, if_neg (by simp [he])]
  split
  · rw [State.crossBlockHandoff_eq]
  · rfl

/-- What every completed instruction leaves: the writers, `env`, `status` and `cause` as before, the next phase FETCH,
and the magnitude that was applied in its latch (R27, R111). -/
structure CompletedFrame (s : State) (cs : List LockCell) (i : Instr) : Prop where
  writers : (s.completed cs i).writers = s.writers
  env : (s.completed cs i).env = s.env
  status : (s.completed cs i).status = s.status
  cause : (s.completed cs i).cause = s.cause
  phase : s.phase = .fetch → (s.completed cs i).phase = .fetch
  mag : (s.completed cs i).mag = (s.latched i cs).mag

theorem State.completed_frame (s : State) (cs : List LockCell) (i : Instr) : CompletedFrame s cs i := by
  cases i with
  | src f | dst f | code f => exact ⟨rfl, rfl, rfl, rfl, id, rfl⟩
  | value f =>
    cases he : s.operandsEligible f with
    | false =>
      have hx := State.completed_value_ineligible cs he
      constructor <;> rw [hx] <;> intros <;> rfl
    | true =>
      have hx := State.completed_value_eligible cs he
      constructor <;> rw [hx] <;> intros <;> rfl

/-- A completed instruction that is no VALUE has the cells past MWAIT and stores nothing. -/
theorem State.completed_cells_data {i : Instr} (h : i.selector ≠ .value) (s : State) (cs : List LockCell) :
    (s.completed cs i).cells = cs ∧ (s.completed cs i).data = s.data := by
  cases i with
  | src f | dst f | code f => exact ⟨rfl, rfl⟩
  | value f => exact absurd rfl h

/-- The store of a completed VALUE (R150). -/
theorem State.completed_value_data (s : State) (cs : List LockCell) (f : Flags) :
    (s.completed cs (.value f)).data =
      if s.operandsEligible f = false then s.data
      else s.data.writeWord s.dp.toNat (s.wordOf (s.operandSp f) + s.appliedDelta f) := by
  cases he : s.operandsEligible f with
  | false => rw [State.completed_value_ineligible cs he]; rfl
  | true => rw [State.completed_value_eligible cs he]; rfl

/-- The cells a completed VALUE leaves (R152, R169). -/
theorem State.completed_value_cells (s : State) (cs : List LockCell) (f : Flags) :
    (s.completed cs (.value f)).cells =
      if s.operandsEligible f = true ∧ s.atBlockStart (s.dp + 1) = true then (s.stored f cs).crossBlockHandoff.cells
      else cs := by
  cases he : s.operandsEligible f with
  | false => rw [State.completed_value_ineligible cs he]; rfl
  | true =>
    rw [State.completed_value_eligible cs he]
    simp only [true_and]
    rfl

/-! ## Frames -/

/-- A change to the lock of `dp`'s block alone leaves every other cell. -/
theorem cells_set_frame {P : LockId → Prop} {cells : List LockCell} {l : LockId} (c : LockCell) (hl : P l) (k : LockId) :
    P k ∨ (cells.set l c)[k]? = cells[k]? := by
  by_cases hk : l = k
  · exact .inl (hk ▸ hl)
  · exact .inr (List.getElem?_set_ne hk)

theorem State.cellsPastMwait_frame {s : State} {f : Flags} {cs : List LockCell} (h : s.cellsPastMwait f = some cs)
    (k : LockId) : (f.mutexWait = true ∧ s.lockFor s.dp = some k) ∨ cs[k]? = s.cells[k]? := by
  rcases State.cellsPastMwait_some h with ⟨-, rfl⟩ | ⟨hm, l, c, hl, rfl⟩
  · exact .inr rfl
  · exact cells_set_frame (P := fun k => f.mutexWait = true ∧ s.lockFor s.dp = some k) c ⟨hm, hl⟩ k

/-- The state of a step before one of its loads differs in nothing but the latches, the cells, `sp` and the phase. -/
structure BeforeLoadFrame (s : State) (i : Instr) (cs : List LockCell) (p : Phase) : Prop where
  ip : (s.beforeLoad i cs p).ip = s.ip
  dp : (s.beforeLoad i cs p).dp = s.dp
  sp : (s.beforeLoad i cs p).sp = s.spAtPhase i.flags p
  op : (s.beforeLoad i cs p).op = encodeByte i
  cells : (s.beforeLoad i cs p).cells = cs
  data : (s.beforeLoad i cs p).data = s.data
  lt : (s.beforeLoad i cs p).lt = s.lt
  writers : (s.beforeLoad i cs p).writers = s.writers
  env : (s.beforeLoad i cs p).env = s.env
  phase : (s.beforeLoad i cs p).phase = p
  ne_mwait : p ≠ .mwait

theorem LoadFault.frame {s : State} {f : Flags} {p : Phase} {e : Fault} (h : LoadFault s f p e) (i : Instr)
    (cs : List LockCell) : BeforeLoadFrame s i cs p := by
  cases h <;> exact ⟨rfl, rfl, rfl, rfl, rfl, rfl, rfl, rfl, rfl, rfl, by decide⟩

theorem AloneOutcome.writers_env {i : Instr} {s t : State} (h : AloneOutcome i s t) :
    t.writers = s.writers ∧ t.env = s.env := by
  cases h with
  | mwaitFaults | waits => exact ⟨rfl, rfl⟩
  | loadFaults _ hp => exact ⟨(hp.frame i _).writers, (hp.frame i _).env⟩
  | completes => exact ⟨(s.completed_frame _ i).writers, (s.completed_frame _ i).env⟩

theorem AloneOutcome.status {i : Instr} {s t : State} (h : AloneOutcome i s t) :
    t.status = .faulted ∨ (t.status = s.status ∧ t.cause = s.cause) := by
  cases h with
  | mwaitFaults | loadFaults => exact .inl rfl
  | waits => exact .inr ⟨rfl, rfl⟩
  | completes => exact .inr ⟨(s.completed_frame _ i).status, (s.completed_frame _ i).cause⟩

theorem AloneOutcome.data_of_ne_value {i : Instr} {s t : State} (h : AloneOutcome i s t) (hv : i.selector ≠ .value) :
    t.data = s.data := by
  cases h with
  | mwaitFaults | waits => rfl
  | loadFaults _ hp => exact (hp.frame i _).data
  | completes => exact (State.completed_cells_data hv s _).2

/-- Where `sp` is when a load faults: Extend's decrement is all that can have moved it. -/
theorem State.spAtPhase_cases (s : State) (f : Flags) (p : Phase) :
    s.spAtPhase f p = s.sp ∨ s.spAtPhase f p = s.operandSp f := by
  cases p with
  | loadSrc | loadDst | exec => exact .inr rfl
  | fetch | mwait | eload | xhandoff => exact .inl rfl

theorem AloneOutcome.dp {i : Instr} {s t : State} (h : AloneOutcome i s t) (hv : i.selector ≠ .value)
    (hd : i.selector ≠ .dst) : t.dp = s.dp := by
  cases h with
  | mwaitFaults | waits => rfl
  | loadFaults _ hp => exact (hp.frame i _).dp
  | completes =>
    cases i with
    | src f | code f => rfl
    | dst f => exact absurd rfl hd
    | value f => exact absurd rfl hv

theorem AloneOutcome.sp {i : Instr} {s t : State} (h : AloneOutcome i s t) (hv : i.selector ≠ .value)
    (hsrc : i.selector ≠ .src) : t.sp = s.sp ∨ t.sp = s.operandSp i.flags := by
  cases h with
  | mwaitFaults | waits => exact .inl rfl
  | loadFaults _ hp =>
    rw [State.takeFault_sp, (hp.frame i _).sp]
    exact s.spAtPhase_cases _ _
  | completes =>
    cases i with
    | dst f | code f => exact .inr rfl
    | src f => exact absurd rfl hsrc
    | value f => exact absurd rfl hv

theorem AloneOutcome.ip {i : Instr} {s t : State} (h : AloneOutcome i s t) (hv : i.selector ≠ .value)
    (hc : i.selector ≠ .code) : t.ip = s.ip ∨ t.ip = s.ip + 1 := by
  cases h with
  | mwaitFaults | waits => exact .inl rfl
  | loadFaults _ hp => exact .inl (hp.frame i _).ip
  | completes =>
    cases i with
    | src f | dst f => exact .inr rfl
    | code f => exact absurd rfl hc
    | value f => exact absurd rfl hv

theorem AloneOutcome.cells_of_ne_value {i : Instr} {s t : State} (h : AloneOutcome i s t) (hv : i.selector ≠ .value)
    (k : LockId) : (i.flags.mutexWait = true ∧ s.lockFor s.dp = some k) ∨ t.cells[k]? = s.cells[k]? := by
  cases h with
  | mwaitFaults => exact .inr rfl
  | waits hm _ hl =>
    exact cells_set_frame (P := fun k => i.flags.mutexWait = true ∧ s.lockFor s.dp = some k) _ ⟨hm, hl⟩ k
  | loadFaults hcs hp =>
    rw [State.takeFault_cells, (hp.frame i _).cells]
    exact State.cellsPastMwait_frame hcs k
  | completes hcs =>
    rw [(State.completed_cells_data hv s _).1]
    exact State.cellsPastMwait_frame hcs k

/-- Settles O28: each end of the instruction, field by field. -/
theorem cursorInstructionsFrame : Obligations.CursorInstructionsFrame := by
  intro i s t hv hs halone h
  have hout := exec_alone hs halone h
  obtain ⟨hwriters, henv⟩ := hout.writers_env
  exact ⟨fun a => by rw [hout.data_of_ne_value hv], exec_sameLaunch h, hwriters, henv, hout.dp hv, hout.sp hv,
    hout.ip hv, hout.status, hout.cells_of_ne_value hv⟩

/-! ## VALUE -/

/-- An undisturbed VALUE stores nothing, or completes eligible and stores one Word. -/
theorem AloneOutcome.value_data {f : Flags} {s t : State} (hs : s.ready) (h : AloneOutcome (.value f) s t) :
    t.data = s.data ∨
      (t.status = .running ∧ t.phase = .fetch ∧ s.operandsEligible f = true ∧
        t.data = s.data.writeWord s.dp.toNat (s.wordOf (s.operandSp f) + s.appliedDelta f)) := by
  obtain ⟨hrun, hphase⟩ := hs
  cases h with
  | mwaitFaults | waits => exact .inl rfl
  | loadFaults _ hp => exact .inl (hp.frame (.value f) _).data
  | @completes cs =>
    have hframe := s.completed_frame cs (.value f)
    rw [State.completed_value_data]
    cases he : s.operandsEligible f with
    | false => exact .inl (if_pos rfl)
    | true => exact .inr ⟨hframe.status.trans hrun, hframe.phase hphase, rfl, if_neg (by decide)⟩

theorem State.atBlockStart_iff (s : State) (c : Word) :
    s.atBlockStart c = true ↔ c.toNat % s.params.blockWords = 0 := beq_iff_eq

/-- The cross-block handoff reaches the lock of `dp`'s block alone. -/
theorem State.crossBlockHandoff_frame (s : State) (k : LockId) :
    s.lockFor s.dp = some k ∨ s.crossBlockHandoff.cells[k]? = s.cells[k]? := by
  rcases s.crossBlockHandoff_cases with h | ⟨l, c, a, hl, -, -, -, -, h⟩
  · rw [h]; exact .inr rfl
  · rw [h]; exact cells_set_frame (P := fun k => s.lockFor s.dp = some k) _ hl k

theorem AloneOutcome.value_cells {f : Flags} {s t : State} (h : AloneOutcome (.value f) s t) (k : LockId) :
    (f.mutexWait = true ∧ s.lockFor s.dp = some k) ∨ s.lockFor (s.dp + 1) = some k ∨ t.cells[k]? = s.cells[k]? := by
  cases h with
  | mwaitFaults => exact .inr (.inr rfl)
  | waits hm _ hl =>
    exact (cells_set_frame (P := fun k => f.mutexWait = true ∧ s.lockFor s.dp = some k) _ ⟨hm, hl⟩ k).imp_right .inr
  | loadFaults hcs hp =>
    rw [State.takeFault_cells, (hp.frame (.value f) _).cells]
    exact (State.cellsPastMwait_frame hcs k).imp_right .inr
  | @completes cs hcs =>
    refine (State.cellsPastMwait_frame hcs k).imp_right fun hk => ?_
    rw [State.completed_value_cells]
    split
    · exact ((s.stored f cs).crossBlockHandoff_frame k).imp_right fun hx => hx.trans hk
    · exact .inr hk

/-- Settles O29: the store by the end of the instruction, and the rest field by field. -/
theorem valueStoresOneWord : Obligations.ValueStoresOneWord := by
  intro f s t hwf hs halone h
  have hout := exec_alone hs halone h
  obtain ⟨hwriters, henv⟩ := hout.writers_env
  refine ⟨fun a ha => ?_, fun cs hcs hl he => ?_, fun hend a => ?_, exec_sameLaunch h, hwriters, henv, hout.status,
    hout.value_cells⟩
  · rcases hout.value_data hs with hd | ⟨-, -, -, hd⟩
    · rw [hd]
    · rw [hd, Memory.readByte_writeWord_outside hwf _ _ _ ha]
  · have hx := exec_completes (i := .value f) hs halone hcs hl
    rw [h] at hx
    cases hx
    rw [State.wordOf, State.completed_value_data, if_neg (by simp [he]), Memory.readWord_writeWord hwf, if_pos rfl]
  · rcases hout.value_data hs with hd | ⟨hrun, hfetch, he, -⟩
    · rw [hd]
    · simp [hrun, hfetch, he] at hend

/-- Settles O30: the cells of a completed VALUE, by what its cross-block handoff finds. -/
theorem valueReleasesEnteredLock : Obligations.ValueReleasesEnteredLock := by
  intro f s cs hs halone hcs hl
  have hexec := exec_completes (i := .value f) hs halone hcs hl
  have hcells := s.completed_value_cells cs f
  refine ⟨fun l c a he hb hlock hown hc ha hne => ?_, fun hnone => ⟨_, hexec, ?_⟩⟩
  · rw [if_pos ⟨he, (s.atBlockStart_iff _).2 hb⟩,
      State.crossBlockHandoff_releases (s := s.stored f cs) hlock hown hc ha hne] at hcells
    exact ⟨_, c.releases + 1, hexec, hcells⟩
  · rw [hcells]
    split
    · rename_i hx
      obtain ⟨he, hb⟩ := hx
      rw [State.crossBlockHandoff_kept (s := s.stored f cs) fun l c a hlock hown hc ha => ?_]
      · rfl
      · change s.lockFor (s.dp + 1) = some l at hlock
        change cs[l]? = some c at hc
        rcases hnone with hx | hx | hx | hx | ⟨l', c', hx, hc', hclaim⟩
        · simp [hx] at he
        · exact absurd ((s.atBlockStart_iff _).1 hb) hx
        · cases hx.symm.trans hlock
        · exact absurd (Option.some.inj (hlock.symm.trans hx)) hown
        · cases hlock.symm.trans hx
          cases hc.symm.trans hc'
          rcases hclaim with hn | hn
          · simp [ha] at hn
          · exact Option.some.inj (ha.symm.trans hn)
    · rfl

end Sys2Proof.Machine
end

