-- ==== Sys2Proof/Proofs/MutexWait.lean ====
section
/-! MutexWait in a whole undisturbed step (spec/40_step_common.md section 2, spec/44_lock_handoff.md sections 4 and 7,
spec/60_exceptions.md section 1): its faults, its toggle, and the attempts that `MWAIT_RETRY` = 1 repeats. -/

namespace Sys2Proof.Machine

/-! ## The faults -/

/-- An instruction with M = 1 comes to MWAIT from FETCH. -/
theorem State.latch_eq_of_mutexWait {s : State} {i : Instr} (hm : i.flags.mutexWait = true) :
    s.latch (encodeByte i) i.flags = { s with op := encodeByte i, mag := 1, phase := .mwait } := by
  rw [State.latch, phaseAfterFetch, if_pos hm]

/-- Settles O19: the fault of the handoff wait is taken at MWAIT. -/
theorem mutexWaitFaultsAreTaken : Obligations.MutexWaitFaultsAreTaken := by
  intro i s hs halone hm
  refine ⟨fun hl => ?_, fun l c hl hc hfree hr hpol => ?_⟩
  · rw [exec_of_mwait_fault hs halone hm (State.machineHandoff_of_no_lock hl), State.latch_eq_of_mutexWait hm]
    rfl
  · have hw : c.handoffWait s.params.relFree machineId = .error .releaseFree := by
      rw [hpol, LockCell.handoffWait_shared_fault _ hfree hr]
    rw [exec_of_mwait_fault hs halone hm (State.machineHandoff_of_error hl hc hw), State.latch_eq_of_mutexWait hm]
    rfl

/-! ## The toggle is kept -/

/-- The cells after a handoff wait, but for the cross-block handoff of an eligible VALUE that enters a block. -/
def State.togglesTo (s : State) (i : Instr) (l : LockId) (c' : LockCell) (t : State) : Prop :=
  t.cells = s.cells.set l c' ∨
    (i.selector = .value ∧ s.loadsOk i.flags ∧ s.operandsEligible i.flags = true ∧
      s.atBlockStart (s.dp + 1) = true ∧
      t.cells = ({ s.setCell l c' with dp := s.dp + 1 } : State).crossBlockHandoff.cells)

/-- A completed instruction keeps the toggle. -/
theorem State.completed_togglesTo {s : State} {i : Instr} (hl : s.loadsOk i.flags) (l : LockId) (c' : LockCell) :
    s.togglesTo i l c' (s.completed (s.cells.set l c') i) := by
  by_cases hv : i.selector = .value
  · cases i with
    | src f | dst f | code f => cases hv
    | value f =>
      unfold State.togglesTo
      rw [State.completed_value_cells]
      split
      · rename_i hx
        obtain ⟨he, hb⟩ := hx
        exact .inr ⟨rfl, hl, he, hb, State.crossBlockHandoff_cells_congr rfl rfl rfl rfl⟩
      · exact .inl rfl
  · exact .inl (State.completed_cells_data hv s _).1

/-- An attempt that lets the step go on: whatever comes later, the toggle is kept and MWAIT is left. -/
theorem exec_of_handoff {i : Instr} {s : State} {l : LockId} {c' : LockCell} (hs : s.ready) (halone : s.alone)
    (hcs : s.cellsPastMwait i.flags = some (s.cells.set l c')) :
    ∃ t, exec i s = .next t ∧ s.togglesTo i l c' t ∧ t.phase ≠ .mwait := by
  rcases s.loadsOk_or_loadFault i.flags with hl | ⟨p, e, hp⟩
  · refine ⟨_, exec_completes hs halone hcs hl, State.completed_togglesTo hl l c', ?_⟩
    rw [(s.completed_frame _ i).phase hs.2]
    decide
  · have hframe := hp.frame i (s.cells.set l c')
    refine ⟨_, exec_of_loadFault hs halone hcs hp, .inl hframe.cells, ?_⟩
    rw [State.takeFault_phase, hframe.phase]
    exact hframe.ne_mwait

/-- Settles O18: the attempt must be repeated, or it lets the step go on. -/
theorem mutexWaitKeepsToggle : Obligations.MutexWaitKeepsToggle := by
  intro i s l c c' got hs halone hm hl hc hw
  by_cases hgo : s.params.mwaitRetry = true ∧ got = false
  · obtain ⟨hr, rfl⟩ := hgo
    refine ⟨_, exec_of_wait hs halone hm hr hl hc hw, .inl rfl, fun hn => absurd ⟨hr, rfl⟩ hn, fun _ _ => ?_⟩
    rw [State.latch_eq_of_mutexWait hm]
    exact ⟨hs.1, rfl, rfl, rfl⟩
  · obtain ⟨t, ht, htoggle, hphase⟩ :=
      exec_of_handoff hs halone (State.cellsPastMwait_of_handoff hm hl hc hw hgo)
    exact ⟨t, ht, htoggle, fun _ => hphase, fun hr hg => absurd ⟨hr, hg⟩ hgo⟩

/-! ## Repeated attempts -/

/-- A machine that waits at MWAIT goes on exactly as if it fetched the instruction now. -/
theorem step_of_latched {i : Instr} {s : State} (hs : s.ready) (halone : s.alone) (hm : i.flags.mutexWait = true) :
    step (s.latch (encodeByte i) i.flags) = exec i s := by
  have hp : (s.latch (encodeByte i) i.flags).phase ≠ .fetch := by
    rw [State.latch_eq_of_mutexWait hm]; exact nofun
  have hfetch : s.atPhase .fetch (fun t => .ok (t.latch (encodeByte i) i.flags)) = s.latch (encodeByte i) i.flags :=
    State.atPhase_ok hs.1 hs.2 rfl halone
  rw [step_of_resume (s := s.latch _ _) hs.1 hp, State.latch_op, decodeByte_encodeByte, exec_eq, exec_eq, State.runPhases_eq_pastFetch,
    State.runPhases_eq_pastFetch, hfetch, State.atPhase_skip _ (.inr hp)]

theorem State.latch_setCell (s : State) (op : Byte) (f : Flags) (l : LockId) (c : LockCell) :
    (s.latch op f).setCell l c = (s.setCell l c).latch op f := rfl

/-- The cross-block handoff does not release the machine's own claim (R169). -/
theorem State.crossBlockHandoff_keeps_own {s : State} {l : LockId} {d : LockCell} (hd : s.cells[l]? = some d)
    (hown : d.claim = some machineId) : s.crossBlockHandoff.cells[l]? = some d := by
  rcases s.crossBlockHandoff_cases with h | ⟨k, c, a, -, -, hc, ha, hne, h⟩
  · rwa [h]
  · rw [h, State.setCell_cells]
    have hkl : k ≠ l := by
      rintro rfl
      cases hc.symm.trans hd
      exact hne (Option.some.inj (ha.symm.trans hown))
    rwa [List.getElem?_set_ne hkl]

/-- A claim that the machine has just obtained at MWAIT is its own when the step ends. -/
theorem State.togglesTo_own {s t : State} {i : Instr} {l : LockId} {c' : LockCell} (hlt : l < s.cells.length)
    (hown : c'.claim = some machineId) (h : s.togglesTo i l c' t) :
    ∃ d, t.cells[l]? = some d ∧ d.claim = some machineId := by
  have hset : (s.cells.set l c')[l]? = some c' := List.getElem?_set_self hlt
  rcases h with h | ⟨-, -, -, -, h⟩
  · exact ⟨c', h ▸ hset, hown⟩
  · refine ⟨c', ?_, hown⟩
    rw [h]
    exact State.crossBlockHandoff_keeps_own (s := { s.setCell l c' with dp := s.dp + 1 }) hset hown

/-- With nobody acting, the attempt after a release obtains the claim. -/
theorem exec_after_release {i : Instr} {s : State} {l : LockId} {c : LockCell} (hs : s.ready) (halone : s.alone)
    (hm : i.flags.mutexWait = true) (hl : s.lockFor s.dp = some l) (hlt : l < s.cells.length) (hr : c.readers = 0) :
    ∃ u, exec i (s.setCell l c.cleared) = .next u ∧ u.phase ≠ .mwait ∧
      ∃ d, u.cells[l]? = some d ∧ d.claim = some machineId := by
  have hc : (s.setCell l c.cleared).cells[l]? = some c.cleared := List.getElem?_set_self hlt
  have hw := LockCell.handoffWait_free (c := c.cleared) s.params.relFree machineId rfl hr
  obtain ⟨u, hu, htoggle, hphase⟩ := exec_of_handoff (i := i) (s := s.setCell l c.cleared) hs halone
    (State.cellsPastMwait_of_handoff hm hl hc hw (by simp))
  exact ⟨u, hu, hphase, State.togglesTo_own (by simpa using hlt) rfl htoggle⟩

/-- Settles O20: a waiting machine is the latched one, so its next step is the instruction begun again on the cells that
the attempt left. -/
theorem retriedMutexWaitWaits : Obligations.RetriedMutexWaitWaits := by
  intro i s l c hs halone hm hretry hl hc
  obtain ⟨hlt, -⟩ := List.getElem?_eq_some_iff.1 hc
  have hwaiting : ∀ c' : LockCell, ((s.latch (encodeByte i) i.flags).setCell l c').phase = .mwait := fun c' => by
    rw [State.latch_eq_of_mutexWait hm]; rfl
  refine ⟨fun b hb hr => ?_, fun hfree hr hpol => ?_⟩
  · have hw := LockCell.handoffWait_claimed s.params.relFree machineId b hb
    obtain ⟨u, hu, hphase, hclaim⟩ := exec_after_release hs halone hm hl hlt hr
    refine ⟨_, u, exec_of_wait hs halone hm hretry hl hc hw, hs.1, hwaiting _, rfl, rfl, ?_, hphase, hclaim⟩
    rw [State.latch_setCell, step_of_latched (s := s.setCell l c.cleared) hs halone hm, hu]
  · have hw : c.handoffWait s.params.relFree machineId = .ok (false, c) := by
      rw [hpol, LockCell.handoffWait_shared_noop _ hfree hr]
    have hexec := exec_of_wait hs halone hm hretry hl hc hw
    have hkept : (s.latch (encodeByte i) i.flags).setCell l c = s.latch (encodeByte i) i.flags :=
      State.setCell_self (by simpa using hc)
    refine ⟨_, hexec, hs.1, hwaiting c, rfl, by rw [hkept]; rfl, ?_⟩
    rw [← hexec, hkept, step_of_latched hs halone hm]

end Sys2Proof.Machine
end

