-- ==== Sys2Proof/Proofs/Inversion.lean ====
section
/-! The inversion law (spec/40_step_common.md section 9): Invert is seen by the applied magnitude alone. -/

namespace Sys2Proof.Machine

section

variable {s : State} {f g : Flags}

theorem State.operandSp_of_invert (h : g = { f with invert := !f.invert }) : s.operandSp g = s.operandSp f := by
  subst h; rfl

theorem State.loadedMag_of_invert (h : g = { f with invert := !f.invert }) : s.loadedMag g = s.loadedMag f := by
  subst h; rfl

theorem State.operandsEligible_of_invert (h : g = { f with invert := !f.invert }) :
    s.operandsEligible g = s.operandsEligible f := by
  subst h; rfl

theorem State.loadsOk_of_invert (h : g = { f with invert := !f.invert }) (hl : s.loadsOk f) : s.loadsOk g := by
  subst h; exact hl

theorem State.cellsPastMwait_of_invert (h : g = { f with invert := !f.invert }) :
    s.cellsPastMwait g = s.cellsPastMwait f := by
  subst h; rfl

theorem appliedMag_of_invert (h : g = { f with invert := !f.invert }) (m : Word) :
    appliedMag g m = -appliedMag f m := by
  subst h
  cases hi : f.invert <;> simp [appliedMag, hi]

theorem State.appliedDelta_of_invert (h : g = { f with invert := !f.invert }) :
    s.appliedDelta g = -s.appliedDelta f := by
  unfold State.appliedDelta
  rw [State.operandsEligible_of_invert h, State.loadedMag_of_invert h, appliedMag_of_invert h]
  split <;> simp

end

theorem State.latched_mag (s : State) (i : Instr) (cs : List LockCell) :
    (s.latched i cs).mag =
      if s.operandsEligible i.flags then appliedMag i.flags (s.loadedMag i.flags) else s.loadedMag i.flags := rfl

theorem State.latched_mag_of_invert {s : State} {i j : Instr} (cs : List LockCell)
    (h : j.flags = { i.flags with invert := !i.flags.invert }) :
    (s.latched j cs).mag = if s.operandsEligible i.flags then -(s.latched i cs).mag else (s.latched i cs).mag := by
  rw [State.latched_mag, State.latched_mag, State.operandsEligible_of_invert h, State.loadedMag_of_invert h,
    appliedMag_of_invert h]
  split <;> rfl

/-- Where the cursors of a completed instruction are, by its selector (R130, R131, R140, R150). -/
theorem State.completed_cursors (s : State) (cs : List LockCell) (i : Instr) :
    match i.selector with
    | .src => (s.completed cs i).sp = s.operandSp i.flags + s.appliedDelta i.flags ∧
        (s.completed cs i).dp = s.dp ∧ (s.completed cs i).ip = s.ip + 1
    | .dst => (s.completed cs i).sp = s.operandSp i.flags ∧
        (s.completed cs i).dp = s.dp + s.appliedDelta i.flags ∧ (s.completed cs i).ip = s.ip + 1
    | .code => (s.completed cs i).sp = s.operandSp i.flags ∧
        (s.completed cs i).dp = s.dp ∧ (s.completed cs i).ip = s.ip + s.appliedDelta i.flags + 1
    | .value =>
        (s.completed cs i).sp =
            (if s.operandsEligible i.flags then s.operandSp i.flags - 1 else s.operandSp i.flags) ∧
        (s.completed cs i).dp = (if s.operandsEligible i.flags then s.dp + 1 else s.dp) ∧
        (s.completed cs i).ip = s.ip + 1 := by
  cases i with
  | src f | dst f | code f => exact ⟨rfl, rfl, rfl⟩
  | value f =>
    cases he : s.operandsEligible f with
    | false => rw [State.completed_value_ineligible cs he]; simp [Instr.selector, Instr.flags, he, State.latched]
    | true => rw [State.completed_value_eligible cs he]; simp [Instr.selector, Instr.flags, he, State.stored, State.latched]

/-- A cursor moved by `-d` instead of `d` has the opposite delta. -/
theorem delta_neg (a d : Word) : a + -d - a = -(a + d - a) := by
  rw [add_sub_cancel_left, add_sub_cancel_left]

theorem delta_neg_succ (a d : Word) : a + -d + 1 - (a + 1) = -(a + d + 1 - (a + 1)) := by
  rw [add_sub_add_right_eq_sub, add_sub_add_right_eq_sub, delta_neg]

/-- Settles O27: both instructions complete, and their states differ by the sign of the applied magnitude. -/
theorem invertNegatesCursorDelta : Obligations.InvertNegatesCursorDelta := by
  intro i j s cs hsel hflags hs halone hcs hl
  have hexec := exec_completes hs halone hcs hl
  have hexec' := exec_completes (i := j) hs halone ((State.cellsPastMwait_of_invert hflags).trans hcs)
    (State.loadsOk_of_invert hflags hl)
  refine ⟨_, _, hexec, hexec', ?_, fun hsrc => ?_, fun hdst => ?_, fun hcode => ?_, fun hvalue => ?_⟩
  · rw [(s.completed_frame cs j).mag, (s.completed_frame cs i).mag, State.latched_mag_of_invert cs hflags]
  all_goals
    have ht := s.completed_cursors cs i
    have hu := s.completed_cursors cs j
    rw [← hsel, State.operandSp_of_invert hflags, State.appliedDelta_of_invert hflags,
      State.operandsEligible_of_invert hflags] at hu
  · rw [hsrc] at ht hu
    obtain ⟨hsp, hdp, hip⟩ := ht
    obtain ⟨hsp', hdp', hip'⟩ := hu
    exact ⟨by rw [hsp, hsp', delta_neg], hdp'.trans hdp.symm, hip'.trans hip.symm⟩
  · rw [hdst] at ht hu
    obtain ⟨hsp, hdp, hip⟩ := ht
    obtain ⟨hsp', hdp', hip'⟩ := hu
    exact ⟨by rw [hdp, hdp', delta_neg], hsp'.trans hsp.symm, hip'.trans hip.symm⟩
  · rw [hcode] at ht hu
    obtain ⟨hsp, hdp, hip⟩ := ht
    obtain ⟨hsp', hdp', hip'⟩ := hu
    exact ⟨by rw [hip, hip', delta_neg_succ], hsp'.trans hsp.symm, hdp'.trans hdp.symm⟩
  · rw [hvalue] at ht hu
    obtain ⟨hsp, hdp, hip⟩ := ht
    obtain ⟨hsp', hdp', hip'⟩ := hu
    exact ⟨hsp'.trans hsp.symm, hdp'.trans hdp.symm, hip'.trans hip.symm⟩

end Sys2Proof.Machine
end

