-- ==== Sys2Proof/Proofs/Interference.lean ====
section
/-! A whole step under any interference (spec/20_memory.md section 7, spec/60_exceptions.md sections 3 and 4): where the
loads are in range it completes on its own latches, and otherwise it stops at the first phase that faults. -/

namespace Sys2Proof.Machine

/-! ## The end of a step, from EXEC on -/

/-- EXEC and XHANDOFF, the phases of a step after its loads. -/
def State.finish (u : State) (f : Flags) (c : Selector) : State :=
  (u.atPhase .exec (State.execute f (selectorAction c))).atPhase .xhandoff State.xhandoff

theorem State.runPhases_eq_finish (s : State) (op : Byte) (f : Flags) (c : Selector) :
    s.runPhases op f (selectorAction c) = (s.loadPhases op f).finish f c := rfl

/-- The registers that the cross-block handoff leaves. -/
@[simp] theorem State.crossBlockHandoff_ip (s : State) : s.crossBlockHandoff.ip = s.ip := by
  rw [State.crossBlockHandoff_eq]
@[simp] theorem State.crossBlockHandoff_sp (s : State) : s.crossBlockHandoff.sp = s.sp := by
  rw [State.crossBlockHandoff_eq]
@[simp] theorem State.crossBlockHandoff_dp (s : State) : s.crossBlockHandoff.dp = s.dp := by
  rw [State.crossBlockHandoff_eq]
@[simp] theorem State.crossBlockHandoff_mag (s : State) : s.crossBlockHandoff.mag = s.mag := by
  rw [State.crossBlockHandoff_eq]
@[simp] theorem State.crossBlockHandoff_src (s : State) : s.crossBlockHandoff.src = s.src := by
  rw [State.crossBlockHandoff_eq]
@[simp] theorem State.crossBlockHandoff_dst (s : State) : s.crossBlockHandoff.dst = s.dst := by
  rw [State.crossBlockHandoff_eq]

/-- The registers and latches of the machine agree in both states, but for `status`, `cause` and the phase. -/
structure SameRegisters (s t : State) : Prop where
  ip : t.ip = s.ip
  sp : t.sp = s.sp
  dp : t.dp = s.dp
  op : t.op = s.op
  mag : t.mag = s.mag
  src : t.src = s.src
  dst : t.dst = s.dst

theorem State.interfere_sameRegisters (s : State) : SameRegisters s s.interfere :=
  ⟨s.interfere_ip, s.interfere_sp, s.interfere_dp, s.interfere_op, s.interfere_mag, s.interfere_src, s.interfere_dst⟩

/-- A step whose selector's action has ended it has no XHANDOFF. -/
theorem State.atPhase_xhandoff_interfere {v : State} (hp : v.phase = .fetch) :
    v.interfere.atPhase .xhandoff State.xhandoff = v.interfere :=
  State.atPhase_xhandoff_of_fetch (by rw [State.interfere_phase, hp])

/-- Whether or not a VALUE enters a block, it ends as its advance does but for the cells, memory and writers that the
other agents and the cross-block handoff may write (R152). -/
theorem State.afterStore_finish {w : State} (hs : w.status = .running) :
    SameRegisters w.advance (w.afterStore.interfere.atPhase .xhandoff State.xhandoff) := by
  unfold State.afterStore
  split
  · rw [State.atPhase_run _ (by simpa using hs) (by simp)]
    constructor <;> simp [State.xhandoff]
  · rw [State.atPhase_xhandoff_interfere rfl]
    exact State.interfere_sameRegisters _

/-- The move of `sp` that a completed step's own latches give, beside Extend's decrement (R130, R150). -/
def State.spMove (t : State) (f : Flags) : Selector → Word
  | .src => t.latchedDelta f
  | .value => if eligible f t.src t.dst then -1 else 0
  | .dst | .code => 0

/-- The move of `dp` that they give (R131, R150). -/
def State.dpMove (t : State) (f : Flags) : Selector → Word
  | .dst => t.latchedDelta f
  | .value => if eligible f t.src t.dst then 1 else 0
  | .src | .code => 0

/-- The move of `ip` beside the advance (R140). -/
def State.ipMove (t : State) (f : Flags) (c : Selector) : Word := if c = .code then t.latchedDelta f else 0

/-- What a completed step did to the cursors, by its own latches (R110, R113). -/
structure CursorLaw (f : Flags) (c : Selector) (u t : State) : Prop where
  op : t.op = u.op
  ip : t.ip = u.ip + t.ipMove f c + 1
  sp : t.sp = u.sp + t.spMove f c
  dp : t.dp = u.dp + t.dpMove f c

theorem SameRegisters.moves {s t : State} (h : SameRegisters s t) (f : Flags) (c : Selector) :
    t.ipMove f c = s.ipMove f c ∧ t.spMove f c = s.spMove f c ∧ t.dpMove f c = s.dpMove f c := by
  have hd : t.latchedDelta f = s.latchedDelta f := by
    rw [State.latchedDelta, State.latchedDelta, h.src, h.dst, h.mag]
  cases c <;> simp [State.ipMove, State.spMove, State.dpMove, hd, h.src, h.dst]

theorem CursorLaw.congr {f : Flags} {c : Selector} {u v t : State} (h : CursorLaw f c u v) (ht : SameRegisters v t) :
    CursorLaw f c u t := by
  obtain ⟨hip, hsp, hdp⟩ := ht.moves f c
  exact ⟨ht.op.trans h.op, by rw [hip, ht.ip, h.ip], by rw [hsp, ht.sp, h.sp], by rw [hdp, ht.dp, h.dp]⟩

/-- EXEC, with the advance that ends the step, follows the law. -/
theorem ExecuteCase.cursorLaw {f : Flags} {u v : State} {c : Selector} (h : ExecuteCase f u c v)
    (hs : u.status = .running) : CursorLaw f c u (v.interfere.atPhase .xhandoff State.xhandoff) := by
  cases h with
  | ineligible he =>
    rw [State.atPhase_xhandoff_interfere rfl]
    have hd : u.advance.latchedDelta f = 0 := if_neg (by simp [he])
    have hlaw : CursorLaw f c u u.advance := by
      constructor <;> cases c <;> simp [State.ipMove, State.spMove, State.dpMove, hd, he]
    exact hlaw.congr (State.interfere_sameRegisters _)
  | src he | dst he | code he =>
    rw [State.atPhase_xhandoff_interfere rfl]
    refine CursorLaw.congr ?_ (State.interfere_sameRegisters _)
    constructor <;> simp [State.ipMove, State.spMove, State.dpMove, State.latchedDelta, he]
  | value he hd =>
    refine CursorLaw.congr ?_ (State.afterStore_finish hs)
    constructor <;> simp [State.ipMove, State.spMove, State.dpMove, he, sub_eq_add_neg]

/-- From EXEC on, a step whose `dp` names a Word comes to the next FETCH. -/
theorem State.finish_runsAt_fetch {u : State} (hat : u.runsAt .exec) (hd : u.inData u.dp) (f : Flags) (c : Selector) :
    (u.finish f c).runsAt .fetch := by
  obtain ⟨v, hv, hphase⟩ := State.execute_selectorAction_ok hd f c
  have hexec := hat.atPhase (keepsStatus_execute f (keepsStatus_selectorAction c)) hv
  refine State.runsAt_fetch_of_xhandoff ?_
  rcases hphase with hp | hp <;> rw [hp] at hexec
  · exact .inl hexec
  · exact .inr hexec

theorem State.finish_cursorLaw {u : State} (hat : u.runsAt .exec) (hd : u.inData u.dp) (f : Flags) (c : Selector) :
    CursorLaw f c u (u.finish f c) := by
  obtain ⟨v, hv, -⟩ := State.execute_selectorAction_ok hd f c
  rw [State.finish, State.atPhase_run _ hat.1 hat.2, hv, State.orFault_ok]
  exact (State.execute_cases hv).cursorLaw hat.1

/-! ## The loads: the latched opcode, and what EXEC may rely on -/

/-- Between FETCH and EXEC the opcode stays latched, and the step comes to EXEC only past the bounds test of `dp`
(R102, R151). -/
structure LoadProgress (op : Byte) (u : State) : Prop where
  op : u.op = op
  exec : u.phase = .exec → u.status = .running ∧ u.inData u.dp

theorem LoadProgress.interfere {op : Byte} {u : State} (h : LoadProgress op u) : LoadProgress op u.interfere := by
  obtain ⟨hop, hexec⟩ := h
  refine ⟨by rw [State.interfere_op, hop], fun hp => ?_⟩
  rw [State.interfere_phase] at hp
  obtain ⟨hs, hd⟩ := hexec hp
  exact ⟨by rw [State.interfere_status, hs], by rw [State.interfere_dp]; exact (State.inData_congr u.interfere_dataLen _).2 hd⟩

theorem LoadProgress.of_phase_ne {op : Byte} {u : State} (hop : u.op = op) (hp : u.phase ≠ .exec) :
    LoadProgress op u := ⟨hop, fun h => absurd h hp⟩

/-- A phase that is not the last load does not lead to EXEC, and the last load tests `dp`. -/
theorem LoadProgress.atPhase {op : Byte} {u : State} {p : Phase} {g : State → Except Fault State}
    (h : LoadProgress op u) (hp : p ≠ .exec)
    (hg : ∀ t, u.status = .running → u.phase = p → g u = .ok t → LoadProgress op t) :
    LoadProgress op (u.atPhase p g) := by
  by_cases hr : u.status = .running ∧ u.phase = p
  · rw [State.atPhase_run g hr.1 hr.2]
    cases hgu : g u with
    | ok t => exact (hg t hr.1 hr.2 hgu).interfere
    | error e => exact (LoadProgress.of_phase_ne (u := u.takeFault e) h.op (by simpa [hr.2] using hp)).interfere
  · rwa [State.atPhase_skip g (not_and_or.1 hr)]

theorem LoadProgress.mwait {op : Byte} {u t : State} {f : Flags} (h : LoadProgress op u) (hp : u.phase = .mwait)
    (ht : u.mwait f = .ok t) : LoadProgress op t := by
  obtain ⟨l, c, rfl | rfl⟩ := State.mwait_ok_cases ht
  · exact .of_phase_ne h.op (by simp [hp])
  · exact .of_phase_ne h.op (phaseAfterMwait_ne_exec f)

theorem LoadProgress.eload {op : Byte} {u t : State} (h : LoadProgress op u) (ht : u.eload = .ok t) :
    LoadProgress op t := by
  rw [State.eq_of_eload_ok ht]
  exact .of_phase_ne h.op nofun

theorem LoadProgress.loadSrc {op : Byte} {u t : State} (h : LoadProgress op u) (ht : u.loadSrc = .ok t) :
    LoadProgress op t := by
  rw [State.eq_of_loadSrc_ok ht]
  exact .of_phase_ne h.op nofun

theorem LoadProgress.loadDst {op : Byte} {u t : State} (h : LoadProgress op u) (hs : u.status = .running)
    (ht : u.loadDst = .ok t) : LoadProgress op t := by
  have hd := State.inData_of_loadDst_ok ht
  rw [State.eq_of_loadDst_ok ht]
  exact ⟨h.op, fun _ => ⟨hs, hd⟩⟩

theorem loadProgress_loadPhases {s : State} (hs : s.ready) (op : Byte) (f : Flags) :
    LoadProgress op (s.loadPhases op f) := by
  unfold State.loadPhases
  rw [State.atPhase_fetch hs]
  have hlatch : LoadProgress op (s.latch op f) := .of_phase_ne rfl (phaseAfterFetch_ne_exec f)
  have hfetch := hlatch.interfere
  have hmwait := hfetch.atPhase (p := .mwait) (by decide) fun _ _ => hfetch.mwait (f := f)
  have heload := hmwait.atPhase (p := .eload) (by decide) fun _ _ _ => hmwait.eload
  have hsrc := heload.atPhase (p := .loadSrc) (by decide) fun _ _ _ => heload.loadSrc
  exact hsrc.atPhase (p := .loadDst) (by decide) fun _ hr _ => hsrc.loadDst hr

/-- Settles O17: the loads lead to EXEC, and EXEC moves the cursors by its own latches. -/
theorem instructionCompletesUnderInterference : Obligations.InstructionCompletesUnderInterference := by
  intro i s hs hl hw
  refine ⟨_, exec_eq i s, ?_⟩
  have hbefore := beforeExec_loadPhases hs (encodeByte i) i.flags
  have hprogress := loadProgress_loadPhases hs (encodeByte i) i.flags
  have hat := State.loadPhases_runsAt_exec hs (encodeByte i) hl hw
  obtain ⟨-, hd⟩ := hprogress.exec hat.2
  obtain ⟨hrun, hfetch⟩ := State.runPhases_runsAt_fetch hs (encodeByte i) i.selector hl hw
  have hcause : (s.runPhases (encodeByte i) i.flags (selectorAction i.selector)).cause = s.cause := by
    rcases State.runPhases_keptOrFaulted (keepsStatus_selectorAction i.selector) (encodeByte i) i.flags s with
      ⟨-, hc⟩ | ⟨hf, -⟩
    · exact hc
    · rw [hf] at hrun; cases hrun
  have hlaw := State.finish_cursorLaw hat hd i.flags i.selector
  have hsp : (s.loadPhases (encodeByte i) i.flags).sp = s.operandSp i.flags := by rw [hbefore.sp, hat.2]; rfl
  rw [← State.runPhases_eq_finish] at hlaw
  refine ⟨hrun, hfetch, hcause, hlaw.op.trans hprogress.op, ?_, ?_, ?_⟩
  · exact hlaw.ip.trans (by rw [hbefore.ip]; rfl)
  · exact hlaw.sp.trans (by rw [hsp]; cases i <;> rfl)
  · exact hlaw.dp.trans (by rw [hbefore.dp]; cases i <;> rfl)

/-! ## Faulting steps -/

/-- A step that ends FAULTED stopped at a phase before EXEC: from EXEC on nothing faults (R151). -/
theorem State.runPhases_faulted {s : State} {op : Byte} {f : Flags} {c : Selector} (hs : s.ready)
    (hf : (s.runPhases op f (selectorAction c)).status = .faulted) :
    s.runPhases op f (selectorAction c) = s.loadPhases op f := by
  have hprogress := loadProgress_loadPhases hs op f
  have hasked := (beforeExec_loadPhases hs op f).phase
  rw [State.runPhases_eq_finish] at hf ⊢
  have hexec : ¬(s.loadPhases op f).runsAt .exec := fun hat => by
    have hrun := (State.finish_runsAt_fetch hat (hprogress.exec hat.2).2 f c).1
    rw [hf] at hrun
    cases hrun
  have hne : (s.loadPhases op f).phase ≠ .xhandoff := fun h => by simp [h, phaseAsked] at hasked
  rw [State.finish, State.atPhase_skip _ (not_and_or.1 hexec), State.atPhase_skip _ (.inr hne)]

/-- What an undisturbed faulting instruction leaves alone (R228). -/
theorem AloneOutcome.faulted_frame {i : Instr} {s t : State} (hs : s.ready) (h : AloneOutcome i s t)
    (hf : t.status = .faulted) :
    t.data = s.data ∧ t.lt = s.lt ∧ t.writers = s.writers ∧
      (i.flags.mutexWait = false ∨ t.phase = .mwait → t.cells = s.cells) := by
  have hrunning : s.status ≠ .faulted := by rw [hs.1]; decide
  cases h with
  | mwaitFaults => exact ⟨rfl, rfl, rfl, fun _ => rfl⟩
  | waits => exact absurd hf hrunning
  | @loadFaults cs p e hcs hp =>
    have hframe := hp.frame i cs
    refine ⟨hframe.data, hframe.lt, hframe.writers, fun hx => ?_⟩
    rcases hx with hm | hx
    · rcases State.cellsPastMwait_some hcs with ⟨-, rfl⟩ | ⟨hm', -⟩
      · exact hframe.cells
      · rw [hm] at hm'; cases hm'
    · rw [State.takeFault_phase, hframe.phase] at hx
      exact absurd hx hframe.ne_mwait
  | @completes cs => exact absurd ((s.completed_frame cs i).status.symm.trans hf) hrunning

/-- `sp` at the phase a step faulted at (R105, R228). -/
theorem State.spAtPhase_of_fault {s : State} {f : Flags} {p : Phase} (hp : p ≠ .exec) :
    s.spAtPhase f p = if p = .loadSrc ∨ p = .loadDst then s.operandSp f else s.sp := by
  cases p <;> simp_all [State.spAtPhase]

/-- Settles O23: a faulting step ends between FETCH and EXEC. -/
theorem faultingStepIsPrecise : Obligations.FaultingStepIsPrecise := by
  intro i s t hs h hf
  have halone := fun ha => (exec_alone hs ha h).faulted_frame hs hf
  have ht : t = s.loadPhases (encodeByte i) i.flags := by
    rw [exec_eq] at h
    cases h
    exact State.runPhases_faulted hs hf
  have hbefore := beforeExec_loadPhases hs (encodeByte i) i.flags
  have hprogress := loadProgress_loadPhases hs (encodeByte i) i.flags
  rw [← ht] at hbefore hprogress
  have hne : t.phase ≠ .exec := fun hp => by
    have hrun := (hprogress.exec hp).1
    rw [hf] at hrun
    cases hrun
  exact ⟨hbefore.ip, hbefore.dp, hprogress.op, hbefore.sp.trans (State.spAtPhase_of_fault hne), halone⟩

/-! ## The first fault -/

/-- The machine has stopped with fault `e`. -/
def State.stoppedWith (s : State) (e : Fault) : Prop := s.status = .faulted ∧ s.cause = e.toCause

theorem State.stoppedWith.atPhase {u : State} {e : Fault} (h : u.stoppedWith e) (p : Phase)
    (g : State → Except Fault State) : (u.atPhase p g).stoppedWith e := by
  rwa [State.atPhase_skip g (.inl (by simp [h.1]))]

theorem State.runsAt.fault {u : State} {p : Phase} {g : State → Except Fault State} {e : Fault} (h : u.runsAt p)
    (hg : g u = .error e) : (u.atPhase p g).stoppedWith e := by
  rw [State.atPhase_run g h.1 h.2, hg, State.orFault_error]
  exact ⟨State.interfere_status _, State.interfere_cause _⟩

section

variable {s : State} {f : Flags} (hs : s.ready) (op : Byte) (act : State → Except Fault State)

include hs

theorem State.runPhases_noLock (hm : f.mutexWait = true) (hl : s.lockFor s.dp = none) :
    (s.runPhases op f act).stoppedWith .noLock := by
  have hfetch := (BeforeExec.of_latch s op f).interfere
  obtain ⟨-, -, hlt, hparams, -⟩ := hfetch.launch
  have hat : (s.latch op f).interfere.runsAt .mwait :=
    ⟨by simpa using hs.1, by simp [phaseAfterFetch, hm]⟩
  have hl' : (s.latch op f).interfere.lockFor (s.latch op f).interfere.dp = none := by
    rw [State.lockFor_congr hlt hparams, hfetch.dp, hl]
  unfold State.runPhases
  rw [State.atPhase_fetch hs]
  have hstop := hat.fault (State.mwait_of_fault (f := f) (State.machineHandoff_of_no_lock hl'))
  exact ((((hstop.atPhase _ _).atPhase _ _).atPhase _ _).atPhase _ _).atPhase _ _

theorem State.runPhases_spRange (hw : s.mwaitSure f)
    (hd : (f.extend = true ∧ ¬s.inData s.sp) ∨ ¬s.inData (s.operandSp f)) :
    (s.runPhases op f act).stoppedWith .spRange := by
  have hfetch := (BeforeExec.of_latch s op f).interfere
  have hmwait := hfetch.atPhase (p := .mwait) fun _ => hfetch.mwait
  have heload := hmwait.atPhase (p := .eload) fun _ => hmwait.eload
  have atFetched : (s.latch op f).interfere.runsAt (phaseAfterFetch f) :=
    ⟨(State.interfere_status _).trans hs.1, State.interfere_phase _⟩
  have pastMwait := hfetch.runsAt_mwait hw atFetched
  unfold State.runPhases
  rw [State.atPhase_fetch hs]
  by_cases hmag : f.extend = true → s.inData s.sp
  · have hsrc : ¬s.inData (s.operandSp f) := hd.resolve_left fun ⟨he, hn⟩ => hn (hmag he)
    have atLoadSrc := hmwait.runsAt_eload hmag pastMwait
    have hsp := heload.sp
    rw [atLoadSrc.2] at hsp
    have hstop := atLoadSrc.fault (State.loadSrc_error fun h => hsrc (by rw [hsp] at h; exact (heload.inData_iff _).1 h))
    exact ((hstop.atPhase _ _).atPhase _ _).atPhase _ _
  · obtain ⟨he, hn⟩ := Classical.not_imp.1 hmag
    have hsp := hmwait.sp
    rw [pastMwait.2, State.spAtPhase_phaseAfterMwait] at hsp
    rw [phaseAfterMwait, if_pos he] at pastMwait
    have hstop := pastMwait.fault (State.eload_error fun h => hn (by rw [hsp] at h; exact (hmwait.inData_iff _).1 h))
    exact (((hstop.atPhase _ _).atPhase _ _).atPhase _ _).atPhase _ _

theorem State.runPhases_dpRange (hw : s.mwaitSure f) (hmag : f.extend = true → s.inData s.sp)
    (hsrc : s.inData (s.operandSp f)) (hd : ¬s.inData s.dp) : (s.runPhases op f act).stoppedWith .dpRange := by
  have hfetch := (BeforeExec.of_latch s op f).interfere
  have hmwait := hfetch.atPhase (p := .mwait) fun _ => hfetch.mwait
  have heload := hmwait.atPhase (p := .eload) fun _ => hmwait.eload
  have hload := heload.atPhase (p := .loadSrc) fun _ => heload.loadSrc
  have atFetched : (s.latch op f).interfere.runsAt (phaseAfterFetch f) :=
    ⟨(State.interfere_status _).trans hs.1, State.interfere_phase _⟩
  have atLoadSrc := hmwait.runsAt_eload hmag (hfetch.runsAt_mwait hw atFetched)
  have atLoadDst := heload.runsAt_loadSrc hsrc atLoadSrc
  unfold State.runPhases
  rw [State.atPhase_fetch hs]
  have hstop := atLoadDst.fault
    (State.loadDst_error fun h => hd (by rw [hload.dp] at h; exact (hload.inData_iff _).1 h))
  exact (hstop.atPhase _ _).atPhase _ _

end

/-- In a good state every lock of the table has a cell. -/
theorem State.lock_lt_of_tableOk {s : State} (h : s.tableOk = true) {i : Word} {l : LockId}
    (hl : s.lockFor i = some l) : l < s.cells.length := by
  simp only [State.tableOk, Bool.and_eq_true, List.all_eq_true] at h
  have hi : ¬i.toInt < 0 := fun hn => by rw [State.lockFor_of_neg hn] at hl; cases hl
  rw [State.lockFor_of_nonneg (not_lt.1 hi), State.lockOfBlock_eq] at hl
  simpa using h.2 _ (List.mem_of_getElem? hl)

theorem State.mwaitSure_of_good {s : State} {f : Flags} (hgood : s.good = true) (hretry : s.params.mwaitRetry = false)
    (hrel : s.params.relFree = .noop) (hm : ¬(f.mutexWait = true ∧ s.lockFor s.dp = none)) : s.mwaitSure f := by
  intro hmutex
  obtain ⟨l, hl⟩ := Option.ne_none_iff_exists'.1 fun hn => hm ⟨hmutex, hn⟩
  exact ⟨hretry, hrel, l, hl, State.lock_lt_of_tableOk (s.good_iff.1 hgood).table hl⟩

/-- A step's end agrees with the first cause in phase order. -/
def State.reports (t : State) (c : Cause) : Prop :=
  t.cause = c ∧ t.status = if c = .bfNone then .running else .faulted

theorem State.stoppedWith.reports {t : State} {e : Fault} (h : t.stoppedWith e) : t.reports e.toCause :=
  ⟨h.2, by rw [if_neg e.toCause_ne_bfNone, h.1]⟩

/-- An instruction ends with the first cause in the order of the phases, whatever the other agents do (R227). -/
theorem State.runPhases_reports {s : State} (hgood : s.good = true) (hs : s.ready)
    (hretry : s.params.mwaitRetry = false) (hrel : s.params.relFree = .noop) (op : Byte) (f : Flags) (c : Selector) :
    (s.runPhases op f (selectorAction c)).reports (s.firstCause f) := by
  unfold State.firstCause
  split_ifs with hlock hsp hdp
  · exact (State.runPhases_noLock hs op _ hlock.1 hlock.2).reports
  · exact (State.runPhases_spRange hs op _ (State.mwaitSure_of_good hgood hretry hrel hlock) hsp).reports
  · obtain ⟨hmag, hsrc⟩ := not_or.1 hsp
    have hw := State.mwaitSure_of_good hgood hretry hrel hlock
    have hrun := (State.runPhases_runsAt_fetch hs op c
      ⟨fun he => not_not.1 fun hn => hmag ⟨he, hn⟩, not_not.1 hsrc, hdp⟩ hw).1
    have hcause := (s.causeOk_iff.1 (s.good_iff.1 hgood).cause).2 (by rw [hs.1]; decide)
    rcases State.runPhases_keptOrFaulted (keepsStatus_selectorAction c) op f s with ⟨-, hc⟩ | ⟨hf, -⟩
    · exact ⟨hc.trans hcause, hrun⟩
    · rw [hf] at hrun; cases hrun
  · obtain ⟨hmag, hsrc⟩ := not_or.1 hsp
    exact (State.runPhases_dpRange hs op _ (State.mwaitSure_of_good hgood hretry hrel hlock)
      (fun he => not_not.1 fun hn => hmag ⟨he, hn⟩) (not_not.1 hsrc) hdp).reports

/-- Settles O22: a FETCH outside the code array, or the phases of the fetched instruction in their order. -/
theorem faultPriorityIsPhaseOrder : Obligations.FaultPriorityIsPhaseOrder := by
  intro s b hgood hs hretry hrel
  refine ⟨fun hf => ?_, fun hf => ?_⟩
  · exact ⟨_, step_of_case (.codeFault hs.1 hs.2 hf), State.interfere_status _, State.interfere_cause _⟩
  · exact ⟨_, (step_of_fetch hs hf).trans (exec_eq _ s), State.runPhases_reports hgood hs hretry hrel _ _ _⟩

end Sys2Proof.Machine
end

