-- ==== Sys2Proof/Proofs/Launches.lean ====
section
/-! The launch (spec/70_reset_and_hazards.md section 1, spec/44_lock_handoff.md section 6): which launches are accepted,
what the release of reset leaves, and that it is good. -/

namespace Sys2Proof

/-! ## The conditions of launch well-formedness -/

theorem Launch.wf_iff_meets (L : Launch) : L.wf = true ↔ ∀ c, L.meets c = true := by
  rw [Launch.wf, List.all_eq_true]
  refine ⟨fun h c => h c ?_, fun h c _ => h c⟩
  cases c <;> decide

/-- Condition (a). -/
theorem Launch.meets_arraySizes (L : Launch) :
    L.meets .arraySizes = true ↔ L.code.length < 2 ^ 63 ∧ L.words.length < 2 ^ 63 := decide_eq_true_iff

/-- Condition (c). -/
theorem Launch.meets_tableCoversData (L : Launch) :
    L.meets .tableCoversData = true ↔ L.words.length ≤ L.table.length * L.params.blockWords := decide_eq_true_iff

/-- Condition (d). -/
theorem Launch.meets_tableEntries (L : Launch) :
    L.meets .tableEntries = true ↔
      1 ≤ L.lockInit.length ∧ ∀ e ∈ L.table, ∃ l, e = some l ∧ l < L.lockInit.length := by
  simp only [Launch.meets, Bool.and_eq_true, decide_eq_true_eq, List.all_eq_true, Option.any_eq_true]

theorem LockInit.ok_iff (n : Nat) (x : LockInit) :
    x.ok n = true ↔ x = .free ∨ ∃ a, a ≤ n ∧ x = .excl a := by
  cases x with
  | free => simp [LockInit.ok]
  | excl a => simp [LockInit.ok]
  | shared m => simp [LockInit.ok]

/-- Condition (e). -/
theorem Launch.meets_lockInit (L : Launch) :
    L.meets .lockInit = true ↔
      ∀ x ∈ L.lockInit, x = .free ∨ ∃ a, a ≤ L.writers.length ∧ x = .excl a := by
  simp only [Launch.meets, List.all_eq_true, LockInit.ok_iff]

/-- Condition (f). -/
theorem Launch.meets_writerRegions (L : Launch) :
    L.meets .writerRegions = true ↔
      ∀ w ∈ L.writers, w.lock < L.lockInit.length ∧ 1 ≤ w.ctrlLen ∧ w.ctrlBase + w.ctrlLen ≤ L.words.length ∧
        w.payBase + w.payLen ≤ L.words.length := by
  simp only [Launch.meets, List.all_eq_true, WriterConfig.ok, decide_eq_true_eq]

theorem controlRegionsApart_iff (ws : List WriterConfig) :
    controlRegionsApart ws = true ↔
      ws.Pairwise fun v w => v.ctrlBase + v.ctrlLen ≤ w.ctrlBase ∨ w.ctrlBase + w.ctrlLen ≤ v.ctrlBase := by
  induction ws with
  | nil => simp [controlRegionsApart]
  | cons w ws ih =>
    simp only [controlRegionsApart, Bool.and_eq_true, List.all_eq_true, WriterConfig.apart, decide_eq_true_eq, ih,
      List.pairwise_cons]

/-- Condition (g). -/
theorem Launch.meets_controlOverlap (L : Launch) :
    L.meets .controlOverlap = true ↔
      L.writers.Pairwise fun v w => v.ctrlBase + v.ctrlLen ≤ w.ctrlBase ∨ w.ctrlBase + w.ctrlLen ≤ v.ctrlBase :=
  controlRegionsApart_iff _

/-! ## The lock table of a launch -/

/-- The number of OWN entries: the blocks that the loaded Words reach into (R37). -/
def Launch.ownBlocks (L : Launch) : Nat := (L.data.length + L.params.blockWords - 1) / L.params.blockWords

theorem Launch.table_eq (L : Launch) :
    L.table = List.replicate L.ownBlocks (some ownLock) ++
      (L.binds.map fun b => List.replicate b.blockCount (some b.lock)).flatten := rfl

theorem Launch.blockWords_pos (L : Launch) : 0 < L.params.blockWords := Nat.two_pow_pos _

/-- Block `b` is one of them exactly if its first index is loaded. -/
theorem Launch.lt_ownBlocks_iff (L : Launch) (b : Nat) :
    b < L.ownBlocks ↔ b * L.params.blockWords < L.data.length := by
  have hbw := L.blockWords_pos
  rw [Launch.ownBlocks, ← Nat.succ_le_iff, Nat.le_div_iff_mul_le hbw, Nat.succ_mul]
  omega

theorem Launch.ownBlocks_bounds (L : Launch) :
    L.data.length ≤ L.ownBlocks * L.params.blockWords ∧
      L.ownBlocks * L.params.blockWords < L.data.length + L.params.blockWords := by
  have hbw := L.blockWords_pos
  refine ⟨not_lt.1 fun h => absurd ((L.lt_ownBlocks_iff _).2 h) (lt_irrefl _), ?_⟩
  have hle := Nat.div_mul_le_self (L.data.length + L.params.blockWords - 1) L.params.blockWords
  rw [← Launch.ownBlocks] at hle
  omega

end Sys2Proof

namespace Sys2Proof.Machine

/-! ## Acceptance -/

theorem brokenCheck_eq_none_iff (L : Launch) : brokenCheck L = none ↔ L.wf = true := by
  simp [brokenCheck, Launch.wf, List.all_eq_true]

theorem brokenCheck_some {L : Launch} {c : LaunchCheck} (h : brokenCheck L = some c) : L.meets c = false := by
  simpa using List.find?_some h

/-- A launch is accepted exactly if it is well-formed, and gives the state at the release of reset. -/
theorem launch_eq_ok_iff (L : Launch) (env : List (List EnvAction)) (t : State) :
    launch L env = .ok t ↔ L.wf = true ∧ t = bootState L env := by
  unfold launch
  cases hb : brokenCheck L with
  | none => simp [(brokenCheck_eq_none_iff L).1 hb, eq_comm]
  | some c =>
    have hwf : L.wf ≠ true := fun h => by rw [(brokenCheck_eq_none_iff L).2 h] at hb; cases hb
    simp [hwf]

theorem launch_accepts_iff (L : Launch) (env : List (List EnvAction)) :
    (∃ t, launch L env = .ok t) ↔ L.wf = true := by
  simp [launch_eq_ok_iff]

/-- A launch that is not accepted is refused by a condition it breaks. -/
theorem launch_refuses {L : Launch} (env : List (List EnvAction)) (h : L.wf ≠ true) :
    ∃ c, launch L env = .error (.launchIllFormed c) ∧ L.meets c = false := by
  cases hb : brokenCheck L with
  | none => exact absurd ((brokenCheck_eq_none_iff L).1 hb) h
  | some c => exact ⟨c, by simp [launch, hb], brokenCheck_some hb⟩

/-- Settles O47: each check is its condition, and condition (b) holds by the form of the parameters. -/
theorem launchAcceptsExactlyWellFormed : Obligations.LaunchAcceptsExactlyWellFormed := by
  intro L env
  refine ⟨?_, fun hn => launch_refuses env (mt (launch_accepts_iff L env).2 hn)⟩
  rw [launch_accepts_iff, Launch.wf_iff_meets]
  refine ⟨fun h => ?_, fun ⟨hcode, hwords, _, htable, hlocks, hentries, hinit, hwriters, hapart⟩ c => ?_⟩
  · obtain ⟨hcode, hwords⟩ := L.meets_arraySizes.1 (h _)
    obtain ⟨hlocks, hentries⟩ := L.meets_tableEntries.1 (h _)
    exact ⟨hcode, hwords, ⟨_, rfl⟩, L.meets_tableCoversData.1 (h _), hlocks, hentries, L.meets_lockInit.1 (h _),
      L.meets_writerRegions.1 (h _), L.meets_controlOverlap.1 (h _)⟩
  · cases c with
    | arraySizes => exact L.meets_arraySizes.2 ⟨hcode, hwords⟩
    | tableCoversData => exact L.meets_tableCoversData.2 htable
    | tableEntries => exact L.meets_tableEntries.2 ⟨hlocks, hentries⟩
    | lockInit => exact L.meets_lockInit.2 hinit
    | writerRegions => exact L.meets_writerRegions.2 hwriters
    | controlOverlap => exact L.meets_controlOverlap.2 hapart

/-! ## The parts of a launched state -/

theorem Memory.mem_wordCells {a : Nat} {w : Word} {c : Host.Cell} (h : c ∈ Memory.wordCells a w) :
    8 * a ≤ c.1 ∧ c.1 < 8 * (a + 1) := by
  simp only [Memory.wordCells, List.mem_filter, List.mem_map, List.mem_range] at h
  obtain ⟨⟨j, hj, rfl⟩, -⟩ := h
  dsimp only
  omega

/-- Loading Words from index `a` on lists no byte past them. -/
theorem Memory.mem_load (ws : List Word) {a : Nat} {c : Host.Cell} (h : c ∈ Memory.load a ws) :
    c.1 < 8 * (a + ws.length) := by
  induction ws generalizing a with
  | nil => cases h
  | cons w ws ih =>
    rw [List.length_cons]
    rcases List.mem_append.1 h with h | h
    · have := (Memory.mem_wordCells h).2; omega
    · have := ih h; omega

/-- A lock cell that LOCK_INIT may set has no shared hold (R252 (e)). -/
theorem bootState_readers {L : Launch} (hwf : L.wf = true) (env : List (List EnvAction)) {c : LockCell}
    (hc : c ∈ (bootState L env).cells) : c.readers = 0 := by
  obtain ⟨x, hx, rfl⟩ := List.mem_map.1 hc
  rcases L.meets_lockInit.1 (L.wf_iff_meets.1 hwf _) x hx with rfl | ⟨a, -, rfl⟩ <;> rfl

theorem bootState_cfg (L : Launch) (env : List (List EnvAction)) :
    (bootState L env).writers.map Writer.cfg = L.writers := by
  simp [bootState, Writer.ofConfig, Function.comp_def]

@[simp] theorem bootState_cells_length (L : Launch) (env : List (List EnvAction)) :
    (bootState L env).cells.length = L.lockInit.length := by
  simp [bootState]

theorem bootState_memoryOk (L : Launch) (env : List (List EnvAction)) : (bootState L env).memoryOk = true :=
  (State.memoryOk_iff _).2 ⟨Memory.wf_load _, fun c hc => by simpa [bootState] using Memory.mem_load _ hc⟩

theorem bootState_tableOk {L : Launch} (hwf : L.wf = true) (env : List (List EnvAction)) :
    (bootState L env).tableOk = true := by
  have hmeets := L.wf_iff_meets.1 hwf
  obtain ⟨hcode, hwords⟩ := L.meets_arraySizes.1 (hmeets _)
  obtain ⟨hlocks, hentries⟩ := L.meets_tableEntries.1 (hmeets _)
  have htable := L.meets_tableCoversData.1 (hmeets _)
  simp only [State.tableOk, Bool.and_eq_true, decide_eq_true_eq, List.all_eq_true, Option.any_eq_true,
    bootState_cells_length]
  exact ⟨⟨⟨⟨hcode, hwords⟩, htable⟩, hlocks⟩, hentries⟩

theorem bootState_writersOk {L : Launch} (hwf : L.wf = true) (env : List (List EnvAction)) :
    (bootState L env).writersOk = true := by
  have hmeets := L.wf_iff_meets.1 hwf
  rw [State.writersOk, bootState_cfg, bootState_cells_length, Bool.and_eq_true]
  exact ⟨hmeets .writerRegions, hmeets .controlOverlap⟩

theorem bootState_positionsOk (L : Launch) (env : List (List EnvAction)) :
    (bootState L env).positionsOk = true := by
  rw [State.positionsOk_iff]
  intro w hw
  obtain ⟨g, -, rfl⟩ := List.mem_map.1 hw
  rfl

theorem bootState_good {L : Launch} (hwf : L.wf = true) (env : List (List EnvAction)) :
    GoodState (bootState L env) where
  memory := bootState_memoryOk L env
  cells := (cellsOk_iff _).2 fun _ hc => .inr (bootState_readers hwf env hc)
  cause := rfl
  halt := rfl
  table := bootState_tableOk hwf env
  writers := bootState_writersOk hwf env
  positions := bootState_positionsOk L env
  step := rfl

/-- Settles O43: the parts of the invariant at the release of reset. -/
theorem launchIsGood : Obligations.LaunchIsGood := by
  intro L env t h
  obtain ⟨hwf, rfl⟩ := (launch_eq_ok_iff L env t).1 h
  exact (State.good_iff _).2 (bootState_good hwf env)

/-! ## The lock table -/

/-- Settles O45: the table is its OWN entries and then those of the binds. -/
theorem launchAppendsBoundEntries : Obligations.LaunchAppendsBoundEntries := by
  intro L env t h
  obtain ⟨-, rfl⟩ := (launch_eq_ok_iff L env t).1 h
  obtain ⟨hlow, hhigh⟩ := L.ownBlocks_bounds
  refine ⟨L.ownBlocks, hlow, hhigh, ?_, ?_⟩
  · exact List.take_left' (List.length_replicate ..)
  · exact List.drop_left' (List.length_replicate ..)

/-- Settles O46: both are the same closed state. -/
theorem emptyLaunchIsReset : Obligations.EmptyLaunchIsReset :=
  ⟨rfl, rfl, rfl, rfl, rfl, rfl, rfl⟩

/-! ## What the release of reset leaves -/

/-- The reset cursors are DATA_LEN - 1 as a signed number (R37). -/
theorem ofNat_sub_one_toInt {n : Nat} (h : n < 2 ^ 63) : (BitVec.ofNat 64 n - 1 : Word).toInt = (n : Int) - 1 := by
  have hone : (1 : Word).toNat = 1 := rfl
  rw [BitVec.toInt_eq_toNat_cond, BitVec.toNat_sub, BitVec.toNat_ofNat, hone]
  split <;> omega

/-- Settles O44: the fields of the state that an accepted launch gives. -/
theorem launchGivesResetTable : Obligations.LaunchGivesResetTable := by
  intro L env hwf
  have hmeets := L.wf_iff_meets.1 hwf
  obtain ⟨-, hwords⟩ := L.meets_arraySizes.1 (hmeets _)
  refine ⟨_, (launch_eq_ok_iff L env _).2 ⟨hwf, rfl⟩, rfl, rfl, ofNat_sub_one_toInt hwords, ofNat_sub_one_toInt hwords,
    rfl, rfl, rfl, rfl, rfl, fun i w hw => ?_, fun b hb => ?_, bootState_cells_length L env, fun l hl => ?_,
    fun l a hl => ?_, ?_, fun k g hg => ?_⟩
  · have hread := Memory.readWord_load L.words 0 i w hw
    rwa [Nat.zero_add] at hread
  · have hown := (L.lt_ownBlocks_iff b).2 hb
    change L.table[b]? = _
    rw [L.table_eq, List.getElem?_append_left (by simpa using hown), List.getElem?_replicate, if_pos hown]
  · exact ⟨LockCell.ofInit .free, by simp [bootState, hl], rfl, rfl⟩
  · exact ⟨LockCell.ofInit (.excl a), by simp [bootState, hl], rfl, rfl⟩
  · simp [bootState]
  · exact ⟨Writer.ofConfig g, by simp [State.writerAt, bootState, hg], rfl, rfl, rfl, rfl⟩

/-! ## Degenerate launches -/

section

variable {L : Launch} {i : Instr}

theorem bootState_ready (L : Launch) (env : List (List EnvAction)) : (bootState L env).ready := ⟨rfl, rfl⟩

theorem bootState_alone (L : Launch) : (bootState L []).alone := rfl

/-- With no data the cursors are -1: MWAIT finds no lock, and otherwise the first load names no Word. -/
theorem exec_no_data (hw : L.words = []) (i : Instr) :
    ∃ t, exec i (bootState L []) = .next t ∧ t.status = .faulted ∧
      t.cause = if i.flags.mutexWait then .bfLock else .bfSp := by
  have hlen : (bootState L []).dataLen = 0 := congrArg List.length hw
  have hnone : ∀ c, ¬(bootState L []).inData c := fun c ⟨hlow, hhigh⟩ => by rw [hlen] at hhigh; omega
  by_cases hm : i.flags.mutexWait = true
  · have hdp : (bootState L []).dp = -1 := by simp [bootState, Config.dpReset, hw]
    have hlock : (bootState L []).lockFor (bootState L []).dp = none :=
      State.lockFor_of_neg (by rw [hdp]; decide)
    refine ⟨_, exec_of_mwait_fault (bootState_ready L _) (bootState_alone L) hm
      (State.machineHandoff_of_no_lock hlock), rfl, ?_⟩
    rw [if_pos hm]
    rfl
  · have hcs : (bootState L []).cellsPastMwait i.flags = some (bootState L []).cells := if_neg hm
    obtain ⟨p, hp⟩ : ∃ p, LoadFault (bootState L []) i.flags p .spRange := by
      by_cases he : i.flags.extend = true
      · exact ⟨_, .mag he (hnone _)⟩
      · exact ⟨_, .src (fun h => absurd h he) (hnone _)⟩
    refine ⟨_, exec_of_loadFault (bootState_ready L _) (bootState_alone L) hcs hp, rfl, ?_⟩
    rw [if_neg hm]
    rfl

/-- With a data Word every block has a lock whose cell is not shared, so without `MWAIT_RETRY` MWAIT lets the step go
on. -/
theorem bootState_cellsPastMwait (hwf : L.wf = true) (hretry : L.params.mwaitRetry = false) {w : Word}
    (hw : L.words = [w]) (f : Flags) : ∃ cs, (bootState L []).cellsPastMwait f = some cs := by
  cases hcs : (bootState L []).cellsPastMwait f with
  | some cs => exact ⟨cs, rfl⟩
  | none =>
    exfalso
    obtain ⟨-, ⟨e, he⟩ | ⟨hr, -⟩⟩ := State.cellsPastMwait_none hcs
    · have hdp : (bootState L []).dp = 0 := by simp [bootState, Config.dpReset, hw]
      have htable := L.meets_tableCoversData.1 (L.wf_iff_meets.1 hwf _)
      have hpos : 0 < L.table.length := by
        rcases Nat.eq_zero_or_pos L.table.length with h0 | hpos
        · rw [h0, Nat.zero_mul, hw] at htable; simp at htable
        · exact hpos
      obtain ⟨-, hentries⟩ := L.meets_tableEntries.1 (L.wf_iff_meets.1 hwf _)
      obtain ⟨l, hl, hlt⟩ := hentries _ (List.getElem_mem hpos)
      have hlock : (bootState L []).lockFor (bootState L []).dp = some l := by
        rw [hdp, State.lockFor_of_nonneg (by decide), State.lockOfBlock_eq]
        have hb : (0 : Word).toNat / (bootState L []).params.blockWords = 0 := Nat.zero_div _
        rw [hb]
        exact (List.getElem?_eq_getElem hpos).trans (congrArg some hl)
      have hcell := List.getElem?_eq_getElem (l := (bootState L []).cells) (i := l) (by simpa using hlt)
      cases hx : ((bootState L []).cells[l]'(by simpa using hlt)).handoffWait (bootState L []).params.relFree
          machineId with
      | ok r =>
        obtain ⟨got, c'⟩ := r
        rw [State.machineHandoff_eq hlock hcell hx] at he
        cases he
      | error e =>
        obtain ⟨-, -, -, hr⟩ := LockCell.handoffWait_error hx
        exact hr (bootState_readers hwf [] (List.getElem_mem _))
    · have : L.params.mwaitRetry = true := hr
      rw [hretry] at this
      cases this

/-- With one data Word both cursors are 0: an instruction without Extend completes, and one with Extend reads its
magnitude and has no source Word left. -/
theorem exec_one_word (hwf : L.wf = true) (hretry : L.params.mwaitRetry = false) {w : Word} (hw : L.words = [w])
    (i : Instr) :
    ∃ t, exec i (bootState L []) = .next t ∧
      (i.flags.extend = false → t.status = .running ∧ t.phase = .fetch) ∧
      (i.flags.extend = true →
        t.status = .faulted ∧ t.cause = .bfSp ∧ t.phase = .loadSrc ∧ t.mag = w ∧ t.sp = -1) := by
  obtain ⟨cs, hcs⟩ := bootState_cellsPastMwait hwf hretry hw i.flags
  have hs := bootState_ready L []
  have halone := bootState_alone L
  have hlen : (bootState L []).dataLen = 1 := congrArg List.length hw
  have hsp : (bootState L []).sp = 0 := by simp [bootState, Config.spReset, hw]
  have hdp : (bootState L []).dp = 0 := by simp [bootState, Config.dpReset, hw]
  have hzero : (bootState L []).inData 0 := by rw [State.inData, hlen]; decide
  cases he : i.flags.extend with
  | false =>
    have hosp : (bootState L []).operandSp i.flags = 0 := by simp [State.operandSp, he, hsp]
    have hl : (bootState L []).loadsOk i.flags :=
      ⟨fun h => absurd (he.symm.trans h) nofun, hosp ▸ hzero, hdp ▸ hzero⟩
    have hframe := (bootState L []).completed_frame cs i
    exact ⟨_, exec_completes hs halone hcs hl, fun _ => ⟨hframe.status, hframe.phase rfl⟩, nofun⟩
  | true =>
    have hosp : (bootState L []).operandSp i.flags = -1 := by simp [State.operandSp, he, hsp]
    have hp : LoadFault (bootState L []) i.flags .loadSrc .spRange :=
      .src (fun _ => hsp ▸ hzero) (by rw [hosp, State.inData, hlen]; decide)
    have hmag : (bootState L []).loadedMag i.flags = w := by
      rw [State.loadedMag, if_pos he, hsp]
      exact Memory.readWord_load L.words 0 0 w (by simp [hw])
    exact ⟨_, exec_of_loadFault hs halone hcs hp, nofun, fun _ => ⟨rfl, rfl, rfl, hmag, hosp⟩⟩

end

/-- Settles O48: FETCH halts at once without code; otherwise the first instruction runs on the Words there are. -/
theorem degenerateLaunches : Obligations.DegenerateLaunches := by
  intro L s h
  obtain ⟨hwf, rfl⟩ := (launch_eq_ok_iff L [] s).1 h
  refine ⟨fun hcode => ?_, fun b rest hcode => ?_⟩
  · have hhalt : (bootState L []).fetchAtIp = .halt :=
      (State.fetchAtIp_eq_halt_iff _).2 (by simp [bootState, Config.ipReset, hcode])
    rw [step_of_case (.halts rfl rfl hhalt), State.interfere_alone rfl]
  · have hfetch : (bootState L []).fetchAtIp = .opcode b :=
      State.fetchAtIp_of_drop (rest := rest) (by simp [bootState, Config.ipReset])
        (by simp [bootState, Config.ipReset, hcode])
    rw [step_of_fetch (bootState_ready L []) hfetch]
    exact ⟨fun hw => exec_no_data hw _, fun w hw hretry => exec_one_word hwf hretry hw _⟩

end Sys2Proof.Machine
end

