-- ==== Sys2Proof/Proofs/SingleActions.lean ====
section
/-! Single actions: MWAIT (spec/40_step_common.md section 2), the memory port (spec/20_memory.md section 13), a writer
that waits or stops (spec/45_writer_agent.md section 2), and the laws of the guard and of the handoff wait. -/

namespace Sys2Proof.Machine

/-! ## MWAIT -/

theorem phaseAfterMwait_ne_mwait (f : Flags) : phaseAfterMwait f ≠ .mwait := by
  unfold phaseAfterMwait; split <;> decide

theorem phaseAfterFetch_eq_mwait_iff (f : Flags) : phaseAfterFetch f = .mwait ↔ f.mutexWait = true := by
  unfold phaseAfterFetch
  split
  · rename_i hm; exact iff_of_true rfl hm
  · rename_i hm; exact iff_of_false (phaseAfterMwait_ne_mwait f) hm

theorem State.machineAct_mwait {s : State} (hs : s.status = .running) (hp : s.phase = .mwait) :
    s.machineAct = s.orFault (s.mwait (decodeByte s.op).flags) :=
  State.machineAct_of_phase .mwait hs hp (by decide)

/-- Settles O7: the lock of `dp`'s block, and then what the handoff wait on its cell answers. -/
theorem mutexWaitPhaseAction : Obligations.MutexWaitPhaseAction := by
  refine ⟨phaseAfterFetch_eq_mwait_iff, fun s hs hp => ⟨fun hl => ?_, fun l c hl hc =>
    ⟨fun got c' hw => ?_, fun e hw => ?_⟩⟩⟩
  · rw [State.machineAct_mwait hs hp, State.mwait_of_fault (State.machineHandoff_of_no_lock hl)]
    rfl
  · rw [State.machineAct_mwait hs hp, State.mwait_of_handoff (State.machineHandoff_eq hl hc hw), State.orFault_ok]
    simp only [Bool.and_eq_true, Bool.not_eq_true']
    split <;> rfl
  · obtain ⟨rfl, -⟩ := LockCell.handoffWait_error hw
    rw [State.machineAct_mwait hs hp, State.mwait_of_fault (State.machineHandoff_of_error hl hc hw)]
    rfl

/-! ## The guard -/

section

variable {f : Flags}

/-- The three guards of R108, on the signed values. -/
theorem eligible_iff (f : Flags) (a b : Word) :
    eligible f a b = true ↔
      (f.lower = false ∨ a.toInt < b.toInt) ∧ (f.equal = false ∨ a = b) ∧ (f.greater = false ∨ b.toInt < a.toInt) :=
  eligibleIsSignedConjunction f a b

/-- Two comparisons of one pair of Words exclude each other (R109). -/
theorem eligible_of_two_guards
    (h : (f.lower = true ∧ f.equal = true) ∨ (f.lower = true ∧ f.greater = true) ∨
      (f.equal = true ∧ f.greater = true)) (a b : Word) : eligible f a b = false := by
  rw [← Bool.not_eq_true, eligible_iff]
  rintro ⟨hl, he, hg⟩
  rcases h with ⟨hl', he'⟩ | ⟨hl', hg'⟩ | ⟨he', hg'⟩
  · have hab : a = b := he.resolve_left (by simp [he'])
    exact absurd (hl.resolve_left (by simp [hl'])) (by simp [hab])
  · exact absurd (hl.resolve_left (by simp [hl'])) (not_lt.2 (hg.resolve_left (by simp [hg'])).le)
  · have hab : a = b := he.resolve_left (by simp [he'])
    exact absurd (hg.resolve_left (by simp [hg'])) (by simp [hab])

/-- No guard answers yes on exactly two of a smaller, an equal and a greater source (R109). -/
theorem eligible_samples (f : Flags) :
    ¬(eligible f 0 1 = true ∧ eligible f 0 0 = true ∧ eligible f 1 0 = false) ∧
      ¬(eligible f 0 1 = false ∧ eligible f 0 0 = true ∧ eligible f 1 0 = true) ∧
      ¬(eligible f 0 1 = true ∧ eligible f 0 0 = false ∧ eligible f 1 0 = true) := by
  obtain ⟨i, e, m, l, q, g⟩ := f
  cases l <;> cases q <;> cases g <;> decide +revert

/-- Settles O25: the guards that are set, one by one; a test for less or equal, for greater or equal or for not equal
would have to answer yes on exactly two of the three samples. -/
theorem conditionalFlagCombinations : Obligations.ConditionalFlagCombinations := by
  intro f
  refine ⟨fun hl he hg a b => ?_, fun hl he hg a b => ?_, fun hl he hg a b => ?_, fun hl he hg a b => ?_,
    eligible_of_two_guards, fun h => ?_, fun h => ?_, fun h => ?_⟩
  · simp [eligible_iff, hl, he, hg]
  · simp [eligible_iff, hl, he, hg]
  · simp [eligible_iff, hl, he, hg]
  · simp [eligible_iff, hl, he, hg]
  · exact (eligible_samples f).1
      ⟨(h 0 1).2 (by decide), (h 0 0).2 (by decide), Bool.eq_false_iff.2 (mt (h 1 0).1 (by decide))⟩
  · exact (eligible_samples f).2.1
      ⟨Bool.eq_false_iff.2 (mt (h 0 1).1 (by decide)), (h 0 0).2 (by decide), (h 1 0).2 (by decide)⟩
  · exact (eligible_samples f).2.2
      ⟨(h 0 1).2 (by decide), Bool.eq_false_iff.2 (mt (h 0 0).1 (by decide)), (h 1 0).2 (by decide)⟩

end

/-! ## The handoff wait -/

/-- On a cell without shared holds the handoff wait answers the new `excl`, whoever issues it under whatever policy. -/
theorem LockCell.handoffWait_toggles {c : LockCell} (hr : c.readers = 0) (p : RelFreePolicy) (a : AgentId) :
    ∃ c', c.handoffWait p a = .ok (!c.excl, c') ∧ c'.excl = !c.excl ∧ c'.readers = 0 ∧
      (c.excl = false → c'.claim = some a) := by
  cases hc : c.claim with
  | none =>
    have hx := LockCell.excl_of_unclaimed hc
    rw [hx]
    exact ⟨_, LockCell.handoffWait_free p a hc hr, rfl, hr, fun _ => rfl⟩
  | some b =>
    have hx := LockCell.excl_of_claim hc
    rw [hx]
    exact ⟨_, LockCell.handoffWait_claimed p a b hc, rfl, hr, nofun⟩

/-- Settles O36: one toggle, and a second one from the cell it leaves. -/
theorem handoffWaitToggles : Obligations.HandoffWaitToggles := by
  intro c p a hr
  obtain ⟨c', hw, hx, hr', hclaim⟩ := LockCell.handoffWait_toggles hr p a
  refine ⟨c', hw, hx, hr', hclaim, fun q b => ?_⟩
  obtain ⟨c'', hw', hx', -⟩ := LockCell.handoffWait_toggles hr' q b
  rw [hx, Bool.not_not] at hw' hx'
  exact ⟨c'', hw', hx'⟩

/-! ## The memory port -/

section

variable {s : State} {a : AgentId}

theorem State.portIndex_of_not {i : Int} (h : ¬(0 ≤ i ∧ i < s.dataLen)) : s.portIndex i = none := if_neg h

theorem State.portIndex_of_lt {n : Nat} (h : n < s.dataLen) : s.portIndex n = some n :=
  if_pos ⟨Int.natCast_nonneg n, Int.ofNat_lt.2 h⟩

theorem State.portDo_memRead (ha : a ≠ machineId) (i : Int) : s.portDo a (.memRead i) = s.portRead i := if_neg ha

theorem State.portDo_memWrite (ha : a ≠ machineId) (i : Int) (v : Word) :
    s.portDo a (.memWrite i v) = s.portWrite i v := if_neg ha

theorem State.portDo_memCas (ha : a ≠ machineId) (i : Int) (e v : Word) :
    s.portDo a (.memCas i e v) = s.portCas i e v := if_neg ha

/-- Settles O55: the three operations, by whether the index names a Word. -/
theorem memoryPortActions : Obligations.MemoryPortActions := by
  intro s a ha
  refine ⟨fun i hi v e => ?_, fun n hn v e => ?_⟩
  · have hidx := State.portIndex_of_not hi
    rw [State.portDo_memRead ha, State.portDo_memWrite ha, State.portDo_memCas ha]
    simp only [State.portRead, State.portWrite, State.portCas, hidx, and_self]
  · have hidx := State.portIndex_of_lt hn
    rw [State.portDo_memRead ha, State.portDo_memWrite ha, State.portDo_memCas ha]
    simp only [State.portRead, State.portWrite, State.portCas, hidx, State.setWordAt_of_lt _ hn, and_self]

end

/-! ## The writer -/

section

variable {s : State} {k : AgentId} {w : Writer} {r : SinkReply}

theorem State.setWriter_self (hw : s.writerAt k = some w) : s.setWriter k w = s := by
  obtain ⟨-, hk⟩ := State.writerAt_eq_some.1 hw
  obtain ⟨hlt, rfl⟩ := List.getElem?_eq_some_iff.1 hk
  rw [State.setWriter, List.set_getElem_self]

theorem State.writerAct_stopped (hw : s.writerAt k = some w) (hs : w.status ≠ .running) : s.writerAct k r = s := by
  simp only [State.writerAct, hw, if_neg hs]

theorem State.writerHandOver_stopped (hw : s.writerAt k = some w) (hs : w.status ≠ .running) (n : Nat) :
    s.writerHandOver k n = s := by
  simp only [State.writerHandOver, hw, if_neg hs]

/-- An action of a running writer that gives the writer and the state back changes nothing. -/
theorem State.writerAct_kept (hw : s.writerAt k = some w) (h : w.act k r s = (w, s)) : s.writerAct k r = s := by
  by_cases hs : w.status = .running
  · rw [State.writerAct_running r hw hs, h, State.setWriter_self hw]
  · exact State.writerAct_stopped hw hs

theorem Writer.act_acquire {b : Nat} (hp : w.pos = .acquire b) : w.act k r s = w.doAcquire s b := by
  simp only [Writer.act, hp]

theorem Writer.act_readLen (hp : w.pos = .readLen) : w.act k r s = w.doReadLen s := by
  simp only [Writer.act, hp]

theorem Writer.act_flush (hp : w.pos = .flush) : w.act k r s = (w.doFlush r, s) := by
  simp only [Writer.act, hp]

theorem Writer.doAcquire_claimed {b : Nat} {l : LockId} {c : LockCell} {a : AgentId} (hl : s.lockOfBlock b = some l)
    (hc : s.cells[l]? = some c) (ha : c.claim = some a) : w.doAcquire s b = (w, s) := by
  simp only [Writer.doAcquire, hl, hc, LockCell.acqShared_claimed ha]

/-- A range that is negative or ends past the payload region (R196). -/
theorem Writer.rangeOk_eq_false
    (h : w.off.toInt < 0 ∨ w.len.toInt < 0 ∨ (w.cfg.payLen : Int) < w.off.toInt + w.len.toInt) :
    w.rangeOk = false := by
  refine decide_eq_false fun ⟨hoff, hlen, hend⟩ => ?_
  omega

theorem Writer.doReadLen_of_bad_range (hi : w.cfg.ctrlBase + 2 * w.pair + 1 < s.dataLen) {v : Word}
    (hv : s.data.readWord (w.cfg.ctrlBase + 2 * w.pair + 1) = v) (hne : v ≠ 0)
    (hbad : ({ w with len := v } : Writer).rangeOk = false) :
    w.doReadLen s = ({ w with len := v, status := .faulted }, s) := by
  rw [Writer.doReadLen, State.wordAt_of_lt hi, hv]
  simp only [if_neg hne, hbad]
  rfl

end

/-- Settles O57: the acquisition of a claimed cell is not enabled. -/
theorem writerWaitsWhileClaimed : Obligations.WriterWaitsWhileClaimed := by
  intro s k w r b l c a hw hp hl hc ha
  exact State.writerAct_kept hw ((Writer.act_acquire hp).trans (Writer.doAcquire_claimed hl hc ha))

/-- Settles O58: the pair it reads, the sink's answer, and a writer that has stopped. -/
theorem writerStops : Obligations.WriterStops := by
  refine ⟨fun s k w r v hw hs hp hi hv hne hbad => ?_, fun s k w n hw hs hp => ?_, fun s k w hw hs =>
    ⟨fun r => State.writerAct_stopped hw hs, State.writerHandOver_stopped hw hs⟩⟩
  · have hrange : ({ w with len := v } : Writer).rangeOk = false := Writer.rangeOk_eq_false hbad
    rw [State.writerAct_running r hw hs, Writer.act_readLen hp, Writer.doReadLen_of_bad_range hi hv hne hrange]
  · refine ⟨w.doFlush (.failedAfter n), ?_, rfl, ?_⟩
    · rw [State.writerAct_running _ hw hs, Writer.act_flush hp]
    · rw [Writer.doFlush, List.append_assoc, List.take_append_drop]

end Sys2Proof.Machine
end

