-- ==== Sys2Proof/Proofs/ValueRuns.lean ====
section
/-! Runs of `VALUE|Extend` (spec/43_value.md R154): one execution pops two Words and stores their sum, and n of them do
so one after the other. -/

namespace Sys2Proof.Machine

/-! ## Cursors as numbers -/

theorem State.toInt_of_inData {s : State} {c : Word} (h : s.inData c) : c.toInt = c.toNat := by
  obtain ⟨hlow, -⟩ := h
  have hlt := c.isLt
  rw [BitVec.toInt_eq_toNat_cond] at hlow ⊢
  split at hlow <;> rename_i hc
  · rw [if_pos hc]
  · omega

theorem State.inData_of_toNat {s : State} {c : Word} (hlen : s.dataLen < 2 ^ 63) (h : c.toNat < s.dataLen) :
    s.inData c := by
  have hint : c.toInt = c.toNat := by
    rw [BitVec.toInt_eq_toNat_cond, if_pos (by omega)]
  exact ⟨by omega, by omega⟩

theorem toNat_sub_ofNat {c : Word} {k : Nat} (h : k ≤ c.toNat) : (c - BitVec.ofNat 64 k).toNat = c.toNat - k := by
  have hlt := c.isLt
  rw [BitVec.toNat_sub, BitVec.toNat_ofNat]
  omega

/-- A cursor below the largest signed number moves up by 1 as a number. -/
theorem toInt_add_one {c : Word} {n : Nat} (hlow : 0 ≤ c.toInt) (h : c.toInt + 1 ≤ n) (hn : n < 2 ^ 63) :
    (c + 1).toInt = c.toInt + 1 ∧ (c + 1).toNat = c.toNat + 1 := by
  have hlt := c.isLt
  have hone : (1 : Word).toNat = 1 := rfl
  rw [BitVec.toInt_eq_toNat_cond] at hlow h ⊢
  rw [BitVec.toInt_eq_toNat_cond, BitVec.toNat_add, hone]
  split at h <;> split <;> omega

/-! ## One execution -/

/-- The flags of `VALUE|Extend`. -/
def extendOnly : Flags := { Flags.none with extend := true }

theorem State.operandsEligible_extendOnly (s : State) : s.operandsEligible extendOnly = true := rfl

theorem State.cellsPastMwait_extendOnly (s : State) : s.cellsPastMwait extendOnly = some s.cells := rfl

/-- What one `VALUE|Extend` does to the registers and the data array (R154). -/
structure PoppedAndAdded (s t : State) : Prop where
  ready : t.ready
  alone : t.alone
  dataLen : t.dataLen = s.dataLen
  ip : t.ip = s.ip + 1
  sp : t.sp = s.sp - 2
  dp : t.dp = s.dp + 1
  data : t.data = s.data.writeWord s.dp.toNat (s.data.readWord (s.sp.toNat - 1) + s.data.readWord s.sp.toNat)

theorem exec_value_extend {s : State} (hs : s.ready) (halone : s.alone) (hlen : s.dataLen < 2 ^ 63)
    (hsp : s.inData s.sp) (hpos : 1 ≤ s.sp.toNat) (hdp : s.inData s.dp) :
    ∃ t, exec (.value extendOnly) s = .next t ∧ PoppedAndAdded s t := by
  have hosp : (s.operandSp extendOnly).toNat = s.sp.toNat - 1 := toNat_sub_ofNat (k := 1) hpos
  have hoperand : s.inData (s.operandSp extendOnly) :=
    State.inData_of_toNat hlen (by have := State.toNat_lt_of_inData hsp; omega)
  have hframe := s.completed_frame s.cells (.value extendOnly)
  obtain ⟨hip, hsp', hdp'⟩ : (s.completed s.cells (.value extendOnly)).ip = s.ip + 1 ∧
      (s.completed s.cells (.value extendOnly)).sp = s.operandSp extendOnly - 1 ∧
      (s.completed s.cells (.value extendOnly)).dp = s.dp + 1 := by
    obtain ⟨hsp', hdp', hip⟩ := s.completed_cursors s.cells (.value extendOnly)
    exact ⟨hip, hsp', hdp'⟩
  have hexec := exec_completes (i := .value extendOnly) hs halone s.cellsPastMwait_extendOnly
    ⟨fun _ => hsp, hoperand, hdp⟩
  refine ⟨_, hexec, ⟨hframe.status.trans hs.1, hframe.phase hs.2⟩, hframe.env.trans halone, ?_, hip, ?_, hdp', ?_⟩
  · exact (exec_sameLaunch hexec).2.1
  · rw [hsp']
    exact sub_sub s.sp 1 1
  · rw [State.completed_value_data, if_neg (by rw [State.operandsEligible_extendOnly]; decide), State.wordOf, hosp]
    rfl

/-! ## The run -/

/-- Where a run of `n` executions has room (R154). -/
structure RoomFor (n : Nat) (s : State) : Prop where
  dataLen : s.dataLen < 2 ^ 63
  source : 0 < n → s.inData s.sp
  pops : 2 * n ≤ s.sp.toNat + 1
  dpLow : 0 ≤ s.dp.toInt
  dpHigh : s.dp.toInt + n ≤ s.dataLen

theorem RoomFor.next {n : Nat} {s t : State} (h : RoomFor (n + 1) s) (ht : PoppedAndAdded s t) :
    RoomFor n t ∧ t.dp.toNat = s.dp.toNat + 1 ∧ (0 < n → t.sp.toNat = s.sp.toNat - 2) := by
  obtain ⟨hlen, hsource, hpops, hlow, hhigh⟩ := h
  have hsp := State.toNat_lt_of_inData (hsource (Nat.succ_pos n))
  obtain ⟨hint, hnat⟩ := toInt_add_one hlow (n := s.dataLen) (by omega) hlen
  have hpop : 0 < n → t.sp.toNat = s.sp.toNat - 2 := fun hn => by
    rw [ht.sp]
    exact toNat_sub_ofNat (k := 2) (by omega)
  have hlen' : t.dataLen < 2 ^ 63 := by rw [ht.dataLen]; exact hlen
  refine ⟨⟨hlen', fun hn => ?_, ?_, ?_, ?_⟩, by rw [ht.dp, hnat], hpop⟩
  · exact State.inData_of_toNat hlen' (by rw [hpop hn, ht.dataLen]; omega)
  · rcases Nat.eq_zero_or_pos n with rfl | hn
    · omega
    · rw [hpop hn]; omega
  · rw [ht.dp, hint]; omega
  · rw [ht.dp, hint, ht.dataLen]; omega

/-- The last state of a run does not depend on a source index that is not popped any more. -/
theorem Memory.popAdd_congr {m : Memory} {a a' d n : Nat} (h : 0 < n → a = a') :
    m.popAdd a d n = m.popAdd a' d n := by
  cases n with
  | zero => rfl
  | succ n => rw [h (Nat.succ_pos n)]

/-- What `n` executions of `VALUE|Extend` leave. -/
theorem execTimes_value_extend (n : Nat) {s : State} (hs : s.ready) (halone : s.alone) (h : RoomFor n s) :
    ∃ t, execTimes (.value extendOnly) n s = .next t ∧ t.ready ∧ t.sp = s.sp - 2 * BitVec.ofNat 64 n ∧
      t.dp = s.dp + BitVec.ofNat 64 n ∧ t.ip = s.ip + BitVec.ofNat 64 n ∧
      t.data = s.data.popAdd s.sp.toNat s.dp.toNat n := by
  induction n generalizing s with
  | zero => exact ⟨s, rfl, hs, by simp, by simp, by simp, rfl⟩
  | succ n ih =>
    have hsource := h.source (Nat.succ_pos n)
    have hpops := h.pops
    have hdp : s.inData s.dp := ⟨h.dpLow, by have := h.dpHigh; omega⟩
    obtain ⟨u, hu, hpopped⟩ := exec_value_extend hs halone h.dataLen hsource (by omega) hdp
    obtain ⟨hroom, hudp, husp⟩ := h.next hpopped
    obtain ⟨t, ht, hready, hsp', hdp', hip', hdata⟩ := ih hpopped.ready hpopped.alone hroom
    have hsucc : BitVec.ofNat 64 (n + 1) = BitVec.ofNat 64 n + 1 := BitVec.ofNat_add n 1
    refine ⟨t, ?_, hready, ?_, ?_, ?_, ?_⟩
    · rw [execTimes, hu, ← ht]
    · rw [hsp', hpopped.sp, hsucc]; ring
    · rw [hdp', hpopped.dp, hsucc]; ring
    · rw [hip', hpopped.ip, hsucc]; ring
    · rw [hdata, hudp, Memory.popAdd_congr husp, hpopped.data]
      rfl

/-- Settles O53, by induction on n: each execution leaves room for the rest. -/
theorem valueExtendRunPopsAndAdds : Obligations.ValueExtendRunPopsAndAdds :=
  fun n _ hs halone hlen hsp hpops hlow hhigh =>
    execTimes_value_extend n hs halone ⟨hlen, fun _ => hsp, hpops, hlow, hhigh⟩

end Sys2Proof.Machine
end

