-- ==== Sys2Proof/Proofs/DrainCycle.lean ====
section
/-! One drain cycle of a writer with nobody else acting (spec/45_writer_agent.md sections 2 and 3): the scan of the
control region, the copy of the range block by block, the flush, and the zeroing. -/

namespace Sys2Proof.Machine

/-! ## The actions of the cycle, where nothing stops the writer -/

section

variable {s : State} {k : AgentId} {w : Writer} {r : SinkReply}

theorem Writer.act_readOff (hp : w.pos = .readOff) : w.act k r s = w.doReadOff s := by
  simp only [Writer.act, hp]

theorem Writer.act_copy {b a : Nat} (hp : w.pos = .copy b a) : w.act k r s = w.doCopy s b a := by
  simp only [Writer.act, hp]

theorem Writer.act_release {b : Nat} (hp : w.pos = .release b) : w.act k r s = w.doRelease s b := by
  simp only [Writer.act, hp]

theorem Writer.act_zero {i : Nat} (hp : w.pos = .zero i) : w.act k r s = w.doZero s i := by
  simp only [Writer.act, hp]

theorem Writer.doReadOff_of_lt (hi : w.cfg.ctrlBase + 2 * w.pair < s.dataLen) :
    w.doReadOff s = ({ w with off := s.data.readWord (w.cfg.ctrlBase + 2 * w.pair), pos := .readLen }, s) := by
  simp only [Writer.doReadOff, State.wordAt_of_lt hi]

/-- A length of 0 ends the scan (R195). -/
theorem Writer.doReadLen_of_zero (hi : w.cfg.ctrlBase + 2 * w.pair + 1 < s.dataLen)
    (hv : s.data.readWord (w.cfg.ctrlBase + 2 * w.pair + 1) = 0) :
    w.doReadLen s = ({ w with len := 0, pos := .flush }, s) := by
  rw [Writer.doReadLen, State.wordAt_of_lt hi, hv]
  rfl

/-- Any other length of a range inside the payload region begins the copy (R196). -/
theorem Writer.doReadLen_of_range (hi : w.cfg.ctrlBase + 2 * w.pair + 1 < s.dataLen) {v : Word}
    (hv : s.data.readWord (w.cfg.ctrlBase + 2 * w.pair + 1) = v) (hne : v ≠ 0)
    (hrange : ({ w with len := v } : Writer).rangeOk = true) {l : LockId}
    (hl : s.lockOfBlock (s.blockOf ({ w with len := v } : Writer).first) = some l) :
    w.doReadLen s = ({ w with len := v, pos := .acquire (s.blockOf ({ w with len := v } : Writer).first) }, s) := by
  rw [Writer.doReadLen, State.wordAt_of_lt hi, hv]
  simp only [if_neg hne, hrange, if_true, Writer.toBlock, hl]

theorem Writer.doAcquire_open {b : Nat} {l : LockId} {c : LockCell} (hl : s.lockOfBlock b = some l)
    (hc : s.cells[l]? = some c) (hopen : c.claim = none) :
    w.doAcquire s b =
      ({ w with pos := .copy b (max w.first (b * s.params.blockWords)) },
        s.setCell l { c with readers := c.readers + 1 }) := by
  simp only [Writer.doAcquire, hl, hc, LockCell.acqShared_unclaimed hopen]

/-- The last Word of the range in block `b` (R196). -/
def Writer.blockLast (w : Writer) (bw b : Nat) : Nat := min w.last ((b + 1) * bw - 1)

theorem Writer.doCopy_of_lt {b a : Nat} (ha : a < s.dataLen) :
    w.doCopy s b a =
      ({ w with
          outbuf := w.outbuf ++ viewBytes s.params.byteOrder (s.data.readWord a)
          pos := if a < w.blockLast s.params.blockWords b then .copy b (a + 1) else .release b }, s) := by
  simp only [Writer.doCopy, State.wordAt_of_lt ha]
  by_cases h : a < w.blockLast s.params.blockWords b
  · rw [if_pos h, if_pos (show a < min w.last ((b + 1) * s.params.blockWords - 1) from h)]
  · rw [if_neg h, if_neg (show ¬a < min w.last ((b + 1) * s.params.blockWords - 1) from h)]

theorem Writer.doRelease_held {b : Nat} {l : LockId} {c : LockCell} (hl : s.lockOfBlock b = some l)
    (hc : s.cells[l]? = some c) (hheld : 0 < c.readers) :
    w.doRelease s b =
      (if b < s.blockOf w.last then w.toBlock s (b + 1) else w.toPair (w.pair + 1),
        s.setCell l { c with readers := c.readers - 1 }) := by
  simp only [Writer.doRelease, hl, hc, LockCell.relShared_held hheld]

end

/-! ## The writer's actions in a row -/

theorem State.writerRuns_add (k : AgentId) (m n : Nat) (s : State) :
    s.writerRuns k (m + n) = (s.writerRuns k m).writerRuns k n := by
  induction m generalizing s with
  | zero => rw [Nat.zero_add]; rfl
  | succ m ih => rw [Nat.succ_add]; exact ih _

/-- Some number of the writer's actions leads from `s` to `t`. -/
def WriterReaches (k : AgentId) (s t : State) : Prop := ∃ n, s.writerRuns k n = t

theorem WriterReaches.one {k : AgentId} {s t : State} (h : s.writerAct k .accepted = t) : WriterReaches k s t :=
  ⟨1, h⟩

theorem WriterReaches.trans {k : AgentId} {s t u : State} (h : WriterReaches k s t) (h' : WriterReaches k t u) :
    WriterReaches k s u := by
  obtain ⟨m, rfl⟩ := h
  obtain ⟨n, rfl⟩ := h'
  exact ⟨m + n, State.writerRuns_add k m n s⟩

/-- The state with writer `k` at `v` and with this memory and these cells: all that the cycle changes. -/
def State.drained (s : State) (k : AgentId) (m : Memory) (cs : List LockCell) (v : Writer) : State :=
  { s with data := m, cells := cs, writers := s.writers.set (k - 1) v }

section

variable {s : State} {k : AgentId} {w : Writer} (hw : s.writerAt k = some w)

include hw in
theorem State.drained_writerAt (m : Memory) (cs : List LockCell) (v : Writer) :
    (s.drained k m cs v).writerAt k = some v := by
  obtain ⟨hk, hget⟩ := State.writerAt_eq_some.1 hw
  obtain ⟨hlt, -⟩ := List.getElem?_eq_some_iff.1 hget
  exact State.writerAt_eq_some.2 ⟨hk, List.getElem?_set_self hlt⟩

include hw in
/-- One action of the writer in the cycle. -/
theorem WriterReaches.act {m m' : Memory} {cs cs' : List LockCell} {v v' : Writer} (hs : v.status = .running)
    (h : v.act k .accepted (s.drained k m cs v) = (v', s.drained k m' cs' v)) :
    WriterReaches k (s.drained k m cs v) (s.drained k m' cs' v') := by
  refine .one ?_
  rw [State.writerAct_running _ (State.drained_writerAt hw m cs v) hs, h]
  simp only [State.drained, State.setWriter, List.set_set]

/-! ## The scan of the control region -/

include hw in
theorem WriterReaches.readOff {u : Writer} {m : Memory} {cs : List LockCell} (hs : u.status = .running)
    (hp : u.pos = .readOff) (hi : u.cfg.ctrlBase + 2 * u.pair < s.dataLen) :
    WriterReaches k (s.drained k m cs u)
      (s.drained k m cs { u with off := m.readWord (u.cfg.ctrlBase + 2 * u.pair), pos := .readLen }) :=
  .act hw hs ((Writer.act_readOff hp).trans (Writer.doReadOff_of_lt hi))

include hw in
theorem WriterReaches.readLen_range {u : Writer} {m : Memory} {cs : List LockCell} {v : Word} {l : LockId}
    (hs : u.status = .running) (hp : u.pos = .readLen) (hi : u.cfg.ctrlBase + 2 * u.pair + 1 < s.dataLen)
    (hv : m.readWord (u.cfg.ctrlBase + 2 * u.pair + 1) = v) (hne : v ≠ 0)
    (hrange : ({ u with len := v } : Writer).rangeOk = true)
    (hl : s.lockOfBlock (s.blockOf ({ u with len := v } : Writer).first) = some l) :
    WriterReaches k (s.drained k m cs u)
      (s.drained k m cs { u with len := v, pos := .acquire (s.blockOf ({ u with len := v } : Writer).first) }) :=
  .act hw hs ((Writer.act_readLen hp).trans (Writer.doReadLen_of_range (s := s.drained k m cs u) hi hv hne hrange hl))

include hw in
theorem WriterReaches.readLen_zero {u : Writer} {m : Memory} {cs : List LockCell} (hs : u.status = .running)
    (hp : u.pos = .readLen) (hi : u.cfg.ctrlBase + 2 * u.pair + 1 < s.dataLen)
    (hv : m.readWord (u.cfg.ctrlBase + 2 * u.pair + 1) = 0) :
    WriterReaches k (s.drained k m cs u) (s.drained k m cs { u with len := 0, pos := .flush }) :=
  .act hw hs ((Writer.act_readLen hp).trans (Writer.doReadLen_of_zero (s := s.drained k m cs u) hi hv))

include hw in
/-- The scan from pair 1 on, where the length of pair 1 (if there is one) is 0 (R195). -/
theorem WriterReaches.scan_end {u : Writer} {m : Memory} {cs : List LockCell} (hs : u.status = .running)
    (hcfg : u.cfg.ctrlBase + u.cfg.ctrlLen ≤ s.dataLen)
    (hzero : 5 ≤ u.cfg.ctrlLen → m.readWord (u.cfg.ctrlBase + 3) = 0) :
    ∃ off len, WriterReaches k (s.drained k m cs (u.toPair 1))
      (s.drained k m cs { u with pair := 1, off := off, len := len, pos := .flush }) := by
  by_cases h : 2 * 1 + 2 < u.cfg.ctrlLen
  · have hoff : u.cfg.ctrlBase + 2 * 1 < s.dataLen := by omega
    have hlen : u.cfg.ctrlBase + 2 * 1 + 1 < s.dataLen := by omega
    have hread := WriterReaches.readOff hw (u := u.toPair 1) (m := m) (cs := cs) hs (if_pos h) hoff
    exact ⟨m.readWord (u.cfg.ctrlBase + 2 * 1), 0,
      hread.trans (WriterReaches.readLen_zero hw hs rfl hlen (hzero h))⟩
  · refine ⟨u.off, u.len, 0, ?_⟩
    rw [State.writerRuns, Writer.toPair, if_neg h]

/-! ## The copy of the range -/

/-- The writer in the copy of its latched range: at this position, with these bytes in the output buffer. -/
def Writer.copying (u : Writer) (out : List Byte) (p : WriterPos) : Writer := { u with outbuf := out, pos := p }

theorem State.viewFrom_one (s : State) (a : Nat) :
    s.viewFrom a 1 = viewBytes s.params.byteOrder (s.data.readWord a) := by
  simp [State.viewFrom]

theorem State.viewFrom_add (s : State) (a m n : Nat) :
    s.viewFrom a (m + n) = s.viewFrom a m ++ s.viewFrom (a + m) n := by
  simp [State.viewFrom, List.range_add, Function.comp_def, Nat.add_assoc]

/-- The index after the last Word of the range in block `b`; for a block before the last one the next block begins
there. -/
theorem Writer.blockLast_of_lt {u : Writer} {bw b : Nat} (hbw : 0 < bw) (hu : u.coversBlock bw b)
    (hb : b < u.last / bw) : u.blockLast bw b + 1 = max u.first ((b + 1) * bw) := by
  obtain ⟨-, -, hfirst, -⟩ := hu
  have hnext : u.first < (b + 1) * bw := (Nat.div_lt_iff_lt_mul hbw).1 (Nat.lt_succ_of_le hfirst)
  have hlast : (b + 1) * bw ≤ u.last := (Nat.le_div_iff_mul_le hbw).1 hb
  unfold Writer.blockLast
  omega

theorem Writer.blockLast_of_eq {u : Writer} {bw b : Nat} (hbw : 0 < bw) (hb : b = u.last / bw) :
    u.blockLast bw b = u.last := by
  have hlast : u.last < (b + 1) * bw := (Nat.div_lt_iff_lt_mul hbw).1 (by omega)
  unfold Writer.blockLast
  omega

section

variable {u : Writer} (hs : u.status = .running) (hlast : u.last < s.dataLen)

include hw hs in
theorem WriterReaches.copyWord {b a : Nat} {cs : List LockCell} {out : List Byte} (ha : a < s.dataLen) :
    WriterReaches k (s.drained k s.data cs (u.copying out (.copy b a)))
      (s.drained k s.data cs (u.copying (out ++ s.viewFrom a 1)
        (if a < u.blockLast s.params.blockWords b then .copy b (a + 1) else .release b))) := by
  rw [State.viewFrom_one]
  exact .act hw hs ((Writer.act_copy rfl).trans (Writer.doCopy_of_lt ha))

include hw hs hlast in
/-- From Word `a` of block `b` the rest of the range's Words in that block is copied (R196, R197). -/
theorem WriterReaches.copyWords {b : Nat} {cs : List LockCell} (n : Nat) {a : Nat} {out : List Byte}
    (ha : a + n = u.blockLast s.params.blockWords b) :
    WriterReaches k (s.drained k s.data cs (u.copying out (.copy b a)))
      (s.drained k s.data cs (u.copying (out ++ s.viewFrom a (n + 1)) (.release b))) := by
  have hle : u.blockLast s.params.blockWords b ≤ u.last := Nat.min_le_left _ _
  induction n generalizing a out with
  | zero =>
    have hstep := copyWord hw hs (b := b) (cs := cs) (out := out) (a := a) (by omega)
    rwa [if_neg (by omega)] at hstep
  | succ n ih =>
    have hstep := copyWord hw hs (b := b) (cs := cs) (out := out) (a := a) (by omega)
    rw [if_pos (by omega)] at hstep
    rw [Nat.add_comm (n + 1) 1, State.viewFrom_add, ← List.append_assoc]
    exact hstep.trans (ih (by omega))

include hw hs in
theorem WriterReaches.acquireBlock {b : Nat} {out : List Byte} {l : LockId} {c : LockCell}
    (hl : s.lockOfBlock b = some l) (hc : s.cells[l]? = some c) (hopen : c.claim = none) :
    WriterReaches k (s.drained k s.data s.cells (u.copying out (.acquire b)))
      (s.drained k s.data (s.cells.set l { c with readers := c.readers + 1 })
        (u.copying out (.copy b (max u.first (b * s.params.blockWords))))) :=
  .act hw hs ((Writer.act_acquire (w := u.copying out (.acquire b)) rfl).trans
    (Writer.doAcquire_open (w := u.copying out (.acquire b)) hl hc hopen))

include hw hs in
/-- The release of a block's lock gives the cells that stood before its acquisition. -/
theorem WriterReaches.releaseBlock {b : Nat} {out : List Byte} {l : LockId} {c : LockCell}
    (hl : s.lockOfBlock b = some l) (hc : s.cells[l]? = some c) :
    WriterReaches k
      (s.drained k s.data (s.cells.set l { c with readers := c.readers + 1 }) (u.copying out (.release b)))
      (s.drained k s.data s.cells
        (if b < s.blockOf u.last then (u.copying out (.release b)).toBlock s (b + 1)
          else (u.copying out (.release b)).toPair (u.pair + 1))) := by
  obtain ⟨hlt, hcl⟩ := List.getElem?_eq_some_iff.1 hc
  have hheld : (s.cells.set l { c with readers := c.readers + 1 })[l]? = some { c with readers := c.readers + 1 } :=
    List.getElem?_set_self hlt
  have hback : (s.cells.set l { c with readers := c.readers + 1 }).set l c = s.cells := by
    rw [List.set_set, ← hcl, List.set_getElem_self]
  refine .act hw hs ((Writer.act_release rfl).trans ?_)
  have hrel := Writer.doRelease_held (w := u.copying out (.release b))
    (s := s.drained k s.data (s.cells.set l { c with readers := c.readers + 1 }) (u.copying out (.release b)))
    hl hheld (Nat.succ_pos _)
  refine hrel.trans ?_
  show (_, s.drained k s.data ((s.cells.set l _).set l c) (u.copying out (.release b))) = _
  rw [hback]
  rfl

/-- The bytes of `out` and then those of the range's Words below data index `a`. -/
def State.viewUpTo (s : State) (u : Writer) (out : List Byte) (a : Nat) : List Byte :=
  out ++ s.viewFrom u.first (a - u.first)

theorem State.viewUpTo_append {out : List Byte} {a : Nat} (n : Nat) (ha : u.first ≤ a) :
    s.viewUpTo u out a ++ s.viewFrom a n = s.viewUpTo u out (a + n) := by
  have hstart : u.first + (a - u.first) = a := Nat.add_sub_cancel' ha
  have hlen : a + n - u.first = a - u.first + n := by omega
  rw [State.viewUpTo, State.viewUpTo, hlen, State.viewFrom_add, hstart, List.append_assoc]

include hw hs hlast in
/-- From the acquisition of a block's lock to its release the range's Words in that block are copied (R196). -/
theorem WriterReaches.copyBlock {b : Nat} (out : List Byte) (hu : u.coversBlock s.params.blockWords b)
    (hopen : s.blocksOpen u.first u.last) :
    WriterReaches k
      (s.drained k s.data s.cells
        (u.copying (s.viewUpTo u out (max u.first (b * s.params.blockWords))) (.acquire b)))
      (s.drained k s.data s.cells
        (if b < s.blockOf u.last then
          u.copying (s.viewUpTo u out (max u.first ((b + 1) * s.params.blockWords))) (.acquire (b + 1))
        else (u.copying (s.viewUpTo u out (u.last + 1)) (.release b)).toPair (u.pair + 1))) := by
  have hbw := s.blockWords_pos
  have hstart := Writer.copy_start_le hbw hu
  have ⟨_, _, hfrom, hto⟩ := hu
  obtain ⟨l, c, hl, hc, hclaim⟩ := hopen b hfrom hto
  have hcopied : max u.first (b * s.params.blockWords) +
      (u.blockLast s.params.blockWords b - max u.first (b * s.params.blockWords) + 1) =
        u.blockLast s.params.blockWords b + 1 :=
    congrArg (· + 1) (Nat.add_sub_cancel' hstart)
  have hcopy := (WriterReaches.acquireBlock hw hs (u := u) hl hc hclaim
      (out := s.viewUpTo u out (max u.first (b * s.params.blockWords)))).trans
    (WriterReaches.copyWords hw hs hlast _ (Nat.add_sub_cancel' hstart))
  rw [State.viewUpTo_append _ (Nat.le_max_left _ _), hcopied] at hcopy
  have hblock := hcopy.trans (WriterReaches.releaseBlock hw hs hl hc)
  by_cases hb : b < s.blockOf u.last
  · obtain ⟨l', -, hl', -⟩ := hopen (b + 1) (Nat.le_succ_of_le hfrom) hb
    rw [if_pos hb, Writer.blockLast_of_lt hbw hu hb, Writer.toBlock, hl'] at hblock
    rwa [if_pos hb]
  · rw [if_neg hb, Writer.blockLast_of_eq hbw (Nat.le_antisymm hto (Nat.le_of_not_lt hb))] at hblock
    rwa [if_neg hb]

include hw hs hlast in
/-- From the acquisition of the lock of one of the range's blocks the rest of the range is copied, and the writer goes
on to the next pair (R196). -/
theorem WriterReaches.copyRange (n : Nat) {b : Nat} (out : List Byte) (hb : b + n = s.blockOf u.last)
    (hu : u.coversBlock s.params.blockWords b) (hopen : s.blocksOpen u.first u.last) :
    WriterReaches k
      (s.drained k s.data s.cells
        (u.copying (s.viewUpTo u out (max u.first (b * s.params.blockWords))) (.acquire b)))
      (s.drained k s.data s.cells
        ({ u with outbuf := s.viewUpTo u out (u.last + 1) }.toPair (u.pair + 1))) := by
  induction n generalizing b with
  | zero =>
    have hblock := WriterReaches.copyBlock hw hs hlast out hu hopen
    rwa [if_neg (by omega)] at hblock
  | succ n ih =>
    have hblock := WriterReaches.copyBlock hw hs hlast out hu hopen
    rw [if_pos (by omega)] at hblock
    obtain ⟨hrange, hlen, hfirst, -⟩ := hu
    have hnext : u.coversBlock s.params.blockWords (b + 1) :=
      ⟨hrange, hlen, Nat.le_succ_of_le hfirst, show b + 1 ≤ s.blockOf u.last by omega⟩
    exact hblock.trans (ih (by omega) hnext)

end

/-! ## The flush and the zeroing -/

include hw in
theorem WriterReaches.flush {u : Writer} {m : Memory} {cs : List LockCell} (hs : u.status = .running)
    (hp : u.pos = .flush) :
    WriterReaches k (s.drained k m cs u)
      (s.drained k m cs { u with sink := u.sink ++ u.outbuf, outbuf := [], pos := .zero 0 }) :=
  .act hw hs (Writer.act_flush hp)

include hw in
theorem WriterReaches.zeroWord {v : Writer} {m : Memory} {cs : List LockCell} {i : Nat} (hs : v.status = .running)
    (hi : v.cfg.ctrlBase + i < s.dataLen) :
    WriterReaches k (s.drained k m cs { v with pos := .zero i })
      (s.drained k (m.writeWord (v.cfg.ctrlBase + i) 0) cs
        { v with pos := if i + 1 < v.cfg.ctrlLen then .zero (i + 1) else .handoff }) :=
  .act hw hs ((Writer.act_zero rfl).trans (congrArg (Prod.mk _) (State.setWordAt_of_lt 0 hi)))

include hw in
/-- From W4 at Word `i` the rest of the control region is zeroed and the writer is back at W1 (R199). -/
theorem WriterReaches.zeroing {v : Writer} {cs : List LockCell} (hs : v.status = .running)
    (hcfg : v.cfg.ctrlBase + v.cfg.ctrlLen ≤ s.dataLen) (n : Nat) {i : Nat} {m : Memory}
    (hi : i + (n + 1) = v.cfg.ctrlLen) (hwf : m.wf = true) :
    ∃ m', WriterReaches k (s.drained k m cs { v with pos := .zero i })
        (s.drained k m' cs { v with pos := .handoff }) ∧
      ∀ j, m'.readWord j =
        if v.cfg.ctrlBase + i ≤ j ∧ j < v.cfg.ctrlBase + v.cfg.ctrlLen then 0 else m.readWord j := by
  induction n generalizing i m with
  | zero =>
    have hstep := WriterReaches.zeroWord hw (m := m) (cs := cs) (i := i) hs (by omega)
    rw [if_neg (by omega)] at hstep
    refine ⟨_, hstep, fun j => ?_⟩
    have hj : v.cfg.ctrlBase + i ≤ j ∧ j < v.cfg.ctrlBase + v.cfg.ctrlLen ↔ j = v.cfg.ctrlBase + i := by omega
    rw [Memory.readWord_writeWord hwf]
    simp only [hj]
  | succ n ih =>
    have hstep := WriterReaches.zeroWord hw (m := m) (cs := cs) (i := i) hs (by omega)
    rw [if_pos (by omega)] at hstep
    obtain ⟨m', hrest, hread⟩ := ih (i := i + 1) (by omega) (Memory.wf_writeWord hwf (v.cfg.ctrlBase + i) 0)
    refine ⟨m', hstep.trans hrest, fun j => ?_⟩
    rw [hread, Memory.readWord_writeWord hwf]
    by_cases hj : j = v.cfg.ctrlBase + i
    · rw [if_neg (by omega), if_pos hj, if_pos (by omega)]
    · have hiff : v.cfg.ctrlBase + (i + 1) ≤ j ∧ j < v.cfg.ctrlBase + v.cfg.ctrlLen ↔
          v.cfg.ctrlBase + i ≤ j ∧ j < v.cfg.ctrlBase + v.cfg.ctrlLen := by omega
      simp only [hiff, if_neg hj]

end

/-! ## The whole cycle -/

/-- The writer with its one range latched at pair 0. -/
def Writer.latched (w : Writer) (o l : Nat) : Writer :=
  { w with pair := 0, off := BitVec.ofNat 64 o, len := BitVec.ofNat 64 l }

/-- Where the cycle starts: what O60 assumes of the state, of the writer and of its one range. -/
structure DrainReady (s : State) (w : Writer) (o l : Nat) : Prop where
  canonical : s.data.wf = true
  control : w.cfg.ctrlBase + w.cfg.ctrlLen ≤ s.dataLen
  payload : w.cfg.payBase + w.cfg.payLen ≤ s.dataLen
  small : s.dataLen < 2 ^ 63
  running : w.status = .running
  pos : w.pos = .testClear
  empty : w.outbuf = []
  pairFits : 3 ≤ w.cfg.ctrlLen
  flag : s.data.readWord (flagIndex w.cfg) = 1
  off : s.data.readWord w.cfg.ctrlBase = BitVec.ofNat 64 o
  len : s.data.readWord (w.cfg.ctrlBase + 1) = BitVec.ofNat 64 l
  pairOne : 5 ≤ w.cfg.ctrlLen → s.data.readWord (w.cfg.ctrlBase + 3) = 0
  lenPos : 0 < l
  range : o + l ≤ w.cfg.payLen
  apart : w.cfg.payBase + o + l ≤ w.cfg.ctrlBase ∨ w.cfg.ctrlBase + w.cfg.ctrlLen ≤ w.cfg.payBase + o
  opened : s.blocksOpen (w.cfg.payBase + o) (w.cfg.payBase + o + l - 1)

section

variable {s : State} {k : AgentId} {w : Writer} {o l : Nat}

theorem toNat_ofNat_of_lt {n : Nat} (h : n < 2 ^ 63) : (BitVec.ofNat 64 n : Word).toNat = n := by
  rw [BitVec.toNat_ofNat]
  omega

theorem toInt_ofNat_of_lt {n : Nat} (h : n < 2 ^ 63) : (BitVec.ofNat 64 n : Word).toInt = n := by
  rw [BitVec.toInt_eq_toNat_of_lt (by rw [toNat_ofNat_of_lt h]; omega), toNat_ofNat_of_lt h]

theorem DrainReady.off_lt (h : DrainReady s w o l) : o < 2 ^ 63 := by
  have := h.payload; have := h.small; have := h.range; omega

theorem DrainReady.len_lt (h : DrainReady s w o l) : l < 2 ^ 63 := by
  have := h.payload; have := h.small; have := h.range; omega

theorem DrainReady.first (h : DrainReady s w o l) : (w.latched o l).first = w.cfg.payBase + o :=
  congrArg (w.cfg.payBase + ·) (toNat_ofNat_of_lt h.off_lt)

theorem DrainReady.last (h : DrainReady s w o l) : (w.latched o l).last = w.cfg.payBase + o + l - 1 := by
  simp only [Writer.last, Writer.latched, toNat_ofNat_of_lt h.off_lt, toNat_ofNat_of_lt h.len_lt]

theorem DrainReady.len_ne (h : DrainReady s w o l) : (BitVec.ofNat 64 l : Word) ≠ 0 := by
  intro h0
  have hl := toNat_ofNat_of_lt h.len_lt
  rw [h0] at hl
  exact h.lenPos.ne hl

theorem DrainReady.rangeOk (h : DrainReady s w o l) : (w.latched o l).rangeOk = true := by
  have hrange := h.range
  simp only [Writer.rangeOk, Writer.latched, toInt_ofNat_of_lt h.off_lt, toInt_ofNat_of_lt h.len_lt, decide_eq_true_eq]
  omega

/-- Words other than the flag word are still as they were after the test and clear of W2. -/
theorem DrainReady.readWord_cleared (h : DrainReady s w o l) {i : Nat} (hi : i ≠ flagIndex w.cfg) :
    (s.data.writeWord (flagIndex w.cfg) 0).readWord i = s.data.readWord i := by
  rw [Memory.readWord_writeWord h.canonical, if_neg hi]

/-- The memory after the test and clear of W2. -/
def State.flagCleared (s : State) (w : Writer) : State := { s with data := s.data.writeWord (flagIndex w.cfg) 0 }

/-- The Words of the range stand outside the control region, so the sink is given them as they were at the start. -/
theorem DrainReady.viewFrom_cleared (h : DrainReady s w o l) :
    (s.flagCleared w).viewFrom (w.cfg.payBase + o) l = s.viewFrom (w.cfg.payBase + o) l := by
  have hctrl := h.pairFits
  have hapart := h.apart
  simp only [State.viewFrom]
  refine congrArg List.flatten (List.map_congr_left fun d hd => congrArg _ (h.readWord_cleared ?_))
  have hd := List.mem_range.1 hd
  unfold flagIndex
  omega

/-- W2 and W3: the flag is cleared and the range is latched; the copy of it begins (R194 to R196). -/
theorem DrainReady.scan (h : DrainReady s w o l) (hw : s.writerAt k = some w) :
    WriterReaches k s ((s.flagCleared w).drained k (s.flagCleared w).data s.cells
      ((w.latched o l).copying [] (.acquire (s.blockOf (w.latched o l).first)))) := by
  have hctrl := h.control
  have hlen := h.pairFits
  have hflag : flagIndex w.cfg < s.dataLen := by unfold flagIndex; omega
  have hpair : w.toPair 0 = { w with pair := 0, pos := .readOff } := by
    rw [Writer.toPair, if_pos (by omega)]
  have hclear : WriterReaches k s
      (s.drained k (s.flagCleared w).data s.cells { w with pair := 0, pos := .readOff }) := by
    refine .one ?_
    rw [State.writerAct_running _ hw h.running, Writer.act_testClear k _ s h.pos, Writer.doTestClear_of_one hflag h.flag,
      hpair, State.setWordAt_of_lt 0 hflag]
    rfl
  have hoff := WriterReaches.readOff hw (u := { w with pair := 0, pos := .readOff })
    (m := (s.flagCleared w).data) (cs := s.cells) h.running rfl (show w.cfg.ctrlBase + 2 * 0 < s.dataLen by omega)
  have hoffword : (s.flagCleared w).data.readWord (w.cfg.ctrlBase + 2 * 0) = BitVec.ofNat 64 o :=
    (h.readWord_cleared (by unfold flagIndex; omega)).trans h.off
  have hlenword : (s.flagCleared w).data.readWord (w.cfg.ctrlBase + 2 * 0 + 1) = BitVec.ofNat 64 l :=
    (h.readWord_cleared (by unfold flagIndex; omega)).trans h.len
  obtain ⟨lock, -, hlock, -⟩ := h.opened _ (Nat.le_refl _) (Nat.div_le_div_right (by have := h.lenPos; omega))
  rw [← h.first] at hlock
  have hread := WriterReaches.readLen_range hw (cs := s.cells)
    (u := { w with pair := 0, off := BitVec.ofNat 64 o, pos := .readLen }) h.running rfl
    (show w.cfg.ctrlBase + 2 * 0 + 1 < s.dataLen by omega) hlenword h.len_ne h.rangeOk hlock
  rw [hoffword] at hoff
  have hstart : (w.latched o l).copying [] (.acquire (s.blockOf (w.latched o l).first)) =
      { w.latched o l with pos := .acquire (s.blockOf (w.latched o l).first) } := by
    rw [Writer.copying, ← h.empty]
    rfl
  rw [hstart]
  exact hclear.trans (hoff.trans hread)

/-- Copy: the Words of the range, as they were at the start, are in the output buffer (R196, R197). -/
theorem DrainReady.copy (h : DrainReady s w o l) (hw : s.writerAt k = some w) :
    WriterReaches k
      ((s.flagCleared w).drained k (s.flagCleared w).data s.cells
        ((w.latched o l).copying [] (.acquire (s.blockOf (w.latched o l).first))))
      ((s.flagCleared w).drained k (s.flagCleared w).data s.cells
        ({ w.latched o l with outbuf := s.viewFrom (w.cfg.payBase + o) l }.toPair 1)) := by
  have hpay := h.payload
  have hrange := h.range
  have hpos := h.lenPos
  have hlast : (w.latched o l).last < (s.flagCleared w).dataLen := by
    show _ < s.dataLen
    rw [h.last]
    omega
  have hblocks : s.blockOf (w.latched o l).first ≤ s.blockOf (w.latched o l).last :=
    Nat.div_le_div_right (Writer.first_le_last h.len_ne)
  have hopen : (s.flagCleared w).blocksOpen (w.latched o l).first (w.latched o l).last := by
    rw [h.first, h.last]
    exact h.opened
  have hbegin : max (w.latched o l).first (s.blockOf (w.latched o l).first * s.params.blockWords) =
      (w.latched o l).first :=
    Nat.max_eq_left (Nat.div_mul_le_self _ _)
  have hempty : (s.flagCleared w).viewUpTo (w.latched o l) []
      (max (w.latched o l).first (s.blockOf (w.latched o l).first * s.params.blockWords)) = [] := by
    rw [hbegin, State.viewUpTo, Nat.sub_self]
    rfl
  have hbytes : (s.flagCleared w).viewUpTo (w.latched o l) [] ((w.latched o l).last + 1) =
      s.viewFrom (w.cfg.payBase + o) l := by
    have hcount : w.cfg.payBase + o + l - 1 + 1 - (w.cfg.payBase + o) = l := by omega
    rw [State.viewUpTo, h.first, h.last, hcount, h.viewFrom_cleared, List.nil_append]
  have hcopy := WriterReaches.copyRange (s := s.flagCleared w) hw (u := w.latched o l) h.running hlast _ []
    (Nat.add_sub_cancel' hblocks) ⟨h.rangeOk, h.len_ne, Nat.le_refl _, hblocks⟩ hopen
  rw [hbytes] at hcopy
  rw [← hempty]
  exact hcopy

/-- The writer when the flush of the range is done and the zeroing begins; its latches hold what the scan read last. -/
def Writer.flushed (w : Writer) (off len : Word) (bytes : List Byte) : Writer :=
  { w with pair := 1, off := off, len := len, outbuf := [], sink := w.sink ++ bytes }

/-- From W2 to the end of the flush (R194 to R198). -/
theorem DrainReady.emit (h : DrainReady s w o l) (hw : s.writerAt k = some w) :
    ∃ off len, WriterReaches k s (s.drained k (s.flagCleared w).data s.cells
      { w.flushed off len (s.viewFrom (w.cfg.payBase + o) l) with pos := .zero 0 }) := by
  have hlen := h.pairFits
  have hnone : 5 ≤ w.cfg.ctrlLen → (s.flagCleared w).data.readWord (w.cfg.ctrlBase + 3) = 0 := fun h5 =>
    (h.readWord_cleared (by unfold flagIndex; omega)).trans (h.pairOne h5)
  obtain ⟨off, len, hend⟩ := WriterReaches.scan_end hw (m := (s.flagCleared w).data) (cs := s.cells)
    (u := { w.latched o l with outbuf := s.viewFrom (w.cfg.payBase + o) l }) h.running h.control hnone
  exact ⟨off, len, (h.scan hw).trans ((h.copy hw).trans (hend.trans (WriterReaches.flush hw h.running rfl)))⟩

/-- From W2 to the end of the zeroing (R194 to R199): the control region is zeroed and no other Word changes. -/
theorem DrainReady.cycle (h : DrainReady s w o l) (hw : s.writerAt k = some w) :
    ∃ off len m', WriterReaches k s (s.drained k m' s.cells
        { w.flushed off len (s.viewFrom (w.cfg.payBase + o) l) with pos := .handoff }) ∧
      ∀ j, m'.readWord j =
        if w.cfg.ctrlBase ≤ j ∧ j < w.cfg.ctrlBase + w.cfg.ctrlLen then 0 else s.data.readWord j := by
  have hlen := h.pairFits
  obtain ⟨off, len, hemit⟩ := h.emit hw
  obtain ⟨m', hzero, hread⟩ := WriterReaches.zeroing hw (cs := s.cells)
    (v := w.flushed off len (s.viewFrom (w.cfg.payBase + o) l)) h.running h.control (w.cfg.ctrlLen - 1) (i := 0)
    (show 0 + (w.cfg.ctrlLen - 1 + 1) = w.cfg.ctrlLen by omega)
    (Memory.wf_writeWord h.canonical (flagIndex w.cfg) 0)
  refine ⟨off, len, m', hemit.trans hzero, fun j => (hread j).trans ?_⟩
  by_cases hj : w.cfg.ctrlBase ≤ j ∧ j < w.cfg.ctrlBase + w.cfg.ctrlLen
  · rw [if_pos hj]
    exact if_pos hj
  · rw [if_neg hj, ← h.readWord_cleared (i := j) (by unfold flagIndex; omega)]
    exact if_neg hj

end

/-- What a good state gives the cycle: canonical memory, and both regions of the writer inside the data array. -/
theorem State.writer_regions_of_good {s : State} {k : AgentId} {w : Writer} (hgood : s.good = true)
    (hw : s.writerAt k = some w) :
    s.data.wf = true ∧ w.cfg.ctrlBase + w.cfg.ctrlLen ≤ s.dataLen ∧ w.cfg.payBase + w.cfg.payLen ≤ s.dataLen ∧
      s.dataLen < 2 ^ 63 := by
  have hparts := (State.good_iff s).1 hgood
  obtain ⟨-, -, hcontrol, hpayload⟩ := State.cfg_ok_of_writersOk hparts.writers (State.mem_of_writerAt hw)
  have htable := hparts.table
  simp only [State.tableOk, Bool.and_eq_true, decide_eq_true_eq] at htable
  obtain ⟨⟨⟨⟨-, hsmall⟩, -⟩, -⟩, -⟩ := htable
  exact ⟨((State.memoryOk_iff s).1 hparts.memory).1, hcontrol, hpayload, hsmall⟩

/-- Settles O60: the writer's own actions are the cycle from W2 through the scan, the copy block by block, the flush and
the zeroing; between them they change memory, the cells and the writer, and each block's release restores its cell. -/
theorem writerDrainRoundTrip : Obligations.WriterDrainRoundTrip := by
  intro s k w o l hgood hw hs hpos hempty hfits hflag hoff hlen hpair hl hrange hapart hopen
  obtain ⟨hwf, hcontrol, hpayload, hsmall⟩ := State.writer_regions_of_good hgood hw
  have hready : DrainReady s w o l :=
    ⟨hwf, hcontrol, hpayload, hsmall, hs, hpos, hempty, hfits, hflag, hoff, hlen, hpair, hl, hrange, hapart, hopen⟩
  obtain ⟨off, len, m', ⟨n, hn⟩, hread⟩ := hready.cycle hw
  refine ⟨n, { w.flushed off len (s.viewFrom (w.cfg.payBase + o) l) with pos := .handoff }, ?_⟩
  simp only [hn]
  refine ⟨State.drained_writerAt hw _ _ _, trivial, hs, rfl, rfl, fun i h1 h2 => ?_, fun i hi => ?_, rfl, ?_⟩
  · exact (hread i).trans (if_pos ⟨h1, h2⟩)
  · exact (hread i).trans (if_neg (by omega))
  · exact ⟨rfl, rfl, rfl, rfl, rfl, rfl, rfl, rfl, rfl, rfl⟩

end Sys2Proof.Machine
end
